-- ==== Sys2Proof/Word.lean ====
section
/-! DEFINITION. The machine's word types (spec/00_scope.md R12, R13). -/

namespace Sys2Proof

/-- A byte is 8 bits (R13). -/
abbrev Byte := BitVec 8

/-- A 32-bit unsigned word: the tick, the deadline, a decoded BCD value (R12). -/
abbrev Word32 := BitVec 32

/-- A 16-bit unsigned word: a diameter in millimetres, a manufacturer code (R292, R304). -/
abbrev Word16 := BitVec 16

end Sys2Proof
end

