-- ==== Sys2Proof/Syntax.lean ====
section
/-! DEFINITION. The operations of the block: one constructor per row of spec/opcode_table.json
(spec/30_encoding.md R123). -/

namespace Sys2Proof

/-- An operation with its operands (R120, R121). -/
inductive Instr where
  /-- INIT, 0x01 (R201). -/
  | init
  /-- SETRCB h, 0x02 (R204). -/
  | setrcb (h : Byte)
  /-- SETECB h, 0x03 (R205). -/
  | setecb (h : Byte)
  /-- SEND a c d, 0x04: address, command code, payload (R203). -/
  | send (a c : Byte) (d : List Byte)
  /-- TASK, 0x05 (R200). -/
  | task
  /-- GETSTATE, 0x06 (R206). -/
  | getstate
  /-- GETERR, 0x07 (R207). -/
  | geterr
  /-- RESET, 0x08 (R208). -/
  | reset
  /-- RXPUSH b, 0x10, environment event (R210). -/
  | rxpush (b : Byte)
  /-- TICK, 0x11, environment event (R209). -/
  | tick
  /-- BUILD c d, 0x20: command code, payload (R142). -/
  | build (c : Byte) (d : List Byte)
  /-- XOR8 s, 0x21 (R141). -/
  | xor8 (s : List Byte)
  /-- ASMBYTE b, 0x22 (R168). -/
  | asmbyte (b : Byte)
  /-- VALIDATE f, 0x23 (R252). -/
  | validate (f : List Byte)
  /-- CKSUM f, 0x24 (R254). -/
  | cksum (f : List Byte)
  /-- DETECT f, 0x25 (R258). -/
  | detect (f : List Byte)
  /-- BCD4 b0 b1 b2 b3, 0x26, bytes in wire order (R285). -/
  | bcd4 (b0 b1 b2 b3 : Byte)
  /-- DIAM b, 0x27 (R291). -/
  | diam (b : Byte)
  /-- BATT c, 0x28 (R294). -/
  | batt (c : Byte)
  /-- STATUS r s v, 0x29: revision code, status byte, value/decimal-point byte (R297). -/
  | status (r s v : Byte)
  /-- UDF u, 0x2A (R303). -/
  | udf (u : List Byte)
  /-- DECODE f, 0x2B (R306). -/
  | decode (f : List Byte)
  /-- SUM8 s, 0x2C (R253). -/
  | sum8 (s : List Byte)
  deriving DecidableEq, Repr

end Sys2Proof
end

