-- ==== Sys2Proof/WellFormed.lean ====
section
/-! DEFINITION. Which operations the encoding can express (spec/30_encoding.md R120, R121; the revision
operand of STATUS, spec/44_field_decoder.md R297). -/

namespace Sys2Proof

/-- A payload's length fits the one-byte count `n` of formats FS and FB (R120). -/
abbrev payloadFits (d : List Byte) : Prop := d.length ≤ 255

/-- A byte sequence's length fits the two-byte count `nlo nhi` of format FN (R120). -/
abbrev sequenceFits (s : List Byte) : Prop := s.length ≤ 65535

/-- A revision code of STATUS is 1 to 4 (R297). -/
abbrev revisionFits (r : Byte) : Prop := 1 ≤ r.toNat ∧ r.toNat ≤ 4

/-- Every operand is one the operation's format and rule admit. -/
def Instr.wellFormed : Instr → Bool
  | .init => true
  | .setrcb _ => true
  | .setecb _ => true
  | .send _ _ d => decide (payloadFits d)
  | .task => true
  | .getstate => true
  | .geterr => true
  | .reset => true
  | .rxpush _ => true
  | .tick => true
  | .build _ d => decide (payloadFits d)
  | .xor8 s => decide (sequenceFits s)
  | .asmbyte _ => true
  | .validate f => decide (sequenceFits f)
  | .cksum f => decide (sequenceFits f)
  | .detect f => decide (sequenceFits f)
  | .bcd4 _ _ _ _ => true
  | .diam _ => true
  | .batt _ => true
  | .status r _ _ => decide (revisionFits r)
  | .udf u => decide (sequenceFits u)
  | .decode f => decide (sequenceFits f)
  | .sum8 s => decide (sequenceFits s)

end Sys2Proof
end

