-- ==== Sys2Proof/Decode.lean ====
section
/-! DEFINITION. The operation encoding of spec/30_encoding.md: the opcode map (R123), the formats (R120), the
decoder (R122, R124; spec/60_exceptions.md R333), and after it the encoder. -/

namespace Sys2Proof

/-- Why a byte string encodes no operation. -/
inductive DecodeError where
  /-- It ends before the length its opcode requires (R122). -/
  | truncated
  /-- Its opcode byte names no operation (R124). -/
  | unknownOp
  /-- It is a STATUS string whose revision code is not 1 to 4 (spec/44_field_decoder.md R297, spec/60_exceptions.md
  R333). -/
  | badOperand
  deriving DecidableEq, Repr

/-- What the decoder answers: an operation with the bytes after it, or why there is none. -/
inductive Decoded where
  /-- An operation and the bytes after its last one. -/
  | op (i : Instr) (rest : List Byte)
  /-- No operation. -/
  | bad (e : DecodeError)
  deriving DecidableEq, Repr

/-- The formats of R120, each with the operation its operand bytes make. -/
inductive Shape where
  /-- `F0`: the opcode byte alone. -/
  | f0 (i : Instr)
  /-- `F1`: one operand byte. -/
  | f1 (k : Byte → Instr)
  /-- `F3`: a revision code, a status byte, a value/decimal-point byte. -/
  | f3 (k : Byte → Byte → Byte → Instr)
  /-- `F4`: four BCD bytes in wire order. -/
  | f4 (k : Byte → Byte → Byte → Byte → Instr)
  /-- `FS`: address, command code, payload length `n`, payload. -/
  | fs (k : Byte → Byte → List Byte → Instr)
  /-- `FB`: command code, payload length `n`, payload. -/
  | fb (k : Byte → List Byte → Instr)
  /-- `FN`: length `m = nlo + 256*nhi`, byte sequence. -/
  | fn (k : List Byte → Instr)

/-- The opcode map (R123); every other opcode byte encodes no operation (R124). -/
def opcodeShape : Nat → Option Shape
  | 0x01 => some (.f0 .init)
  | 0x02 => some (.f1 .setrcb)
  | 0x03 => some (.f1 .setecb)
  | 0x04 => some (.fs .send)
  | 0x05 => some (.f0 .task)
  | 0x06 => some (.f0 .getstate)
  | 0x07 => some (.f0 .geterr)
  | 0x08 => some (.f0 .reset)
  | 0x10 => some (.f1 .rxpush)
  | 0x11 => some (.f0 .tick)
  | 0x20 => some (.fb .build)
  | 0x21 => some (.fn .xor8)
  | 0x22 => some (.f1 .asmbyte)
  | 0x23 => some (.fn .validate)
  | 0x24 => some (.fn .cksum)
  | 0x25 => some (.fn .detect)
  | 0x26 => some (.f4 .bcd4)
  | 0x27 => some (.f1 .diam)
  | 0x28 => some (.f1 .batt)
  | 0x29 => some (.f3 .status)
  | 0x2A => some (.fn .udf)
  | 0x2B => some (.fn .decode)
  | 0x2C => some (.fn .sum8)
  | _ => none

/-- The count field of format FN, little-endian (R120). -/
def countOf (nlo nhi : Byte) : Nat := nlo.toNat + 256 * nhi.toNat

/-- Take `n` bytes as a byte-sequence operand; a string that ends before them is truncated (R122). -/
def takeSequence (n : Nat) (k : List Byte → Instr) (bs : List Byte) : Decoded :=
  if n ≤ bs.length then .op (k (bs.take n)) (bs.drop n) else .bad .truncated

/-- Take the three operand bytes of `F3`; a revision code that names no revision is refused
(spec/44_field_decoder.md R297, spec/60_exceptions.md R333). -/
def takeRevision (k : Byte → Byte → Byte → Instr) (r s v : Byte) (bs : List Byte) : Decoded :=
  if revisionFits r then .op (k r s v) bs else .bad .badOperand

/-- Read the operand bytes of a format (R120, R122). -/
def readOperands : Shape → List Byte → Decoded
  | .f0 i, bs => .op i bs
  | .f1 k, x :: bs => .op (k x) bs
  | .f3 k, r :: s :: v :: bs => takeRevision k r s v bs
  | .f4 k, b0 :: b1 :: b2 :: b3 :: bs => .op (k b0 b1 b2 b3) bs
  | .fs k, a :: c :: n :: bs => takeSequence n.toNat (k a c) bs
  | .fb k, c :: n :: bs => takeSequence n.toNat (k c) bs
  | .fn k, nlo :: nhi :: bs => takeSequence (countOf nlo nhi) k bs
  | _, _ => .bad .truncated

/-- The decoder: the operation at the front of a byte string and the bytes after it, or why there is none
(R122, R124, spec/60_exceptions.md R333). An empty string is truncated (notes/assumptions/11.md). -/
def decode : List Byte → Decoded
  | [] => .bad .truncated
  | op :: bs =>
    match opcodeShape op.toNat with
    | none => .bad .unknownOp
    | some sh => readOperands sh bs

/-- The length in bytes of an operation of a format, from its count field (R122). -/
def shapeLength : Shape → List Byte → Nat
  | .f0 _, _ => 1
  | .f1 _, _ => 2
  | .f3 _, _ => 4
  | .f4 _, _ => 5
  | .fs _, bs => 4 + (bs.getD 2 0).toNat
  | .fb _, bs => 3 + (bs.getD 1 0).toNat
  | .fn _, bs => 3 + countOf (bs.getD 0 0) (bs.getD 1 0)

/-- The length an operation string must have, found from its opcode byte and its count field (R122); none
for an opcode byte that names no operation. A count field the string does not reach counts as 0. -/
def operationLength : List Byte → Option Nat
  | [] => none
  | op :: bs => (opcodeShape op.toNat).map (fun sh => shapeLength sh bs)

/-- The one-byte count of a payload (R120). -/
def payloadCount (d : List Byte) : Byte := BitVec.ofNat 8 d.length

/-- The two count bytes and the bytes of an FN operand (R120). -/
def sequenceBytes (s : List Byte) : List Byte :=
  BitVec.ofNat 8 (s.length % 256) :: BitVec.ofNat 8 (s.length / 256) :: s

/-- The byte string of an operation (R120, R123). -/
def encode : Instr → List Byte
  | .init => [0x01]
  | .setrcb h => [0x02, h]
  | .setecb h => [0x03, h]
  | .send a c d => 0x04 :: a :: c :: payloadCount d :: d
  | .task => [0x05]
  | .getstate => [0x06]
  | .geterr => [0x07]
  | .reset => [0x08]
  | .rxpush b => [0x10, b]
  | .tick => [0x11]
  | .build c d => 0x20 :: c :: payloadCount d :: d
  | .xor8 s => 0x21 :: sequenceBytes s
  | .asmbyte b => [0x22, b]
  | .validate f => 0x23 :: sequenceBytes f
  | .cksum f => 0x24 :: sequenceBytes f
  | .detect f => 0x25 :: sequenceBytes f
  | .bcd4 b0 b1 b2 b3 => [0x26, b0, b1, b2, b3]
  | .diam b => [0x27, b]
  | .batt c => [0x28, c]
  | .status r s v => [0x29, r, s, v]
  | .udf u => 0x2A :: sequenceBytes u
  | .decode f => 0x2B :: sequenceBytes f
  | .sum8 s => 0x2C :: sequenceBytes s

/-- The bytes of a number, byte 0 (bits 7:0) first (spec/00_scope.md R13). -/
def bytesOfWord (nbits w : Nat) : List Byte :=
  (List.range (nbits / 8)).map (fun k => BitVec.ofNat 8 (w >>> (8 * k)))

/-- The operation string whose bits are `w`, as spec/opcode_table.json numbers them: its bytes, then zero
bytes up to the length its opcode and count field require. -/
def tableString (nbits w : Nat) : List Byte :=
  match operationLength (bytesOfWord nbits w) with
  | none => bytesOfWord nbits w
  | some n => (bytesOfWord nbits w ++ List.replicate n 0).take n

/-- The operation the decoder reads from the operation string whose bits are `w`; none where it refuses. -/
def decodeTableWord (nbits w : Nat) : Option Instr :=
  match decode (tableString nbits w) with
  | .op i [] => some i
  | _ => none

end Sys2Proof
end

