-- ==== Sys2Proof/Config.lean ====
section
/-! DEFINITION. What an implementation fixes and the spec leaves open (spec/00_scope.md R11), and the free
values of the machine. -/

namespace Sys2Proof

/-- The parameters the source requires but gives no value for (R11). -/
structure Params where
  /-- `MAX_FRAME`: inbound buffer capacity and outbound bound, in bytes. -/
  maxFrame : Nat
  /-- `L_MIN`, lower end of the plausible range of L. -/
  lMin : Nat
  /-- `L_MAX`, upper end of the plausible range of L. -/
  lMax : Nat
  /-- `MDH`, the UserData marker constant. -/
  mdh : Byte
  /-- `TAG2`, the version tag of revision 2. -/
  tag2 : Byte
  /-- `TAG3`, the version tag of revision 3. -/
  tag3 : Byte
  /-- `TAG4`, the version tag of revision 4. -/
  tag4 : Byte
  /-- `TIMEOUT_MS`, the response timeout. -/
  timeoutMs : Nat
  /-- `PREAMBLE_MS`, the duration of the idle-high hold; no rule reads its value. -/
  preambleMs : Nat
  /-- `RING_SIZE`, the capacity of the Transport's ring. -/
  ringSize : Nat
  /-- `BIT_FLOW`, status bit of flow-exceeded. -/
  bitFlow : Fin 8
  /-- `BIT_REVERSE`, status bit of reverse-flow. -/
  bitReverse : Fin 8
  /-- `BIT_LEAK`, status bit of indoor-leak. -/
  bitLeak : Fin 8
  /-- `BIT_LOWBATT`, status bit of low-battery (revisions 1 and 2). -/
  bitLowBatt : Fin 8
  /-- `VOLT_BITS`, the five status bits of the voltage code, most significant first (revisions 3 and 4). -/
  voltBits : Vector (Fin 8) 5
  /-- `BIT_MAGNET`, bit of the value/decimal-point byte (revision 4). -/
  bitMagnet : Fin 8
  /-- `BIT_FREEZE`, bit of the value/decimal-point byte (revision 4). -/
  bitFreeze : Fin 8
  deriving DecidableEq, Repr, Inhabited

/-- R11's constraint on the sizes: `21 <= MAX_FRAME <= 259`,
`15 <= L_MIN <= L_MAX <= min(255, MAX_FRAME - 6)`. -/
abbrev Params.SizesLegal (P : Params) : Prop :=
  21 ≤ P.maxFrame ∧ P.maxFrame ≤ 259 ∧ 15 ≤ P.lMin ∧ P.lMin ≤ P.lMax ∧ P.lMax ≤ min 255 (P.maxFrame - 6)

/-- R11's constraint on the version tags: pairwise distinct. -/
abbrev Params.TagsLegal (P : Params) : Prop :=
  P.tag2 ≠ P.tag3 ∧ P.tag2 ≠ P.tag4 ∧ P.tag3 ≠ P.tag4

/-- R11's constraint on the timeout: `1 <= TIMEOUT_MS < 2^31`. -/
abbrev Params.TimeoutLegal (P : Params) : Prop :=
  1 ≤ P.timeoutMs ∧ P.timeoutMs < 2 ^ 31

/-- R11's constraint on the ring: a power of two, at least 2. -/
abbrev Params.RingLegal (P : Params) : Prop :=
  2 ≤ P.ringSize ∧ 2 ^ P.ringSize.log2 = P.ringSize

/-- R11's constraint on the bit positions: the three shared flags and the five voltage bits are the eight
bits of the status byte, each once; low-battery is none of the three shared ones; magnet and freeze are
bits 6 and 7 in one order or the other. -/
abbrev Params.BitsLegal (P : Params) : Prop :=
  ([P.bitFlow, P.bitReverse, P.bitLeak] ++ P.voltBits.toList).Nodup ∧
  P.bitLowBatt ∉ [P.bitFlow, P.bitReverse, P.bitLeak] ∧
  ((P.bitMagnet = 6 ∧ P.bitFreeze = 7) ∨ (P.bitMagnet = 7 ∧ P.bitFreeze = 6))

/-- All the constraints R11 puts on the parameters. -/
abbrev Params.Legal (P : Params) : Prop :=
  P.SizesLegal ∧ P.TagsLegal ∧ P.TimeoutLegal ∧ P.RingLegal ∧ P.BitsLegal

/-- The reference configuration of spec/92_eei_decisions.md D5, which the vectors of
spec/95_test_vectors.md use. No rule gives these values. -/
def Params.reference : Params where
  maxFrame := 64
  lMin := 15
  lMax := 58
  mdh := 0x0F
  tag2 := 0x02
  tag3 := 0x03
  tag4 := 0x04
  timeoutMs := 1000
  preambleMs := 100
  ringSize := 64
  bitFlow := 0
  bitReverse := 1
  bitLeak := 2
  bitLowBatt := 3
  voltBits := #v[7, 6, 5, 4, 3]
  bitMagnet := 7
  bitFreeze := 6

/-- An arbitrary choice of parameters: no value, no body (notes/assumptions/1.md). -/
opaque Config.rawParams : Params

/-- The machine's parameters: any legal choice. Every legal choice is one that `Config.rawParams` may be,
and an illegal one is replaced, so all that can be proved of them is what holds for every legal choice
(notes/assumptions/1.md). -/
def Config.params : Params :=
  if Config.rawParams.Legal then Config.rawParams else Params.reference

/-- FREE VALUE: the milliseconds δ that pass during the n-th blocking transmission (spec/42 R222; U5;
notes/assumptions/4.md). -/
opaque Config.freeDelay : Nat → Word32

/-- FREE VALUE: a byte sequence the spec leaves unspecified: the FIFO after an RXPUSH before INIT
(spec/42 R210; notes/assumptions/5.md) and the contents of `rx_buf` after INIT or RESET (spec/10 R36;
notes/assumptions/6.md). -/
opaque Config.freeBytes : Nat → List Byte

end Sys2Proof
end

