-- ==== Sys2Proof/Machine/State.lean ====
section
/-! DEFINITION. The state of the block (spec/10_state.md), its value right after power-on, and the reasons a
step can stop. -/

namespace Sys2Proof.Machine

/-- The ProtocolEngine's states (R32). Codes 6 and 7 are never written. -/
inductive EngState where
  /-- No exchange outstanding (stable). -/
  | idle
  /-- Line held idle-high (transient). -/
  | preamble
  /-- Sending (transient). -/
  | transmitting
  /-- Waiting for a response frame (stable). -/
  | waitingForResponse
  /-- A frame was delivered (transient). -/
  | complete
  /-- An exchange was abandoned (transient). -/
  | error
  deriving DecidableEq, Repr

/-- The ReceiveAssembler's states (R50). Code 3 is never written. -/
inductive AsmState where
  /-- No frame begun. -/
  | waitingForStart
  /-- A frame's bytes are being stored. -/
  | collecting
  /-- The end sentinel was stored (transient). -/
  | complete
  deriving DecidableEq, Repr

/-- The error kinds (spec/60_exceptions.md R320). Code 7 is never written. -/
inductive ErrorCode where
  /-- No error reported. -/
  | ok
  /-- No valid frame before the deadline. -/
  | timeout
  /-- Frame structurally valid, checksum wrong. -/
  | checksumMismatch
  /-- Structural validation failed. -/
  | invalidFrame
  /-- Reserved: no rule raises it (R125). -/
  | nakReceived
  /-- The assembler exceeded the maximum frame size. -/
  | bufferOverflow
  /-- Caller misuse. -/
  | invalidParam
  deriving DecidableEq, Repr

/-- The wire-format revisions (spec/43_version_detector.md R250); `Unknown` is the
`none` of an Option. -/
inductive Revision where
  /-- V1.1. -/
  | v11
  /-- V1.2. -/
  | v12
  /-- V1.3. -/
  | v13
  /-- V1.4. -/
  | v14
  deriving DecidableEq, Repr

/-- The outcome of one assembler step (spec/41_receive_assembler.md). -/
inductive AsmOutcome where
  /-- `None`: the byte finished nothing. -/
  | none
  /-- `Overflow`: the buffer was full. -/
  | overflow
  /-- `Completed(f)`: a frame's bytes. -/
  | completed (f : List Byte)
  deriving DecidableEq, Repr

/-- The status flags of one revision (spec/44_field_decoder.md R297). -/
structure StatusFields where
  /-- Flow exceeded (all revisions). -/
  flowExceeded : Bool
  /-- Reverse flow (all revisions). -/
  reverseFlow : Bool
  /-- Indoor leak (all revisions). -/
  indoorLeak : Bool
  /-- Low battery (revisions 1, 2). -/
  lowBattery : Option Bool
  /-- Battery voltage in decivolts (revisions 3, 4). -/
  batteryDecivolts : Option Byte
  /-- Magnet detected (revision 4). -/
  magnetDetected : Option Bool
  /-- Freeze warning (revision 4). -/
  freezeWarning : Option Bool
  deriving DecidableEq, Repr

/-- A decoded UDF trailer (spec/44_field_decoder.md R303). -/
structure Trailer where
  /-- The version tag, raw. -/
  tag : Byte
  /-- The verification month, raw. -/
  verificationMonth : Byte
  /-- The manufacturer code. -/
  manufacturer : Word16
  deriving DecidableEq, Repr

/-- The decoded response record (spec/44_field_decoder.md R300). -/
structure Record where
  /-- The revision DETECT gave. -/
  revision : Revision
  /-- The response checksum was right. -/
  checksumValid : Bool
  /-- The marker byte was `MDH`. -/
  markerValid : Bool
  /-- The control byte. -/
  c : Byte
  /-- The address byte. -/
  a : Byte
  /-- The control-information byte. -/
  ci : Byte
  /-- The meter identifier. -/
  meterId : Word32
  /-- The status byte, raw. -/
  statusRaw : Byte
  /-- The status flags. -/
  status : StatusFields
  /-- The pipe diameter in millimetres. -/
  diameterMm : Word16
  /-- The decimal-point position, raw. -/
  decimalPoint : BitVec 4
  /-- The meter reading. -/
  reading : Word32
  /-- The UDF trailer, if any. -/
  udf : Option Trailer
  /-- The completed frame. -/
  frame : List Byte
  /-- Its length. -/
  frameLen : Nat
  deriving DecidableEq, Repr

/-- The output events (R49). -/
inductive Event where
  /-- A synchronous transmission of a byte sequence. -/
  | tx (bytes : List Byte)
  /-- The line held idle-high. -/
  | preamble (ms : Nat)
  /-- The response callback fired. -/
  | resp (h : Byte) (rec : Record)
  /-- The error callback fired. -/
  | err (h : Byte) (code : ErrorCode)
  deriving DecidableEq, Repr

/-- What an operation returns on the result port (spec/30_encoding.md R129; notes/assumptions/12.md). -/
inductive Result where
  /-- SEND, GETSTATE, GETERR and DETECT: a numeric code (R203, R206, R207, R258). -/
  | code (n : BitVec 3)
  /-- XOR8 and SUM8: a checksum (R141, R253). -/
  | checksum (c : Byte)
  /-- BUILD: `Ok(frame)`, or none for `Err(InvalidParam)` (R142). -/
  | built (f : Option (List Byte))
  /-- ASMBYTE: the outcome of the step (R168). -/
  | assembled (o : AsmOutcome)
  /-- VALIDATE: `Valid` is true (R252). -/
  | valid (b : Bool)
  /-- CKSUM: `checksum_valid` (R254). -/
  | checksumValid (b : Bool)
  /-- BCD4: a decoded number (R285). -/
  | number (n : Word32)
  /-- DIAM: millimetres (R291). -/
  | diameter (mm : Word16)
  /-- BATT: decivolts (R294). -/
  | decivolts (v : Byte)
  /-- STATUS: the flags (R297). -/
  | status (f : StatusFields)
  /-- UDF: the trailer, or none (R303). -/
  | trailer (t : Option Trailer)
  /-- DECODE: the record, or none for `Unknown` (R306). -/
  | record (r : Option Record)
  deriving DecidableEq, Repr

/-- A byte store as (index, byte) pairs: indexes strictly rising, no zero byte listed. An index that is not
listed reads as 0 (notes/assumptions/7.md). -/
abbrev Memory := List Host.Cell

/-- The model faults (spec/60_exceptions.md R331) and the one stop the model adds. All are safe: the machine
stops, and nothing can be proved of what the hardware would do next. -/
inductive Fault where
  /-- A host operation other than INIT while `initialised = 0` (R334). Raised by `hostOp`. Safe. -/
  | notInitialised
  /-- A buffer access at an index of `MAX_FRAME` or more (R332). Raised by `bufferRead` and `bufferWrite`;
  no state that keeps the invariants of R61 reaches it. Safe. -/
  | bufferIndex
  /-- An operation string shorter than its format requires (R122). Raised by `fetch`. Safe. -/
  | truncated
  /-- An opcode byte that names no operation (R124). Raised by `fetch`. Safe. -/
  | unknownOp
  /-- STATUS with a revision code outside 1..4 (R297), a decode-time refusal (R333). Raised by `fetch`; by `execStatus`
  of a term no string decodes to (notes/assumptions/17.md). Safe. -/
  | badOperand
  /-- A host operation issued during another (R336). Raised by `hostOp` and `hostOpAlways`. Safe. -/
  | reentrant
  /-- A byte reached the assembler in its transient state `Complete`, which R50 says no operation starts in.
  Raised by `asmStep` (notes/assumptions/15.md). Safe. -/
  | assemblerTransient
  deriving DecidableEq, Repr

/-- Reasons the model gives a step no meaning. -/
inductive Refusal where
  /-- An operation without a meaning yet. Raised by `exec`'s refused arms. Safe. -/
  | notModelled (mnemonic : String)
  /-- The run is over: `pc` is at the end of the stream (spec/70_reset_and_hazards.md R366). Raised by
  `fetch` (notes/assumptions/10.md). Safe. -/
  | runEnded
  /-- A stream entry goes on after its operation's last byte, so it is the encoding of no one operation.
  Raised by `fetch` (notes/assumptions/9.md). Safe. -/
  | trailingBytes
  deriving DecidableEq, Repr

/-- Everything the spec gives the machine (R30), with the two fields of the model's own at the end. -/
structure State where
  /-- `eng_state` (R32). -/
  engState : EngState
  /-- `tx_buf`, the last command frame built (R34). -/
  txBuf : Memory
  /-- `tx_len` (R34). -/
  txLen : Nat
  /-- `tx_cursor` (R35). -/
  txCursor : Nat
  /-- `rx_buf` (R36). -/
  rxBuf : Memory
  /-- `rx_count` (R36). -/
  rxCount : Nat
  /-- `rx_cursor` (R37). -/
  rxCursor : Nat
  /-- `retry_count` (R38). -/
  retryCount : Byte
  /-- `deadline` (R40). -/
  deadline : Word32
  /-- `resp_cb` (R44). -/
  respCb : Option Byte
  /-- `err_cb` (R44). -/
  errCb : Option Byte
  /-- `last_error` (R45). -/
  lastError : ErrorCode
  /-- `rx_int_en` (R46). -/
  rxIntEn : Bool
  /-- `initialised` (R47). -/
  initialised : Bool
  /-- `asm_state` (R50). -/
  asmState : AsmState
  /-- `tick` (R41). -/
  tick : Word32
  /-- `rx_fifo`, front first (R48). -/
  rxFifo : List Byte
  /-- The output trace, oldest event first (R49). -/
  trace : List Event
  /-- What the result port has returned, oldest first (spec/30_encoding.md R129). -/
  results : List Result
  /-- The host-operation stream: one operation string per entry (R39; notes/assumptions/8.md). -/
  stream : List (List Byte)
  /-- `pc`, the index of the next operation in the stream (R39). -/
  pc : Nat
  /-- MODEL'S OWN: a host operation is in progress, which R336 asks about (notes/assumptions/14.md). -/
  opActive : Bool
  /-- MODEL'S OWN: how many free values have been drawn (notes/assumptions/4.md). -/
  draws : Nat
  deriving DecidableEq, Repr

/-- The machine at power-on: `initialised = 0` (R47) and an empty trace (R49). The spec leaves every other
element unspecified (R60, R361); the values here are the model's (notes/assumptions/2.md). -/
def State.reset : State where
  engState := .idle
  txBuf := []
  txLen := 0
  txCursor := 0
  rxBuf := []
  rxCount := 0
  rxCursor := 0
  retryCount := 0
  deadline := 0
  respCb := none
  errCb := none
  lastError := .ok
  rxIntEn := true
  initialised := false
  asmState := .waitingForStart
  tick := 0
  rxFifo := []
  trace := []
  results := []
  stream := []
  pc := 0
  opActive := false
  draws := 0

end Sys2Proof.Machine
end

