-- ==== Sys2Proof/Machine/Operands.lean ====
section
/-! DEFINITION. Operand forms: the fixed constants (spec/00_scope.md R10), bytes and fields of a sequence, numeric
codes, handles. -/

namespace Sys2Proof.Machine

/-- `CMD_START` (R10). -/
def cmdStart : Byte := 0x10

/-- `RSP_START` (R10). -/
def rspStart : Byte := 0x68

/-- `RSP_END` (R10). -/
def rspEnd : Byte := 0x16

/-- `MAX_RETRY` (R10). -/
def maxRetry : Nat := 3

/-- `MIN_END_COUNT`: an end sentinel completes a frame only when the count exceeds this (R10, R165). -/
def minEndCount : Nat := 6

/-- `BATT_BASE` (R10). -/
def battBase : Byte := 37

/-- Byte `k` of a sequence. The rules read only indexes the sequence has (notes/assumptions/23.md). -/
def byteAt (s : List Byte) (k : Nat) : Byte := s.getD k 0

/-- The `n` bytes of a sequence from index `a` on. -/
def bytesFrom (s : List Byte) (a n : Nat) : List Byte := (s.drop a).take n

/-- UserData offset `k` of a frame: frame index `7 + k` (spec/30_encoding.md R112). -/
def userData (f : List Byte) (k : Nat) : Byte := byteAt f (7 + k)

/-- UserData of a frame: the `L - 3` bytes from frame index 7 on (R110). -/
def userDataBytes (f : List Byte) : List Byte := bytesFrom f 7 ((byteAt f 1).toNat - 3)

/-- `b[7:4]`. -/
def highNibble (b : Byte) : BitVec 4 := b.extractLsb' 4 4

/-- `b[3:0]`. -/
def lowNibble (b : Byte) : BitVec 4 := b.extractLsb' 0 4

/-- Bit `i` of a byte as 0 or 1. -/
def bitValue (b : Byte) (i : Fin 8) : Nat := (b.getLsbD i.val).toNat

/-- A handle operand: 0 encodes none (spec/30_encoding.md R121). -/
def handleOf (h : Byte) : Option Byte := if h = 0 then none else some h

/-- The numeric code of an engine state (R32). -/
def engStateCode : EngState → BitVec 3
  | .idle => 0
  | .preamble => 1
  | .transmitting => 2
  | .waitingForResponse => 3
  | .complete => 4
  | .error => 5

/-- The numeric code of an error kind (spec/60_exceptions.md R320). -/
def errorCodeValue : ErrorCode → BitVec 3
  | .ok => 0
  | .timeout => 1
  | .checksumMismatch => 2
  | .invalidFrame => 3
  | .nakReceived => 4
  | .bufferOverflow => 5
  | .invalidParam => 6

/-- The numeric code of a classification; `Unknown` is 0 (spec/43_version_detector.md R250). -/
def revisionCode : Option Revision → BitVec 3
  | none => 0
  | some .v11 => 1
  | some .v12 => 2
  | some .v13 => 3
  | some .v14 => 4

/-- The revision a STATUS operand names; codes outside 1..4 name none (spec/44_field_decoder.md R297). -/
def revisionOf (r : Byte) : Option Revision :=
  match r.toNat with
  | 1 => some .v11
  | 2 => some .v12
  | 3 => some .v13
  | 4 => some .v14
  | _ => none

end Sys2Proof.Machine
end

