-- ==== Sys2Proof/Machine/Ops.lean ====
section
/-! DEFINITION. The named operations over the byte stores, the output trace, the result port and the engine context,
error reporting (spec/60_exceptions.md R326), and what is around an operation: fetching it, the checks on a
host operation, advancing the stream. -/

namespace Sys2Proof.Machine

/-- What a meaning answers. -/
abbrev Answer := Host.Outcome State Fault Refusal

/-- Do one thing and then another; the first fault or refusal ends both. -/
def andThen {σ τ : Type} (o : Host.Outcome σ Fault Refusal) (k : σ → Host.Outcome τ Fault Refusal) :
    Host.Outcome τ Fault Refusal :=
  match o with
  | .next s => k s
  | .fault f => .fault f
  | .refused r => .refused r

/-! ## Byte stores (spec/20_memory.md R70, R71) -/

/-- The byte at an index; an unlisted index reads as 0. -/
def Memory.read : Memory → Nat → Byte
  | [], _ => 0
  | (k, v) :: m, a => if a = k then v else Memory.read m a

/-- Store a byte at an index, keeping the canonical form: storing 0 removes the entry. -/
def Memory.write : Memory → Nat → Byte → Memory
  | [], a, v => if v = 0 then [] else [(a, v)]
  | (k, w) :: m, a, v =>
    if a < k then (if v = 0 then (k, w) :: m else (a, v) :: (k, w) :: m)
    else if a = k then (if v = 0 then m else (a, v) :: m)
    else (k, w) :: Memory.write m a v

/-- The canonical form: indexes strictly rising, no zero byte listed. -/
def Memory.wf (m : Memory) : Bool :=
  decide (m.Pairwise (fun x y => x.1 < y.1)) && m.all (fun c => decide (c.2 ≠ 0))

/-- The `n` bytes from index 0 on. -/
def Memory.readBytes (m : Memory) (n : Nat) : List Byte := (List.range n).map m.read

/-- Store a sequence in index order from index `a` on. -/
def Memory.writeBytes : Memory → Nat → List Byte → Memory
  | m, _, [] => m
  | m, a, b :: bs => Memory.writeBytes (m.write a b) (a + 1) bs

/-- Read the `n` bytes from index 0 on of a buffer; an index of `MAX_FRAME` or more is `BufferIndex` (R71). -/
def bufferRead (P : Params) (m : Memory) (n : Nat) : Host.Outcome (List Byte) Fault Refusal :=
  if n ≤ P.maxFrame then .next (m.readBytes n) else .fault .bufferIndex

/-- Store a sequence in a buffer from index `a` on; an index of `MAX_FRAME` or more is `BufferIndex` (R71). -/
def bufferWrite (P : Params) (m : Memory) (a : Nat) (bs : List Byte) : Host.Outcome Memory Fault Refusal :=
  if a + bs.length ≤ P.maxFrame then .next (m.writeBytes a bs) else .fault .bufferIndex

/-- FREE VALUE: the unspecified contents of a buffer, any `MAX_FRAME` bytes (notes/assumptions/6.md). -/
def freeBuffer (P : Params) (n : Nat) : Memory :=
  Memory.writeBytes [] 0 ((Config.freeBytes n).take P.maxFrame)

/-- FREE VALUE: the unspecified contents of the receive FIFO, any sequence R48's bound admits
(notes/assumptions/5.md). -/
def freeFifo (P : Params) (n : Nat) : List Byte := (Config.freeBytes n).take (P.ringSize - 1)

/-! ## The two checksums, kept distinct (spec/40_frame_builder.md R144) -/

/-- `xor8`: the exclusive-or of the bytes (R141). -/
def xor8 (s : List Byte) : Byte := s.foldl (fun c b => c ^^^ b) 0

/-- `sum8`: the sum of the bytes mod 256 (spec/43_version_detector.md R253). -/
def sum8 (s : List Byte) : Byte := s.foldl (fun c b => c + b) 0

/-! ## Output trace, result port, stream -/

/-- `emit E`: append an output event (spec/00_scope.md R15). -/
def emit (e : Event) (s : State) : State := { s with trace := s.trace ++ [e] }

/-- Put a value on the result port (spec/30_encoding.md R129). -/
def putResult (r : Result) (s : State) : State := { s with results := s.results ++ [r] }

/-- `pc <- pc + 1` (spec/10_state.md R39). -/
def advance (s : State) : State := { s with pc := s.pc + 1 }

/-- An event for a callback slot: dropped where the slot is empty (spec/60_exceptions.md R325, R326). -/
def notify (slot : Option Byte) (e : Byte → Event) (s : State) : State :=
  match slot with
  | none => s
  | some h => emit (e h) s

/-- `raise E`: record the error, then fire the error callback (spec/60_exceptions.md R326). The operation in
progress goes on; nothing is saved and no control is transferred (R330). -/
def raiseError (e : ErrorCode) (s : State) : State :=
  notify s.errCb (fun h => .err h e) { s with lastError := e }

/-- Fire the response callback with a record (spec/60_exceptions.md R325). -/
def fireResponse (r : Record) (s : State) : State := notify s.respCb (fun h => .resp h r) s

/-! ## Engine context (spec/42_protocol_engine.md) -/

/-- `ReturnToIdle()` (R236). -/
def returnToIdle (s : State) : State := { s with engState := .idle, retryCount := 0 }

/-- Leave an outstanding exchange through a transient state; with none outstanding, nothing (R237, R238). -/
def endExchange (via : EngState) (s : State) : State :=
  if s.engState = .waitingForResponse then returnToIdle { s with engState := via } else s

/-- The buffer reset before every transmission, with the receive interrupt off around it (R221). DESIGN CHOICE, unsafe
(notes/assumptions/24.md): `rx_buf`, of which no byte is then below the count, keeps its bytes. -/
def bufferReset (s : State) : State :=
  let s := { s with rxIntEn := false }
  let s := { s with rxFifo := [], asmState := .waitingForStart, rxCount := 0, rxCursor := 0 }
  { s with rxIntEn := true }

/-- Preamble and blocking transmission of the given bytes; the time that passes is a free value (R222). -/
def transmit (P : Params) (bytes : List Byte) (s : State) : State :=
  let s := emit (.preamble P.preambleMs) { s with engState := .preamble }
  let s := emit (.tx bytes) { s with engState := .transmitting }
  { s with
    txCursor := s.txLen
    tick := s.tick + Config.freeDelay s.draws
    draws := s.draws + 1 }

/-- Arm the response timeout (R223). -/
def arm (P : Params) (s : State) : State :=
  { s with deadline := s.tick + BitVec.ofNat 32 P.timeoutMs, engState := .waitingForResponse }

/-- `StartTransmission()`: buffer reset, preamble and transmission, arming (R220). -/
def startTransmission (P : Params) (s : State) : Answer :=
  let s := bufferReset s
  andThen (bufferRead P s.txBuf s.txLen) fun bytes => .next (arm P (transmit P bytes s))

/-- The values INIT and RESET share (spec/10_state.md R60): every element but the callback slots,
`initialised`, `tick` and the trace. What `rx_buf` holds is unspecified. -/
def toInitialValues (P : Params) (s : State) : State :=
  { s with
    engState := .idle
    asmState := .waitingForStart
    rxBuf := freeBuffer P s.draws
    rxCount := 0
    rxCursor := 0
    txBuf := []
    txLen := 0
    txCursor := 0
    retryCount := 0
    deadline := 0
    lastError := .ok
    rxIntEn := true
    rxFifo := []
    draws := s.draws + 1 }

/-! ## Around an operation -/

/-- A sub-block function or an event: its effect, then the stream advances. -/
def finish (s : State) : Answer := .next (advance s)

/-- A sub-block function: it writes the result port only. -/
def answerWith (r : Result) (s : State) : Answer := finish (putResult r s)

/-- A host operation that needs no INIT before it: refused during another (spec/60_exceptions.md R336); its
effect; then the stream advances. -/
def hostOpAlways (s : State) (effect : State → Answer) : Answer :=
  if s.opActive then .fault .reentrant
  else andThen (effect { s with opActive := true }) fun t => finish { t with opActive := false }

/-- A host operation other than INIT: refused during another (R336), and before INIT (R334). -/
def hostOp (s : State) (effect : State → Answer) : Answer :=
  hostOpAlways s fun t => if t.initialised then effect t else .fault .notInitialised

/-- The operation the stream gives next (R39): the entry at `pc`, decoded. The run is over at the end of the
stream (spec/70_reset_and_hazards.md R366). -/
def fetch (s : State) : Host.Outcome Instr Fault Refusal :=
  match s.stream[s.pc]? with
  | none => .refused .runEnded
  | some bytes =>
    match decode bytes with
    | .op i [] => .next i
    | .op _ (_ :: _) => .refused .trailingBytes
    | .bad .truncated => .fault .truncated
    | .bad .unknownOp => .fault .unknownOp
    | .bad .badOperand => .fault .badOperand

/-- Put an operation string at an index of a stream; entries the stream does not have before it are empty. -/
def placeAt : List (List Byte) → Nat → List Byte → List (List Byte)
  | [], 0, w => [w]
  | [], n + 1, w => [] :: placeAt [] n w
  | _ :: es, 0, w => w :: es
  | e :: es, n + 1, w => e :: placeAt es n w

end Sys2Proof.Machine
end

