-- ==== Sys2Proof/Machine/Flags.lean ====
section
/-! DEFINITION. The boolean outcomes the block computes (spec/10_state.md R52: it has no flag register) and the tick
comparison. -/

namespace Sys2Proof.Machine

/-- `elapsed(now, dl)`: the wrap-aware form of `now >= dl` (spec/10_state.md R43). DESIGN CHOICE, unsafe
(notes/assumptions/25.md): a deadline stays elapsed for `2^31 - 1` ticks after it, as R43 and V-D62 say, not for the
`2^31 - TIMEOUT_MS` of spec/70_reset_and_hazards.md R369 and U16. -/
def elapsed (now dl : Word32) : Bool := decide ((now - dl).toNat < 2 ^ 31)

/-- `checksum_valid` (spec/43_version_detector.md R254): the byte before the last is the sum of the bytes from
index 4 up to it; false of fewer than 6 bytes. -/
def checksumValid (f : List Byte) : Bool :=
  if f.length < 6 then false
  else decide (byteAt f (f.length - 2) = sum8 (bytesFrom f 4 (f.length - 6)))

/-- `marker_valid` (spec/43_version_detector.md R261). -/
def markerValid (P : Params) (f : List Byte) : Bool := decide (userData f 0 = P.mdh)

/-- `flow_exceeded` (spec/44_field_decoder.md R297). -/
def flowExceeded (P : Params) (s : Byte) : Bool := s.getLsbD P.bitFlow.val

/-- `reverse_flow` (R297). -/
def reverseFlow (P : Params) (s : Byte) : Bool := s.getLsbD P.bitReverse.val

/-- `indoor_leak` (R297). -/
def indoorLeak (P : Params) (s : Byte) : Bool := s.getLsbD P.bitLeak.val

/-- `low_battery`, in revisions 1 and 2 only (R297). -/
def lowBattery (P : Params) (rev : Revision) (s : Byte) : Option Bool :=
  match rev with
  | .v11 => some (s.getLsbD P.bitLowBatt.val)
  | .v12 => some (s.getLsbD P.bitLowBatt.val)
  | .v13 => none
  | .v14 => none

/-- `magnet_detected`, in revision 4 only (R297). -/
def magnetDetected (P : Params) (rev : Revision) (v : Byte) : Option Bool :=
  match rev with
  | .v11 => none
  | .v12 => none
  | .v13 => none
  | .v14 => some (v.getLsbD P.bitMagnet.val)

/-- `freeze_warning`, in revision 4 only (R297). -/
def freezeWarning (P : Params) (rev : Revision) (v : Byte) : Option Bool :=
  match rev with
  | .v11 => none
  | .v12 => none
  | .v13 => none
  | .v14 => some (v.getLsbD P.bitFreeze.val)

end Sys2Proof.Machine
end

