-- ==== Sys2Proof/Machine/Assembler.lean ====
section
/-! DEFINITION. The ReceiveAssembler and ASMBYTE (spec/41_receive_assembler.md). -/

namespace Sys2Proof.Machine

/-- Set the assembler's state and count; the cursor mirrors the count (R168, spec/10_state.md R37). DESIGN CHOICE,
unsafe (notes/assumptions/24.md): `rx_buf` keeps its bytes at the new count and above, which spec/10_state.md R36 and U4
leave open. -/
def setAssembler (a : AsmState) (count : Nat) (s : State) : State :=
  { s with asmState := a, rxCount := count, rxCursor := count }

/-- The end check on the byte just appended (R165). -/
def endsFrame (b : Byte) (count : Nat) : Bool := decide (b = rspEnd ∧ minEndCount < count)

/-- `Complete`: the buffered bytes are the outcome, and the assembler waits for a start again (R167). -/
def deliverFrame (P : Params) (s : State) : Host.Outcome (AsmOutcome × State) Fault Refusal :=
  andThen (bufferRead P s.rxBuf s.rxCount) fun f =>
    .next (.completed f, setAssembler .waitingForStart 0 s)

/-- The byte in `Collecting` with room in the buffer: append (R164), then the end check (R165, R166). -/
def appendByte (P : Params) (b : Byte) (s : State) : Host.Outcome (AsmOutcome × State) Fault Refusal :=
  andThen (bufferWrite P s.rxBuf s.rxCount [b]) fun buf =>
    let s := setAssembler .collecting (s.rxCount + 1) { s with rxBuf := buf }
    if endsFrame b s.rxCount then deliverFrame P { s with asmState := .complete }
    else .next (.none, s)

/-- One assembler step on one byte: the outcome and the state after it (R160 to R168). -/
def asmStep (P : Params) (b : Byte) (s : State) : Host.Outcome (AsmOutcome × State) Fault Refusal :=
  match s.asmState with
  | .waitingForStart =>
    if b = rspStart then
      andThen (bufferWrite P s.rxBuf 0 [b]) fun buf =>
        .next (.none, setAssembler .collecting 1 { s with rxBuf := buf })
    else .next (.none, { s with rxCursor := s.rxCount })
  | .collecting =>
    if s.rxCount = P.maxFrame then .next (.overflow, setAssembler .waitingForStart 0 s)
    else appendByte P b s
  | .complete => .fault .assemblerTransient

/-- ASMBYTE b (R168): the step, its outcome on the result port; no event, no error recorded. -/
def execAsmbyte (b : Byte) (s : State) : Answer :=
  andThen (asmStep Config.params b s) fun r => answerWith (.assembled r.1) r.2

end Sys2Proof.Machine
end

