-- ==== Sys2Proof/Machine/Detector.lean ====
section
/-! DEFINITION. Structural validation, the response checksum and the VersionDetector: VALIDATE, CKSUM, DETECT, SUM8
(spec/43_version_detector.md). -/

namespace Sys2Proof.Machine

/-- The structural checks on a frame, in the spec's order (R252). -/
def validate (P : Params) (f : List Byte) : Bool :=
  if f.length < 7 then false
  else if byteAt f 0 ≠ rspStart ∨ byteAt f 3 ≠ rspStart then false
  else if byteAt f (f.length - 1) ≠ rspEnd then false
  else if byteAt f 2 ≠ byteAt f 1 then false
  else if (byteAt f 1).toNat < P.lMin ∨ P.lMax < (byteAt f 1).toNat then false
  else if f.length ≠ (byteAt f 1).toNat + 6 then false
  else true

/-- The revision of a frame, first match wins; none is `Unknown` (R257, R258). -/
def detect (P : Params) (f : List Byte) : Option Revision :=
  if validate P f = false then none
  else if (byteAt f 1).toNat - 3 = 12 then some .v11
  else if userData f 12 = P.tag2 then some .v12
  else if userData f 12 = P.tag3 then some .v13
  else if userData f 12 = P.tag4 then some .v14
  else if (userData f 7).extractLsb' 6 2 ≠ 0 then some .v14
  else some .v12

/-- VALIDATE f (R252). -/
def execValidate (f : List Byte) (s : State) : Answer :=
  answerWith (.valid (validate Config.params f)) s

/-- CKSUM f (R254). -/
def execCksum (f : List Byte) (s : State) : Answer := answerWith (.checksumValid (checksumValid f)) s

/-- DETECT f (R258). -/
def execDetect (f : List Byte) (s : State) : Answer :=
  answerWith (.code (revisionCode (detect Config.params f))) s

/-- SUM8 s (R253). -/
def execSum8 (bs : List Byte) (s : State) : Answer := answerWith (.checksum (sum8 bs)) s

end Sys2Proof.Machine
end

