-- ==== Sys2Proof/Machine/FieldDecoder.lean ====
section
/-! DEFINITION. The FieldDecoder: BCD4, DIAM, BATT, STATUS, UDF, DECODE (spec/44_field_decoder.md). -/

namespace Sys2Proof.Machine

/-- Both nibbles of a byte are decimal digits (R285). -/
def isBcd (b : Byte) : Bool := decide ((highNibble b).toNat ≤ 9 ∧ (lowNibble b).toNat ≤ 9)

/-- `digit_pair`: the two-digit value of a BCD byte (R286). -/
def digitPair (b : Byte) : Word32 :=
  BitVec.ofNat 32 ((highNibble b).toNat * 10 + (lowNibble b).toNat)

/-- Accumulate BCD bytes, most significant first; an invalid digit makes the whole result 0 (R285). -/
def bcdFold : List Byte → Word32 → Word32
  | [], r => r
  | b :: bs, r => if isBcd b then bcdFold bs (r * 100 + digitPair b) else 0

/-- The number of four BCD bytes in wire order, least significant first (R285). -/
def bcd4 (b0 b1 b2 b3 : Byte) : Word32 := bcdFold [b3, b2, b1, b0] 0

/-- `DIAM_TABLE`, in millimetres, with 0 for code 0 and codes above 12 (R291, R292). -/
def diamTable : Nat → Word16
  | 1 => 15
  | 2 => 20
  | 3 => 25
  | 4 => 32
  | 5 => 40
  | 6 => 50
  | 7 => 80
  | 8 => 100
  | 9 => 150
  | 10 => 200
  | 11 => 250
  | 12 => 300
  | _ => 0

/-- The pipe diameter of a diameter-code byte (R291). -/
def diam (b : Byte) : Word16 := diamTable (highNibble b).toNat

/-- The battery voltage in decivolts of a code; only the low five bits count (R294). -/
def batt (c : Byte) : Byte := battBase - (c.extractLsb' 0 5).setWidth 8

/-- The 5-bit voltage code of a status byte, most significant bit first (R297, R298). -/
def voltCode (P : Params) (s : Byte) : Byte :=
  BitVec.ofNat 8
    (bitValue s P.voltBits[0] * 16 + bitValue s P.voltBits[1] * 8 + bitValue s P.voltBits[2] * 4 +
      bitValue s P.voltBits[3] * 2 + bitValue s P.voltBits[4])

/-- `battery_decivolts`, in revisions 3 and 4 only (R297). -/
def batteryDecivolts (P : Params) (rev : Revision) (s : Byte) : Option Byte :=
  match rev with
  | .v11 => none
  | .v12 => none
  | .v13 => some (batt (voltCode P s))
  | .v14 => some (batt (voltCode P s))

/-- The status flags of a revision, from the status byte and the value/decimal-point byte (R297). -/
def statusFields (P : Params) (rev : Revision) (s v : Byte) : StatusFields where
  flowExceeded := flowExceeded P s
  reverseFlow := reverseFlow P s
  indoorLeak := indoorLeak P s
  lowBattery := lowBattery P rev s
  batteryDecivolts := batteryDecivolts P rev s
  magnetDetected := magnetDetected P rev v
  freezeWarning := freezeWarning P rev v

/-- `u[14]*256 + u[15]`, big-endian (R304). -/
def manufacturerOf (u : List Byte) : Word16 := byteAt u 14 ++ byteAt u 15

/-- The UDF trailer of a UserData sequence, none of fewer than 16 bytes (R303). -/
def udfTrailer (u : List Byte) : Option Trailer :=
  if u.length < 16 then none
  else some
    { tag := byteAt u 12
      verificationMonth := byteAt u 13
      manufacturer := manufacturerOf u }

/-- The trailer of a frame: none in revision 1 (R305). -/
def frameTrailer (rev : Revision) (f : List Byte) : Option Trailer :=
  match rev with
  | .v11 => none
  | .v12 => udfTrailer (userDataBytes f)
  | .v13 => udfTrailer (userDataBytes f)
  | .v14 => udfTrailer (userDataBytes f)

/-- `Decode(f, rev, ok)`: the record of a classified frame (R300, R306). -/
def decodeRecord (P : Params) (f : List Byte) (rev : Revision) (ok : Bool) : Record where
  revision := rev
  checksumValid := ok
  markerValid := markerValid P f
  c := byteAt f 4
  a := byteAt f 5
  ci := byteAt f 6
  meterId := bcd4 (userData f 1) (userData f 2) (userData f 3) (userData f 4)
  statusRaw := userData f 5
  status := statusFields P rev (userData f 5) (userData f 7)
  diameterMm := diam (userData f 6)
  decimalPoint := lowNibble (userData f 7)
  reading := bcd4 (userData f 8) (userData f 9) (userData f 10) (userData f 11)
  udf := frameTrailer rev f
  frame := f
  frameLen := f.length

/-- The record of a frame, none where DETECT gives `Unknown` (R306). -/
def decodeFrame (P : Params) (f : List Byte) : Option Record :=
  match detect P f with
  | none => none
  | some rev => some (decodeRecord P f rev (checksumValid f))

/-- BCD4 b0 b1 b2 b3 (R285). -/
def execBcd4 (b0 b1 b2 b3 : Byte) (s : State) : Answer := answerWith (.number (bcd4 b0 b1 b2 b3)) s

/-- DIAM b (R291). -/
def execDiam (b : Byte) (s : State) : Answer := answerWith (.diameter (diam b)) s

/-- BATT c (R294). -/
def execBatt (c : Byte) (s : State) : Answer := answerWith (.decivolts (batt c)) s

/-- STATUS r s v (R297). A revision code outside 1..4 is refused at decoding (spec/60_exceptions.md R333), and by this
meaning of a term no string decodes to (notes/assumptions/17.md). -/
def execStatus (r sb v : Byte) (s : State) : Answer :=
  match revisionOf r with
  | none => .fault .badOperand
  | some rev => answerWith (.status (statusFields Config.params rev sb v)) s

/-- UDF u (R303). -/
def execUdf (u : List Byte) (s : State) : Answer := answerWith (.trailer (udfTrailer u)) s

/-- DECODE f (R306). -/
def execDecode (f : List Byte) (s : State) : Answer :=
  answerWith (.record (decodeFrame Config.params f)) s

end Sys2Proof.Machine
end

