-- ==== Sys2Proof/Machine/FrameBuilder.lean ====
section
/-! DEFINITION. The FrameBuilder: BUILD and XOR8 (spec/40_frame_builder.md). -/

namespace Sys2Proof.Machine

/-- The payload bound `n <= MAX_FRAME - 4` (R143). -/
def payloadInBound (P : Params) (d : List Byte) : Bool := decide (d.length ≤ P.maxFrame - 4)

/-- The command frame's bytes before its checksum (R142, spec/30_encoding.md R100). -/
def frameBody (c : Byte) (d : List Byte) : List Byte := cmdStart :: c :: BitVec.ofNat 8 d.length :: d

/-- The command frame of a command code and a payload (R142); none is `Err(InvalidParam)` (R143). -/
def buildFrame (P : Params) (c : Byte) (d : List Byte) : Option (List Byte) :=
  if payloadInBound P d then some (frameBody c d ++ [xor8 (frameBody c d)]) else none

/-- BUILD c d (R142). -/
def execBuild (c : Byte) (d : List Byte) (s : State) : Answer :=
  answerWith (.built (buildFrame Config.params c d)) s

/-- XOR8 s (R141). -/
def execXor8 (bs : List Byte) (s : State) : Answer := answerWith (.checksum (xor8 bs)) s

end Sys2Proof.Machine
end

