-- ==== Sys2Proof/Machine/Engine.lean ====
section
/-! DEFINITION. The ProtocolEngine's host operations: INIT, SETRCB, SETECB, SEND, TASK, GETSTATE, GETERR, RESET
(spec/42_protocol_engine.md). Each takes the parameters, so that the vectors of spec/95_test_vectors.md can be run at
the reference configuration. -/

namespace Sys2Proof.Machine

/-- INIT's effect (R201): the values of spec/10_state.md R60, callback slots cleared, `initialised` set. -/
def initEngine (P : Params) (s : State) : State :=
  { toInitialValues P s with respCb := none, errCb := none, initialised := true }

/-- A rejected SEND: the error is reported and returned, nothing else changes (R202). -/
def rejectSend (s : State) : State :=
  putResult (.code (errorCodeValue .invalidParam)) (raiseError .invalidParam s)

/-- SEND's effect (R202, R203). The address is not an argument: it affects nothing. -/
def sendCommand (P : Params) (c : Byte) (d : List Byte) (s : State) : Answer :=
  if s.engState ≠ .idle then .next (rejectSend s)
  else match buildFrame P c d with
    | none => .next (rejectSend s)
    | some f =>
      andThen (bufferWrite P s.txBuf 0 f) fun buf =>
      andThen (startTransmission P { s with txBuf := buf, txLen := f.length, retryCount := 0 }) fun t =>
        .next (putResult (.code (errorCodeValue .ok)) t)

/-- `OnOverflow()` (R238). -/
def onOverflow (s : State) : State := endExchange .error (raiseError .bufferOverflow s)

/-- A frame DETECT classified: a wrong checksum is reported, the record is delivered, an outstanding exchange
completes (R237). -/
def deliverRecord (P : Params) (f : List Byte) (rev : Revision) (s : State) : State :=
  let ok := checksumValid f
  let s := if ok then s else raiseError .checksumMismatch s
  endExchange .complete (fireResponse (decodeRecord P f rev ok) s)

/-- `ProcessFrame(f)` (R237). -/
def processFrame (P : Params) (f : List Byte) (s : State) : State :=
  match detect P f with
  | none => endExchange .error (raiseError .invalidFrame s)
  | some rev => deliverRecord P f rev s

/-- What TASK does on an assembler outcome (R200). -/
def onOutcome (P : Params) (o : AsmOutcome) (s : State) : State :=
  match o with
  | .none => s
  | .overflow => onOverflow s
  | .completed f => processFrame P f s

/-- One byte of the drain: the assembler step and its outcome (R230). -/
def takeByte (P : Params) (b : Byte) (s : State) : Answer :=
  andThen (asmStep P b s) fun r => .next (onOutcome P r.1 r.2)

/-- The drain loop over the bytes in the FIFO, front first (R200, R230). -/
def drain (P : Params) : List Byte → State → Answer
  | [], s => .next s
  | b :: rest, s => andThen (takeByte P b { s with rxFifo := rest }) (drain P rest)

/-- `OnTimeout()` (R232): report, then retransmit the stored frame (R234) or abandon (R235). -/
def onTimeout (P : Params) (s : State) : Answer :=
  let s := raiseError .timeout s
  if s.retryCount.toNat < maxRetry then startTransmission P { s with retryCount := s.retryCount + 1 }
  else .next (returnToIdle { s with engState := .error })

/-- The deadline test after the drain, in `WaitingForResponse` only (R231). -/
def checkDeadline (P : Params) (s : State) : Answer :=
  if s.engState = .waitingForResponse ∧ elapsed s.tick s.deadline = true then onTimeout P s else .next s

/-- TASK's effect (R200). -/
def runTask (P : Params) (s : State) : Answer :=
  andThen (drain P s.rxFifo s) (checkDeadline P)

/-- INIT (R201): legal in any state. -/
def execInit (s : State) : Answer := hostOpAlways s fun t => .next (initEngine Config.params t)

/-- SETRCB h (R204). -/
def execSetrcb (h : Byte) (s : State) : Answer :=
  hostOp s fun t => .next { t with respCb := handleOf h }

/-- SETECB h (R205). -/
def execSetecb (h : Byte) (s : State) : Answer :=
  hostOp s fun t => .next { t with errCb := handleOf h }

/-- SEND a c d (R203): the address `a` affects nothing. -/
def execSend (_a c : Byte) (d : List Byte) (s : State) : Answer :=
  hostOp s (sendCommand Config.params c d)

/-- TASK (R200). -/
def execTask (s : State) : Answer := hostOp s (runTask Config.params)

/-- GETSTATE (R206). -/
def execGetstate (s : State) : Answer :=
  hostOp s fun t => .next (putResult (.code (engStateCode t.engState)) t)

/-- GETERR (R207): reading does not clear `last_error`. -/
def execGeterr (s : State) : Answer :=
  hostOp s fun t => .next (putResult (.code (errorCodeValue t.lastError)) t)

/-- RESET (R208): as INIT, but the callback slots and `initialised` keep their values. -/
def execReset (s : State) : Answer := hostOp s fun t => .next (toInitialValues Config.params t)

end Sys2Proof.Machine
end

