-- ==== Sys2Proof/Machine/Environment.lean ====
section
/-! DEFINITION. The environment events RXPUSH and TICK (spec/42_protocol_engine.md R209, R210): legal in every state
(spec/60_exceptions.md R335). -/

namespace Sys2Proof.Machine

/-- RXPUSH's effect (R210): the byte is appended, or lost where the FIFO is full or the receive interrupt off;
before INIT the FIFO holds anything. -/
def receiveByte (P : Params) (b : Byte) (s : State) : State :=
  if s.initialised then
    if s.rxIntEn = true ∧ s.rxFifo.length < P.ringSize - 1 then { s with rxFifo := s.rxFifo ++ [b] } else s
  else { s with rxFifo := freeFifo P s.draws, draws := s.draws + 1 }

/-- RXPUSH b (R210). -/
def execRxpush (b : Byte) (s : State) : Answer := finish (receiveByte Config.params b s)

/-- TICK (R209): it never looks at the deadline. -/
def execTick (s : State) : Answer := finish { s with tick := s.tick + 1 }

end Sys2Proof.Machine
end

