-- ==== Sys2Proof/Machine/Dispatch.lean ====
section
/-! DEFINITION. One arm per operation, each a direct call of its meaning. -/

namespace Sys2Proof.Machine

def exec (i : Instr) (s : State) : Host.Outcome State Fault Refusal :=
  match i with
  | .init => Sys2Proof.Machine.execInit s
  | .setrcb h => Sys2Proof.Machine.execSetrcb h s
  | .setecb h => Sys2Proof.Machine.execSetecb h s
  | .send a c d => Sys2Proof.Machine.execSend a c d s
  | .task => Sys2Proof.Machine.execTask s
  | .getstate => Sys2Proof.Machine.execGetstate s
  | .geterr => Sys2Proof.Machine.execGeterr s
  | .reset => Sys2Proof.Machine.execReset s
  | .rxpush b => Sys2Proof.Machine.execRxpush b s
  | .tick => Sys2Proof.Machine.execTick s
  | .build c d => Sys2Proof.Machine.execBuild c d s
  | .xor8 bs => Sys2Proof.Machine.execXor8 bs s
  | .asmbyte b => Sys2Proof.Machine.execAsmbyte b s
  | .validate f => Sys2Proof.Machine.execValidate f s
  | .cksum f => Sys2Proof.Machine.execCksum f s
  | .detect f => Sys2Proof.Machine.execDetect f s
  | .bcd4 b0 b1 b2 b3 => Sys2Proof.Machine.execBcd4 b0 b1 b2 b3 s
  | .diam b => Sys2Proof.Machine.execDiam b s
  | .batt c => Sys2Proof.Machine.execBatt c s
  | .status r sb v => Sys2Proof.Machine.execStatus r sb v s
  | .udf u => Sys2Proof.Machine.execUdf u s
  | .decode f => Sys2Proof.Machine.execDecode f s
  | .sum8 bs => Sys2Proof.Machine.execSum8 bs s

end Sys2Proof.Machine
end

