-- ==== Sys2Proof/Machine/Step.lean ====
section
/-! DEFINITION. One step: fetch the operation at `pc` of the stream and run it (spec/10_state.md R39). -/

namespace Sys2Proof.Machine

/-- One step of the machine. -/
def step (s : State) : Host.Outcome State Fault Refusal :=
  andThen (fetch s) fun i => exec i s

/-- `s` with the operation string whose bits are `w` as the stream's next entry (notes/assumptions/8.md). -/
def State.withFetchWord (s : State) (nbits w : Nat) : State :=
  { s with stream := placeAt s.stream s.pc (tableString nbits w) }

end Sys2Proof.Machine
end

