-- ==== Sys2Proof/Safety.lean ====
section
/-! DEFINITION. What the claims are stated in: the invariant between operations (spec/10_state.md R61), what a
finished operation leaves, reported errors, runs of assembler steps. -/

namespace Sys2Proof.Machine

/-! ## The invariant between operations -/

/-- Both byte stores are in canonical form and hold nothing at `MAX_FRAME` or above (spec/20_memory.md R70, R71). -/
abbrev State.StoresCanonical (P : Params) (s : State) : Prop :=
  s.txBuf.wf = true ∧ s.rxBuf.wf = true ∧
  (∀ c ∈ s.txBuf, c.1 < P.maxFrame) ∧ (∀ c ∈ s.rxBuf, c.1 < P.maxFrame)

/-- Every count is in the range its rule gives it (R34, R35, R36, R37, R48). -/
abbrev State.InRange (P : Params) (s : State) : Prop :=
  s.txLen ≤ P.maxFrame ∧ s.txCursor ≤ P.maxFrame ∧ s.rxCount ≤ P.maxFrame ∧ s.rxCursor ≤ P.maxFrame ∧
  s.rxFifo.length ≤ P.ringSize - 1

/-- R51, with R50's word that `Complete` is never seen between operations. -/
abbrev State.AssemblerStable (P : Params) (s : State) : Prop :=
  s.asmState ≠ .complete ∧
  (s.asmState = .waitingForStart → s.rxCount = 0) ∧
  (s.asmState = .collecting → 1 ≤ s.rxCount ∧ s.rxCount ≤ P.maxFrame ∧ s.rxBuf.read 0 = rspStart)

/-- The six clauses of R61. -/
abbrev State.BetweenOperations (P : Params) (s : State) : Prop :=
  (s.engState = .idle ∨ s.engState = .waitingForResponse) ∧
  (s.engState = .idle → s.retryCount = 0) ∧
  (s.engState = .waitingForResponse →
    4 ≤ s.txLen ∧ s.txLen ≤ P.maxFrame ∧ s.retryCount.toNat ≤ maxRetry) ∧
  s.AssemblerStable P ∧
  s.rxIntEn = true ∧
  s.rxFifo.length ≤ P.ringSize - 1

/-- The cursors follow their counts (R35, R37) and a registered handle is nonzero (R44). -/
abbrev State.SlotsStable (s : State) : Prop :=
  s.txCursor = s.txLen ∧ s.rxCursor = s.rxCount ∧ s.respCb ≠ some 0 ∧ s.errCb ≠ some 0

/-- The invariant: the stores and counts always, no operation in progress, and once INIT has run what R61
lists. -/
def State.Inv (s : State) : Prop :=
  s.StoresCanonical Config.params ∧ s.InRange Config.params ∧ s.opActive = false ∧
  (s.initialised = true → s.BetweenOperations Config.params ∧ s.SlotsStable)

/-! ## What an operation leaves -/

/-- A host operation other than INIT may run: INIT has run and no host operation is in progress. -/
abbrev State.Ready (s : State) : Prop := s.initialised = true ∧ s.opActive = false

/-- The state a sub-block function leaves: one value on the result port, the stream advanced. -/
def State.returned (s : State) (r : Result) : State :=
  { s with results := s.results ++ [r], pc := s.pc + 1 }

/-- The events of a reported error: one ERR where an error callback is registered. -/
def errEvents (slot : Option Byte) (e : ErrorCode) : List Event :=
  match slot with
  | none => []
  | some h => [.err h e]

/-- The events of a delivered record: one RESP where a response callback is registered. -/
def respEvents (slot : Option Byte) (r : Record) : List Event :=
  match slot with
  | none => []
  | some h => [.resp h r]

/-- The host operations (spec/30_encoding.md R123). -/
def isHostOp : Instr → Bool
  | .init => true
  | .setrcb _ => true
  | .setecb _ => true
  | .send _ _ _ => true
  | .task => true
  | .getstate => true
  | .geterr => true
  | .reset => true
  | .rxpush _ => false
  | .tick => false
  | .build _ _ => false
  | .xor8 _ => false
  | .asmbyte _ => false
  | .validate _ => false
  | .cksum _ => false
  | .detect _ => false
  | .bcd4 _ _ _ _ => false
  | .diam _ => false
  | .batt _ => false
  | .status _ _ _ => false
  | .udf _ => false
  | .decode _ => false
  | .sum8 _ => false

/-! ## Runs -/

/-- Run ASMBYTE on each byte in turn. -/
def feed : List Byte → State → Host.Outcome State Fault Refusal
  | [], s => .next s
  | b :: bs, s => andThen (exec (.asmbyte b) s) (feed bs)

/-- Bytes that finish no frame and overflow nothing where the assembler of `s` takes them, `n` bytes being buffered
(spec/41_receive_assembler.md R160 to R166): first `noise`, which a waiting assembler discards, then `rest`, which
begins a frame or continues the one being collected, fits in the buffer, and has no end sentinel from the frame's seventh
byte on. -/
def State.Unfinished (P : Params) (s : State) (n : Nat) (noise rest : List Byte) : Prop :=
  n + rest.length ≤ P.maxFrame ∧ (∀ k, rest.getD k 0 = rspEnd → n + k < minEndCount) ∧
  ((s.asmState = .collecting ∧ noise = [] ∧ n = s.rxCount) ∨
    (s.asmState = .waitingForStart ∧ rspStart ∉ noise ∧ n = 0 ∧ (rest = [] ∨ rest.getD 0 0 = rspStart)))

/-- The buffer `buf` is `m` with the bytes `bs` stored from index `n` on. -/
def storedFrom (m buf : Memory) (n : Nat) (bs : List Byte) : Prop :=
  (bs = [] → buf = m) ∧ ∀ k, buf.read k = if n ≤ k ∧ k < n + bs.length then bs.getD (k - n) 0 else m.read k

/-- A sequence the assembler takes whole: it begins with the start sentinel, ends with the end sentinel, has
room in the buffer, and no byte before the last ends it early (spec/41_receive_assembler.md R169). -/
def arrivesWhole (P : Params) (f : List Byte) : Prop :=
  7 ≤ f.length ∧ f.length ≤ P.maxFrame ∧ byteAt f 0 = rspStart ∧ byteAt f (f.length - 1) = rspEnd ∧
  ∀ k, 6 ≤ k → k < f.length - 1 → byteAt f k ≠ rspEnd

end Sys2Proof.Machine
end

