-- ==== Sys2Proof/Certificates/Slice0/Obligations.lean ====
section
/-! DEFINITION. The statements for the provers. Each docstring names the rule of spec/ it formalises. -/

open Sys2Proof Sys2Proof.Machine

/-! ## Encoding and step -/

/-- spec/30_encoding.md R130: the worked encodings decode to the operations they stand for. Rests on decision D2. -/
def Obligations.SpecWordsDecode : Prop :=
  decode [0x04, 0x01, 0x5B, 0x01, 0x5C] = .op (.send 0x01 0x5B [0x5C]) [] ∧
  decode [0x05] = .op .task [] ∧
  decode [0x10, 0x68] = .op (.rxpush 0x68) [] ∧
  decode [0x26, 0x78, 0x56, 0x34, 0x12] = .op (.bcd4 0x78 0x56 0x34 0x12) []

/-- spec/30_encoding.md R120, R123: decoding the string of a well-formed operation gives it back, whatever bytes
follow. Rests on decision D2. -/
def Obligations.DecodeReadsEncode : Prop :=
  ∀ (i : Instr) (rest : List Byte), i.wellFormed = true → decode (encode i ++ rest) = .op i rest

/-- spec/30_encoding.md R120, R123, spec/60_exceptions.md R333: every string the decoder reads is the encoding of the
operation it gives, which is well formed, so each operation has one encoding and no string of another revision code
than 1 to 4 is read. Rests on decision D2. -/
def Obligations.EncodeInvertsDecode : Prop :=
  ∀ (bs rest : List Byte) (i : Instr), decode bs = .op i rest → i.wellFormed = true ∧ bs = encode i ++ rest

/-- spec/30_encoding.md R122: a string that ends before the length its opcode requires is refused with `Truncated`.
The empty string among them is the model's reading (notes/assumptions/11.md). Rests on decision D2. -/
def Obligations.ProperPrefixTruncated : Prop :=
  ∀ (i : Instr) (k : Nat), i.wellFormed = true → k < (encode i).length →
    decode ((encode i).take k) = .bad .truncated ∧
    ∀ s : State, s.stream[s.pc]? = some ((encode i).take k) → step s = .fault .truncated

/-- spec/30_encoding.md R124: opcodes 0x00, 0x09 to 0x0F, 0x12 to 0x1F and 0x2D to 0xFF encode no operation and are
refused with `UnknownOp`; no other opcode is. Rests on decision D2. -/
def Obligations.UnknownOpcodesRefused : Prop :=
  ∀ (op : Byte) (bs : List Byte),
    if op.toNat = 0 ∨ (0x09 ≤ op.toNat ∧ op.toNat ≤ 0x0F) ∨ (0x12 ≤ op.toNat ∧ op.toNat ≤ 0x1F) ∨ 0x2D ≤ op.toNat then
      decode (op :: bs) = .bad .unknownOp ∧
      ∀ s : State, s.stream[s.pc]? = some (op :: bs) → step s = .fault .unknownOp
    else decode (op :: bs) ≠ .bad .unknownOp

/-- spec/10_state.md R39: where the stream's entry at `pc` decodes to an operation, the step is that operation's
meaning and nothing more. Rests on decision D3. -/
def Obligations.StepRunsDecodedOperation : Prop :=
  ∀ (s : State) (bytes : List Byte) (i : Instr),
    s.stream[s.pc]? = some bytes → decode bytes = .op i [] → step s = exec i s

/-- spec/70_reset_and_hazards.md R366: the run ends when `pc` equals the stream's length. That the end is a refusal,
and that bytes after an operation's last one are refused, is the model's choice (notes/assumptions/10.md, 9.md). Rests
on decisions D3 and D50. -/
def Obligations.RunEndsAtStreamEnd : Prop :=
  (∀ s : State, s.stream.length ≤ s.pc → step s = .refused .runEnded) ∧
  (∀ (s : State) (bytes rest : List Byte) (i : Instr) (b : Byte),
    s.stream[s.pc]? = some bytes → decode bytes = .op i (b :: rest) → step s = .refused .trailingBytes)

/-- The model's way of loading a program (notes/assumptions/8.md): an operation string placed at the next entry is the
one the next step runs. -/
def Obligations.TableWordRunsNext : Prop :=
  ∀ (s : State) (nbits w : Nat) (i : Instr), decodeTableWord nbits w = some i →
    step (s.withFetchWord nbits w) = exec i (s.withFetchWord nbits w)

/-- spec/10_state.md R39 ("Every operation and event advances it by one") and spec/20_memory.md R85 ("nothing writes
it"): every operation moves to the next entry of a stream it leaves as it was. Rests on decisions D3 and D49. -/
def Obligations.OperationsAdvanceStream : Prop :=
  ∀ (i : Instr) (s t : State), exec i s = .next t → t.pc = s.pc + 1 ∧ t.stream = s.stream

/-! ## Power-on and the invariant -/

/-- spec/10_state.md R47, R49: at power-on the engine is not initialised and the trace is empty. Rests on decision
D27. -/
def Obligations.PowerOnState : Prop :=
  State.reset.initialised = false ∧ State.reset.trace = []

/-- The power-on state meets the invariant, and its assembler is stable. Its values but `initialised` and the trace
are the model's choice (notes/assumptions/2.md). -/
def Obligations.PowerOnMeetsInvariant : Prop :=
  State.reset.Inv ∧ State.reset.AssemblerStable Config.params

/-- spec/10_state.md R61: after every operation and every environment event its six clauses hold once INIT has run;
with them the counts' ranges, the cursors (R35, R37), nonzero handles (R44), and the byte stores' canonical form.
Rests on the spec's own derivation of R61 and on decision D42; the canonical form is the model's
(notes/assumptions/7.md). -/
def Obligations.StepKeepsInvariant : Prop :=
  ∀ s t : State, s.Inv → step s = .next t → t.Inv

/-- spec/60_exceptions.md R332: in every state that meets the invariant and whose assembler is stable (which the
invariant itself asks once INIT has run), no step reaches `BufferIndex`, the assembler's transient state, or a host
operation inside another; and the step leaves the assembler stable, before INIT too. Rests on the spec's own
derivation of R332; the transient fault is the model's (notes/assumptions/15.md). -/
def Obligations.InvariantRulesOutFaults : Prop :=
  ∀ s : State, s.Inv → s.AssemblerStable Config.params →
    (step s ≠ .fault .bufferIndex ∧ step s ≠ .fault .assemblerTransient ∧ step s ≠ .fault .reentrant) ∧
    ∀ t, step s = .next t → t.AssemblerStable Config.params

/-! ## Rules of the whole machine -/

/-- spec/10_state.md R49, spec/30_encoding.md R129: no operation takes back an output event or a result, and each
returns at most one result. Rests on decision D45; one list of results is the model's (notes/assumptions/12.md). -/
def Obligations.OutputsOnlyGrow : Prop :=
  ∀ (i : Instr) (s t : State), exec i s = .next t →
    (∃ es : List Event, t.trace = s.trace ++ es) ∧
    ∃ rs : List Result, rs.length ≤ 1 ∧ t.results = s.results ++ rs

/-- spec/10_state.md R44: only INIT and the registration of a slot change that slot. Rests on decision D26. -/
def Obligations.CallbacksChangeOnlyByRegistration : Prop :=
  ∀ (i : Instr) (s t : State), exec i s = .next t → i ≠ .init →
    ((∀ h, i ≠ .setrcb h) → t.respCb = s.respCb) ∧ ((∀ h, i ≠ .setecb h) → t.errCb = s.errCb)

/-- spec/30_encoding.md R125 and spec/10_state.md R45: only SEND, TASK, INIT and RESET write `last_error`; no
operation reports `NakReceived` or `Ok`. Rests on decisions D22 and D28. -/
def Obligations.ErrorsReportedAreReal : Prop :=
  ∀ (i : Instr) (s t : State), exec i s = .next t →
    (t.lastError ≠ s.lastError →
      i = .task ∨ i = .init ∨ i = .reset ∨ ∃ a c d, i = .send a c d) ∧
    (s.lastError ≠ .nakReceived → t.lastError ≠ .nakReceived) ∧
    ∃ es : List Event, t.trace = s.trace ++ es ∧
      ∀ h : Byte, Event.err h .nakReceived ∉ es ∧ Event.err h .ok ∉ es

/-- "Written: the result port only" (spec/40_frame_builder.md R141, R142; spec/43_version_detector.md R252 to R258;
spec/44_field_decoder.md R285 to R306): BUILD, XOR8, VALIDATE, CKSUM, DETECT, BCD4, DIAM, BATT, STATUS of a revision 1
to 4, UDF, DECODE and SUM8 complete in every state, before INIT too, with a result that depends on their operands
alone. Rests on decision D2; that they run before INIT is the model's reading (notes/assumptions/18.md). -/
def Obligations.FunctionsWriteOnlyResultPort : Prop :=
  ∀ i : Instr, isHostOp i = false → i ≠ .tick → (∀ b, i ≠ .rxpush b) → (∀ b, i ≠ .asmbyte b) →
    (∀ r s v, i = .status r s v → 1 ≤ r.toNat ∧ r.toNat ≤ 4) →
    ∃ res : Result, ∀ s : State, exec i s = .next (s.returned res)

/-- spec/42_protocol_engine.md R240: as long as no TASK runs (and no INIT or RESET), an engine that waits goes on
waiting: no byte is consumed, no record is delivered, the deadline stays, and the only events are rejected SENDs.
Rests on decisions D8 and D23. -/
def Obligations.WaitingLastsUntilTask : Prop :=
  ∀ (i : Instr) (s t : State), s.initialised = true → s.engState = .waitingForResponse → exec i s = .next t →
    i ≠ .task → i ≠ .init → i ≠ .reset →
    t.engState = .waitingForResponse ∧ t.deadline = s.deadline ∧ t.retryCount = s.retryCount ∧
    (∃ bs : List Byte, t.rxFifo = s.rxFifo ++ bs) ∧
    ∃ es : List Event, t.trace = s.trace ++ es ∧ ∀ e ∈ es, ∃ h, e = .err h .invalidParam

/-- spec/10_state.md R35, R37: no output depends on the two cursors. Two states that differ in them alone end alike,
but for the cursors. Rests on decision D42. -/
def Obligations.CursorsAffectNoOutput : Prop :=
  ∀ (i : Instr) (s : State) (m n : Nat),
    match exec i s, exec i { s with txCursor := m, rxCursor := n } with
    | .next t, .next u => { u with txCursor := t.txCursor, rxCursor := t.rxCursor } = t
    | .fault f, .fault g => f = g
    | .refused _, .refused _ => True
    | _, _ => False

/-! ## Host operations -/

/-- spec/60_exceptions.md R334: every host operation but INIT is refused before INIT, with `NotInitialised`. Rests on
decision D27. -/
def Obligations.HostOperationsNeedInit : Prop :=
  ∀ (i : Instr) (s : State), isHostOp i = true → i ≠ .init → s.opActive = false → s.initialised = false →
    exec i s = .fault .notInitialised

/-- spec/60_exceptions.md R336: a host operation invoked during another is refused with `Reentrant`. The flag that
says so is the model's own (notes/assumptions/14.md). Rests on decision D24. -/
def Obligations.HostOperationsDoNotNest : Prop :=
  ∀ (i : Instr) (s : State), isHostOp i = true → s.opActive = true → exec i s = .fault .reentrant

/-- spec/42_protocol_engine.md R201, R208 with the table of spec/10_state.md R60: what INIT and RESET leave. Nothing
is said of `rx_buf`, which the table leaves unspecified. Rests on decisions D26 and D27. -/
def Obligations.InitAndResetGiveInitialValues : Prop :=
  ∀ (i : Instr) (s : State), (i = .init ∧ s.opActive = false) ∨ (i = .reset ∧ s.Ready) →
    ∃ t, exec i s = .next t ∧
      t.engState = .idle ∧ t.asmState = .waitingForStart ∧ t.rxCount = 0 ∧ t.rxCursor = 0 ∧
      (∀ k, t.txBuf.read k = 0) ∧ t.txLen = 0 ∧ t.txCursor = 0 ∧ t.retryCount = 0 ∧ t.deadline = 0 ∧
      t.lastError = .ok ∧ t.rxIntEn = true ∧ t.initialised = true ∧ t.rxFifo = [] ∧
      t.tick = s.tick ∧ t.trace = s.trace ∧ t.results = s.results ∧ t.stream = s.stream ∧
      t.pc = s.pc + 1 ∧ t.opActive = false ∧
      (i = .init → t.respCb = none ∧ t.errCb = none) ∧
      (i = .reset → t.respCb = s.respCb ∧ t.errCb = s.errCb)

/-- spec/42_protocol_engine.md R204, R205: a registration replaces its slot, 0 empties it, in every engine state;
nothing else is written. Rests on decision D27. -/
def Obligations.RegistrationReplacesSlot : Prop :=
  ∀ (h : Byte) (s : State), s.Ready →
    exec (.setrcb h) s = .next { s with respCb := if h = 0 then none else some h, pc := s.pc + 1 } ∧
    exec (.setecb h) s = .next { s with errCb := if h = 0 then none else some h, pc := s.pc + 1 }

/-- spec/42_protocol_engine.md R206, R207 with the codes of spec/10_state.md R32 and spec/60_exceptions.md R320:
GETSTATE and GETERR return a code and write the result port only; between operations GETSTATE returns 0 or 3. Rests on
decisions D20, D22, D27 and D32. -/
def Obligations.ReadsReturnCodes : Prop :=
  ∀ s : State, s.Ready →
    (∃ n : BitVec 3, exec .getstate s = .next (s.returned (.code n)) ∧
      (n = 0 ↔ s.engState = .idle) ∧ (n = 1 ↔ s.engState = .preamble) ∧ (n = 2 ↔ s.engState = .transmitting) ∧
      (n = 3 ↔ s.engState = .waitingForResponse) ∧ (n = 4 ↔ s.engState = .complete) ∧
      (n = 5 ↔ s.engState = .error) ∧ (s.Inv → n = 0 ∨ n = 3)) ∧
    ∃ m : BitVec 3, exec .geterr s = .next (s.returned (.code m)) ∧
      (m = 0 ↔ s.lastError = .ok) ∧ (m = 1 ↔ s.lastError = .timeout) ∧ (m = 2 ↔ s.lastError = .checksumMismatch) ∧
      (m = 3 ↔ s.lastError = .invalidFrame) ∧ (m = 4 ↔ s.lastError = .nakReceived) ∧
      (m = 5 ↔ s.lastError = .bufferOverflow) ∧ (m = 6 ↔ s.lastError = .invalidParam)

/-- spec/42_protocol_engine.md R203, R220 to R223: an accepted SEND stores the frame, resets the receive side, emits
PREAMBLE and TX, returns `Ok` and waits; the address affects nothing. The delay is a free value: some δ. Rests on
decisions D7, D11, D12 and D37; that the delay is free is notes/assumptions/4.md; that the receive buffer keeps its
bytes is the model's choice (notes/assumptions/24.md). -/
def Obligations.AcceptedSendStartsExchange : Prop :=
  ∀ (a c : Byte) (d : List Byte) (s : State), s.Ready → s.engState = .idle → s.txBuf.wf = true →
    d.length ≤ Config.params.maxFrame - 4 →
    ∃ (x : Byte) (δ : Word32) (buf : Memory) (frame : List Byte),
      frame = 0x10 :: c :: BitVec.ofNat 8 d.length :: (d ++ [x]) ∧ xor8 frame = 0 ∧
      (∀ k, buf.read k = if k < 4 + d.length then frame.getD k 0 else s.txBuf.read k) ∧
      exec (.send a c d) s = .next
        { s with
          engState := .waitingForResponse
          txBuf := buf
          txLen := 4 + d.length
          txCursor := 4 + d.length
          retryCount := 0
          rxFifo := []
          asmState := .waitingForStart
          rxCount := 0
          rxCursor := 0
          rxIntEn := true
          tick := s.tick + δ
          deadline := s.tick + δ + BitVec.ofNat 32 Config.params.timeoutMs
          trace := s.trace ++ [.preamble Config.params.preambleMs, .tx frame]
          results := s.results ++ [.code 0]
          draws := s.draws + 1
          pc := s.pc + 1 }

/-- spec/42_protocol_engine.md R202: a SEND while not idle, or with a payload over the bound, reports and returns
`InvalidParam` and changes nothing else. Rests on decision D23. -/
def Obligations.RejectedSendChangesNothing : Prop :=
  ∀ (a c : Byte) (d : List Byte) (s : State), s.Ready →
    (s.engState ≠ .idle ∨ Config.params.maxFrame - 4 < d.length) →
    exec (.send a c d) s = .next
      { s with
        lastError := .invalidParam
        trace := s.trace ++ errEvents s.errCb .invalidParam
        results := s.results ++ [.code 6]
        pc := s.pc + 1 }

/-! ## TASK -/

/-- spec/10_state.md R43: the tick comparison. It holds exactly in the half of the 32-bit circle from the deadline on,
so a deadline armed at `t` is elapsed at `t + TIMEOUT_MS` and for `2^31 - 1` ticks more, and not before. Rests on
decision D6; how long a deadline stays elapsed follows R43 against R369, the model's choice (notes/assumptions/25.md).
-/
def Obligations.ElapsedIsWrapAware : Prop :=
  (∀ now dl : Word32, elapsed now dl = true ↔ (now.toNat + 2 ^ 32 - dl.toNat) % 2 ^ 32 < 2 ^ 31) ∧
  ∀ (t : Word32) (k : Nat), k < 2 ^ 32 →
    (elapsed (t + BitVec.ofNat 32 k) (t + BitVec.ofNat 32 Config.params.timeoutMs) = true ↔
      Config.params.timeoutMs ≤ k ∧ k < Config.params.timeoutMs + 2 ^ 31)

/-- spec/42_protocol_engine.md R200: with an empty FIFO and no elapsed deadline TASK changes nothing but `pc`. Rests
on decisions D6 and D10; how long a deadline stays elapsed follows R43 against R369, the model's choice
(notes/assumptions/25.md). -/
def Obligations.QuietTaskChangesNothing : Prop :=
  ∀ s : State, s.Ready → s.rxFifo = [] →
    ¬ (s.engState = .waitingForResponse ∧ (s.tick - s.deadline).toNat < 2 ^ 31) →
    exec .task s = .next { s with pc := s.pc + 1 }

/-- spec/42_protocol_engine.md R231, R232, R234 and R220 to R223, spec/60_exceptions.md R329 item 4,
spec/70_reset_and_hazards.md R367: a TASK that drains nothing, or bytes that finish no frame and overflow nothing, and
then finds the deadline elapsed with retries left, reports `Timeout` and sends the stored frame again, unchanged; a
partial frame is discarded. The delay is a free value: some δ. Rests on decisions D6, D7, D9 and D11; that the delay
is free is notes/assumptions/4.md; that the receive buffer keeps its bytes is the model's choice
(notes/assumptions/24.md); how long a deadline stays elapsed follows R43 against R369, the model's choice
(notes/assumptions/25.md). -/
def Obligations.TimeoutRetransmits : Prop :=
  ∀ (s : State) (n : Nat) (noise rest : List Byte), s.Ready → s.engState = .waitingForResponse →
    s.rxFifo = noise ++ rest → s.rxFifo = [] ∨ s.Unfinished Config.params n noise rest →
    (rest ≠ [] → s.rxBuf.wf = true) →
    (s.tick - s.deadline).toNat < 2 ^ 31 → s.retryCount.toNat < 3 → s.txLen ≤ Config.params.maxFrame →
    ∃ (δ : Word32) (buf : Memory), storedFrom s.rxBuf buf n rest ∧
      exec .task s = .next
        { s with
          lastError := .timeout
          trace := s.trace ++ errEvents s.errCb .timeout ++
            [.preamble Config.params.preambleMs, .tx (s.txBuf.readBytes s.txLen)]
          retryCount := s.retryCount + 1
          txCursor := s.txLen
          rxFifo := []
          rxBuf := buf
          asmState := .waitingForStart
          rxCount := 0
          rxCursor := 0
          rxIntEn := true
          tick := s.tick + δ
          deadline := s.tick + δ + BitVec.ofNat 32 Config.params.timeoutMs
          draws := s.draws + 1
          pc := s.pc + 1 }

/-- spec/42_protocol_engine.md R231, R232, R235, R236, spec/60_exceptions.md R329 item 4: with no retry left, the
deadline that a TASK finds elapsed after it drained nothing, or bytes that finish no frame and overflow nothing,
abandons the exchange: `Timeout` is reported, nothing is sent, the engine is idle with its retry counter cleared; a
partial frame stays in the assembler. Rests on decisions D6, D9 and D21; that bytes of the buffer not stored keep
their values is the model's choice (notes/assumptions/24.md); how long a deadline stays elapsed follows R43 against
R369, the model's choice (notes/assumptions/25.md). -/
def Obligations.LastTimeoutAbandons : Prop :=
  ∀ (s : State) (n : Nat) (noise rest : List Byte), s.Ready → s.engState = .waitingForResponse →
    s.rxFifo = noise ++ rest → s.rxFifo = [] ∨ s.Unfinished Config.params n noise rest →
    (rest ≠ [] → s.rxBuf.wf = true) →
    (s.tick - s.deadline).toNat < 2 ^ 31 → 3 ≤ s.retryCount.toNat →
    ∃ buf : Memory, storedFrom s.rxBuf buf n rest ∧
      exec .task s = .next
        { s with
          lastError := .timeout
          trace := s.trace ++ errEvents s.errCb .timeout
          engState := .idle
          retryCount := 0
          rxFifo := []
          rxBuf := buf
          asmState := if rest = [] then s.asmState else .collecting
          rxCount := if rest = [] then s.rxCount else n + rest.length
          rxCursor :=
            if s.rxFifo = [] then s.rxCursor else if rest = [] then s.rxCount else n + rest.length
          pc := s.pc + 1 }

/-- spec/42_protocol_engine.md R200, R230, spec/60_exceptions.md R332: in every state that meets the invariant TASK
completes, it leaves the FIFO empty, and what R200 does not list as written keeps its value: the command frame, the
callback slots, `initialised`, the result port. Rests on the spec's own derivation of R332 and on decision D9. -/
def Obligations.TaskCompletesAndDrains : Prop :=
  ∀ s : State, s.Inv → s.initialised = true →
    ∃ t, exec .task s = .next t ∧ t.rxFifo = [] ∧ (∀ k, t.txBuf.read k = s.txBuf.read k) ∧ t.txLen = s.txLen ∧
      t.respCb = s.respCb ∧ t.errCb = s.errCb ∧ t.initialised = true ∧ t.results = s.results ∧
      t.stream = s.stream ∧ t.pc = s.pc + 1 ∧ t.opActive = false

/-- spec/41_receive_assembler.md R160 to R167, spec/42_protocol_engine.md R200, R230, R231, R237, R239 and
spec/60_exceptions.md R329: a TASK that drains the bytes of a frame up to its end sentinel, from the frame's first
byte (after bytes without a start sentinel) or from where earlier TASKs left it, handles the frame: an unclassified
one is reported `InvalidFrame` with no record; a classified one is delivered as its record, after a `ChecksumMismatch`
where its checksum is wrong; an outstanding exchange ends, with no timeout, whatever its deadline. Rests on decisions
D9, D16 to D19 and D21; that bytes of the buffer not stored keep their values is the model's choice
(notes/assumptions/24.md). -/
def Obligations.WholeFrameIsHandled : Prop :=
  ∀ (s : State) (n : Nat) (noise rest f : List Byte), s.Ready →
    s.engState = .idle ∨ s.engState = .waitingForResponse → s.rxBuf.wf = true →
    s.rxFifo = noise ++ rest ++ [0x16] → s.Unfinished Config.params n noise rest →
    f = s.rxBuf.readBytes n ++ rest ++ [0x16] → 7 ≤ f.length → f.length ≤ Config.params.maxFrame →
    ∃ (buf : Memory) (e : ErrorCode) (es : List Event),
      (∀ k, buf.read k = if k < f.length then f.getD k 0 else s.rxBuf.read k) ∧
      (match detect Config.params f with
        | none => e = .invalidFrame ∧ es = errEvents s.errCb .invalidFrame
        | some rev =>
          if checksumValid f = true then
            e = s.lastError ∧ es = respEvents s.respCb (decodeRecord Config.params f rev true)
          else
            e = .checksumMismatch ∧
              es = errEvents s.errCb .checksumMismatch ++
                respEvents s.respCb (decodeRecord Config.params f rev false)) ∧
      exec .task s = .next
        { s with
          engState := .idle
          retryCount := if s.engState = .waitingForResponse then 0 else s.retryCount
          lastError := e
          trace := s.trace ++ es
          rxFifo := []
          rxBuf := buf
          asmState := .waitingForStart
          rxCount := 0
          rxCursor := 0
          pc := s.pc + 1 }

/-- spec/42_protocol_engine.md R238, R231, spec/41_receive_assembler.md R163: a byte that finds the buffer full,
filled by earlier TASKs or by the bytes before it in this one, is lost; TASK reports `BufferOverflow` and ends an
outstanding exchange without retry, whatever its deadline. Rests on decisions D13, D14 and D21; that bytes of the
buffer not stored keep their values is the model's choice (notes/assumptions/24.md). -/
def Obligations.OverflowEndsExchange : Prop :=
  ∀ (s : State) (n : Nat) (noise rest : List Byte) (b : Byte), s.Ready →
    s.engState = .idle ∨ s.engState = .waitingForResponse → (rest ≠ [] → s.rxBuf.wf = true) →
    s.rxFifo = noise ++ rest ++ [b] → s.Unfinished Config.params n noise rest →
    n + rest.length = Config.params.maxFrame →
    ∃ buf : Memory, storedFrom s.rxBuf buf n rest ∧
      exec .task s = .next
        { s with
          engState := .idle
          retryCount := if s.engState = .waitingForResponse then 0 else s.retryCount
          lastError := .bufferOverflow
          trace := s.trace ++ errEvents s.errCb .bufferOverflow
          rxFifo := []
          rxBuf := buf
          asmState := .waitingForStart
          rxCount := 0
          rxCursor := 0
          pc := s.pc + 1 }

/-- spec/41_receive_assembler.md R170, spec/20_memory.md R80, spec/42_protocol_engine.md R231: received bytes drained
by two TASKs leave what one TASK over all of them leaves, but for `pc`, where the first TASK takes no timeout: no
exchange is outstanding, or its deadline is not elapsed, or the first bytes finish a frame or overflow the buffer,
which ends it. Rests on the spec's own derivations of R170 and R80 and on decisions D6 and D9; that bytes of the
buffer not stored keep their values is the model's choice (notes/assumptions/24.md); how long a deadline stays elapsed
follows R43 against R369, the model's choice (notes/assumptions/25.md). -/
def Obligations.FragmentationMakesNoDifference : Prop :=
  ∀ (s t u : State) (xs ys : List Byte), s.Ready →
    ¬ (s.engState = .waitingForResponse ∧ (s.tick - s.deadline).toNat < 2 ^ 31 ∧
      (xs = [] ∨ ∃ n noise rest, xs = noise ++ rest ∧ s.Unfinished Config.params n noise rest)) →
    exec .task { s with rxFifo := xs } = .next t → exec .task { t with rxFifo := ys } = .next u →
    exec .task { s with rxFifo := xs ++ ys } = .next { u with pc := s.pc + 1 }

/-- spec/41_receive_assembler.md R160 to R166, spec/42_protocol_engine.md R230, R231: with no elapsed deadline, a TASK
over bytes that finish no frame and overflow nothing only steps the assembler. Bytes without a start sentinel are
discarded while it waits for one; bytes that begin or continue a frame are stored from the count on, and it collects.
Rests on decisions D6 and D9; that bytes of the buffer not stored keep their values is the model's choice
(notes/assumptions/24.md); how long a deadline stays elapsed follows R43 against R369, the model's choice
(notes/assumptions/25.md). -/
def Obligations.UnfinishedBytesAreStored : Prop :=
  ∀ (s : State) (n : Nat) (noise rest : List Byte), s.Ready →
    s.rxFifo = noise ++ rest → s.rxFifo ≠ [] → s.Unfinished Config.params n noise rest →
    (rest ≠ [] → s.rxBuf.wf = true) →
    ¬ (s.engState = .waitingForResponse ∧ (s.tick - s.deadline).toNat < 2 ^ 31) →
    ∃ buf : Memory, storedFrom s.rxBuf buf n rest ∧
      exec .task s = .next
        { s with
          rxFifo := []
          rxBuf := buf
          asmState := if rest = [] then s.asmState else .collecting
          rxCount := if rest = [] then s.rxCount else n + rest.length
          rxCursor := if rest = [] then s.rxCount else n + rest.length
          pc := s.pc + 1 }

/-- spec/42_protocol_engine.md R233 (conflict C2): an exchange that is never answered makes four transmissions of the
same frame and reports four timeouts, and is idle after the fourth; `τ` is the tick at each TASK. Rests on the spec's
own derivation of R233 and on decisions D6 and D34; how long a deadline stays elapsed follows R43 against R369, the
model's choice (notes/assumptions/25.md). -/
def Obligations.UnansweredExchangeSendsFourTimes : Prop :=
  ∀ (a c : Byte) (d : List Byte) (s0 s1 s2 s3 s4 s5 : State) (τ1 τ2 τ3 τ4 : Word32),
    s0.Ready → s0.engState = .idle → s0.txBuf.wf = true → d.length ≤ Config.params.maxFrame - 4 →
    exec (.send a c d) s0 = .next s1 →
    (τ1 - s1.deadline).toNat < 2 ^ 31 → exec .task { s1 with tick := τ1 } = .next s2 →
    (τ2 - s2.deadline).toNat < 2 ^ 31 → exec .task { s2 with tick := τ2 } = .next s3 →
    (τ3 - s3.deadline).toNat < 2 ^ 31 → exec .task { s3 with tick := τ3 } = .next s4 →
    (τ4 - s4.deadline).toNat < 2 ^ 31 → exec .task { s4 with tick := τ4 } = .next s5 →
    ∃ frame : List Byte,
      s1.trace = s0.trace ++ [.preamble Config.params.preambleMs, .tx frame] ∧
      s2.trace = s1.trace ++ errEvents s0.errCb .timeout ++ [.preamble Config.params.preambleMs, .tx frame] ∧
      s3.trace = s2.trace ++ errEvents s0.errCb .timeout ++ [.preamble Config.params.preambleMs, .tx frame] ∧
      s4.trace = s3.trace ++ errEvents s0.errCb .timeout ++ [.preamble Config.params.preambleMs, .tx frame] ∧
      s5.trace = s4.trace ++ errEvents s0.errCb .timeout ∧
      s5.engState = .idle ∧ s5.retryCount = 0 ∧ s5.lastError = .timeout

/-! ## Environment events -/

/-- spec/42_protocol_engine.md R210, spec/60_exceptions.md R335: RXPUSH completes in every state and writes `rx_fifo`
alone. Before INIT the FIFO holds anything its bound admits: some q. Rests on decision D8; the free contents before
INIT are notes/assumptions/5.md. -/
def Obligations.RxpushAppendsOrLoses : Prop :=
  ∀ (b : Byte) (s : State),
    (s.initialised = true → s.rxIntEn = true → s.rxFifo.length < Config.params.ringSize - 1 →
      exec (.rxpush b) s = .next { s with rxFifo := s.rxFifo ++ [b], pc := s.pc + 1 }) ∧
    (s.initialised = true → (s.rxIntEn = false ∨ Config.params.ringSize - 1 ≤ s.rxFifo.length) →
      exec (.rxpush b) s = .next { s with pc := s.pc + 1 }) ∧
    (s.initialised = false → ∃ q : List Byte, q.length ≤ Config.params.ringSize - 1 ∧
      exec (.rxpush b) s = .next { s with rxFifo := q, draws := s.draws + 1, pc := s.pc + 1 })

/-- spec/42_protocol_engine.md R209, spec/60_exceptions.md R335: TICK completes in every state, adds 1 to `tick` mod
2^32 and writes nothing else; it never looks at the deadline. Rests on decision D6. -/
def Obligations.TickCounts : Prop :=
  ∀ s : State, ∃ u : Word32, u.toNat = (s.tick.toNat + 1) % 2 ^ 32 ∧
    exec .tick s = .next { s with tick := u, pc := s.pc + 1 }

/-! ## Assembler -/

/-- spec/41_receive_assembler.md R160, R161: in `WaitingForStart` the start sentinel is stored at index 0 and starts a
frame; any other byte changes nothing (R168 sets `rx_cursor` to `rx_count`, which R37 says it always equals). Rests on
the assembler's rules and on one choice: that bytes of the buffer not stored keep their values is the model's choice
(notes/assumptions/24.md). -/
def Obligations.WaitingAssemblerFindsStart : Prop :=
  ∀ (b : Byte) (s : State), s.asmState = .waitingForStart → s.rxBuf.wf = true →
    (b ≠ 0x68 → exec (.asmbyte b) s =
      .next { s with rxCursor := s.rxCount, results := s.results ++ [.assembled .none], pc := s.pc + 1 } ∧
      (s.rxCursor = s.rxCount → exec (.asmbyte b) s = .next (s.returned (.assembled .none)))) ∧
    (b = 0x68 → ∃ buf : Memory, (∀ k, buf.read k = if k = 0 then 0x68 else s.rxBuf.read k) ∧
      exec (.asmbyte b) s = .next
        { s with
          rxBuf := buf
          rxCount := 1
          rxCursor := 1
          asmState := .collecting
          results := s.results ++ [.assembled .none]
          pc := s.pc + 1 })

/-- spec/41_receive_assembler.md R162, R164 to R167: in `Collecting` with room, every byte is stored at the count; an
end sentinel that is at least the seventh byte completes the frame, and any other byte leaves the assembler
collecting. Rests on the assembler's rules and on one choice: that bytes of the buffer not stored keep their values is
the model's choice (notes/assumptions/24.md). -/
def Obligations.CollectingAssemblerAppends : Prop :=
  ∀ (b : Byte) (s : State), s.asmState = .collecting → s.rxCount < Config.params.maxFrame → s.rxBuf.wf = true →
    ∃ buf : Memory, (∀ k, buf.read k = if k = s.rxCount then b else s.rxBuf.read k) ∧
      exec (.asmbyte b) s = .next
        (if b = 0x16 ∧ 7 ≤ s.rxCount + 1 then
          { s with
            rxBuf := buf
            rxCount := 0
            rxCursor := 0
            asmState := .waitingForStart
            results := s.results ++ [.assembled (.completed (s.rxBuf.readBytes s.rxCount ++ [b]))]
            pc := s.pc + 1 }
        else
          { s with
            rxBuf := buf
            rxCount := s.rxCount + 1
            rxCursor := s.rxCount + 1
            results := s.results ++ [.assembled .none]
            pc := s.pc + 1 })

/-- spec/41_receive_assembler.md R163: in `Collecting` with a full buffer any byte overflows, the end sentinel and the
start sentinel included, and is discarded. Rests on decisions D13 and D14; that bytes of the buffer not stored keep
their values is the model's choice (notes/assumptions/24.md). -/
def Obligations.FullBufferOverflows : Prop :=
  ∀ (b : Byte) (s : State), s.asmState = .collecting → s.rxCount = Config.params.maxFrame →
    exec (.asmbyte b) s = .next
      { s with
        rxCount := 0
        rxCursor := 0
        asmState := .waitingForStart
        results := s.results ++ [.assembled .overflow]
        pc := s.pc + 1 }

/-- spec/41_receive_assembler.md R172: every frame the assembler completes has 7 to `MAX_FRAME` bytes, the first the
start sentinel and the last the end sentinel: a frame any assembler step completes, so one that ASMBYTE returns, and
the frame of every record that a TASK delivers. Rests on the spec's own derivation of R172. -/
def Obligations.CompletedFrameShape : Prop :=
  (∀ (b : Byte) (s t : State) (f : List Byte), s.AssemblerStable Config.params → s.rxBuf.wf = true →
    (asmStep Config.params b s = .next (.completed f, t) ∨
      (exec (.asmbyte b) s = .next t ∧ t.results = s.results ++ [.assembled (.completed f)])) →
    7 ≤ f.length ∧ f.length ≤ Config.params.maxFrame ∧ f.getD 0 0 = 0x68 ∧ f.getD (f.length - 1) 0 = 0x16) ∧
  ∀ (s t : State) (es : List Event) (h : Byte) (r : Record), s.Inv → exec .task s = .next t →
    t.trace = s.trace ++ es → .resp h r ∈ es →
    7 ≤ r.frame.length ∧ r.frame.length ≤ Config.params.maxFrame ∧ r.frameLen = r.frame.length ∧
    r.frame.getD 0 0 = 0x68 ∧ r.frame.getD (r.frame.length - 1) 0 = 0x16

/-- spec/41_receive_assembler.md R171: the start sentinel and then `MAX_FRAME - 1` bytes with no end sentinel at a
count of 7 or more fill the buffer, and whatever byte comes next overflows. Rests on the spec's own derivation of R171
and on decision D13. -/
def Obligations.OverlongFrameOverflows : Prop :=
  ∀ (s : State) (bs : List Byte), s.asmState = .waitingForStart → s.rxBuf.wf = true →
    bs.length = Config.params.maxFrame - 1 → (∀ k, bs.getD k 0 = 0x16 → k + 2 < 7) →
    ∃ u, feed (0x68 :: bs) s = .next u ∧ u.asmState = .collecting ∧ u.rxCount = Config.params.maxFrame ∧
      ∀ b : Byte, ∃ v, exec (.asmbyte b) u = .next v ∧
        v.results = u.results ++ [.assembled .overflow] ∧ v.asmState = .waitingForStart ∧ v.rxCount = 0

/-! ## FrameBuilder -/

/-- spec/40_frame_builder.md R141: XOR8 computes the exclusive-or of its bytes: each bit of the result says whether an odd number of
bytes have it. So the empty sequence gives 0, a byte that occurs an even number of times cancels out, and the order of
the bytes does not matter. -/
def Obligations.Xor8IsParityPerBit : Prop :=
  ∀ (bs : List Byte) (s : State),
    (bs.length ≤ 65535 →
      decode (0x21 :: BitVec.ofNat 8 (bs.length % 256) :: BitVec.ofNat 8 (bs.length / 256) :: bs) = .op (.xor8 bs) []) ∧
    (∃ x : Byte, exec (.xor8 bs) s = .next (s.returned (.checksum x)) ∧
      ∀ k, k < 8 → (x.getLsbD k = true ↔ (bs.countP (fun b => b.getLsbD k)) % 2 = 1)) ∧
    exec (.xor8 [0x10, 0x5B, 0x01, 0x5C]) s = .next (s.returned (.checksum 0x16))

/-- spec/40_frame_builder.md R142, R143, R145: BUILD gives the frame of spec/30_encoding.md R100 for a payload inside
the bound, whose bytes all together have the exclusive-or 0; a longer payload gives `Err(InvalidParam)` and reports
nothing. Rests on decision D38 and on the spec's own derivation of R145. -/
def Obligations.BuildMakesCommandFrame : Prop :=
  ∀ (c : Byte) (d : List Byte) (s : State),
    (d.length ≤ Config.params.maxFrame - 4 →
      ∃ x : Byte,
        exec (.build c d) s = .next
          (s.returned (.built (some (0x10 :: c :: BitVec.ofNat 8 d.length :: (d ++ [x]))))) ∧
        xor8 (0x10 :: c :: BitVec.ofNat 8 d.length :: (d ++ [x])) = 0) ∧
    (Config.params.maxFrame - 4 < d.length → exec (.build c d) s = .next (s.returned (.built none)))

/-- spec/30_encoding.md R101: a command frame describes its own length, so inside a longer byte string it can be cut
off in one way only: two frames at the front of the same string are of the same command and payload. Rests on the
spec's own derivation of R101. -/
def Obligations.CommandFramesAreUnambiguous : Prop :=
  ∀ (c c' : Byte) (d d' f f' rest rest' : List Byte),
    buildFrame Config.params c d = some f → buildFrame Config.params c' d' = some f' →
    f ++ rest = f' ++ rest' → c = c' ∧ d = d' ∧ rest = rest'

/-! ## Validation, checksum, detection -/

/-- spec/43_version_detector.md R252: VALIDATE accepts exactly the sequences of the layout of spec/30_encoding.md R110
whose `L` is in the plausible range. Rests on decision D15. -/
def Obligations.ValidateAcceptsResponseLayout : Prop :=
  ∀ (f : List Byte) (s : State), ∃ b : Bool, exec (.validate f) s = .next (s.returned (.valid b)) ∧
    (b = true ↔ ∃ (l ck : Byte) (body : List Byte),
      f = [0x68, l, l, 0x68] ++ body ++ [ck, 0x16] ∧ body.length = l.toNat ∧
      Config.params.lMin ≤ l.toNat ∧ l.toNat ≤ Config.params.lMax)

/-- spec/43_version_detector.md R253: SUM8 computes the sum of its bytes mod 256, which no order of them changes. -/
def Obligations.Sum8IsSumMod256 : Prop :=
  ∀ (bs : List Byte) (s : State), ∃ x : Byte,
    exec (.sum8 bs) s = .next (s.returned (.checksum x)) ∧ x.toNat = (bs.map BitVec.toNat).sum % 256 ∧
    ∀ cs : List Byte, cs.Perm bs → exec (.sum8 cs) s = .next (s.returned (.checksum x))

/-- spec/43_version_detector.md R254: CKSUM is false of fewer than 6 bytes; of a longer sequence it says whether the byte before the last
is the sum mod 256 of the bytes from index 4 up to it. -/
def Obligations.CksumTestsSumFromIndexFour : Prop :=
  ∀ s : State,
    (∀ f : List Byte, f.length < 6 → exec (.cksum f) s = .next (s.returned (.checksumValid false))) ∧
    ∀ (head body : List Byte) (ck last : Byte), head.length = 4 →
      ∃ b : Bool, exec (.cksum (head ++ body ++ [ck, last])) s = .next (s.returned (.checksumValid b)) ∧
        (b = true ↔ ck.toNat = (body.map BitVec.toNat).sum % 256)

/-- spec/43_version_detector.md R254: changing any one byte of `C, A, CI, UserData` makes a true `checksum_valid` false. -/
def Obligations.OneByteChangeBreaksChecksum : Prop :=
  ∀ (f : List Byte) (k : Nat) (x : Byte), checksumValid f = true → 4 ≤ k → k + 2 < f.length →
    x ≠ f.getD k 0 → checksumValid (f.set k x) = false

/-- spec/43_version_detector.md R257: the revision is the first match of the four rules; a frame VALIDATE refuses has
code 0. Rests on the spec's own decision D32 (notes/assumptions/21.md): a frame VALIDATE refuses is R258's `Unknown`,
with the code of R250. -/
def Obligations.DetectTakesFirstMatch : Prop :=
  ∀ (f : List Byte) (s : State), ∃ n : BitVec 3, exec (.detect f) s = .next (s.returned (.code n)) ∧
    n =
      if validate Config.params f = false then 0
      else if (f.getD 1 0).toNat - 3 = 12 then 1
      else if f.getD (7 + 12) 0 = Config.params.tag2 then 2
      else if f.getD (7 + 12) 0 = Config.params.tag3 then 3
      else if f.getD (7 + 12) 0 = Config.params.tag4 then 4
      else if (f.getD (7 + 7) 0).getLsbD 7 = true ∨ (f.getD (7 + 7) 0).getLsbD 6 = true then 4
      else 2

/-- spec/43_version_detector.md R255: structural validation and classification do not depend on the checksum byte; changing one
UserData byte makes the checksum wrong and leaves the frame valid and classified. -/
def Obligations.ChecksumDoesNotClassify : Prop :=
  ∀ (f : List Byte) (x : Byte),
    validate Config.params (f.set (f.length - 2) x) = validate Config.params f ∧
    detect Config.params (f.set (f.length - 2) x) = detect Config.params f ∧
    ∀ k, validate Config.params f = true → 7 ≤ k → k + 2 < f.length →
      validate Config.params (f.set k x) = true ∧ detect Config.params (f.set k x) ≠ none ∧
      (checksumValid f = true → x ≠ f.getD k 0 → checksumValid (f.set k x) = false)

/-- spec/43_version_detector.md R261: structural validation and classification do not depend on the marker byte, which
the record's `marker_valid` reports. Rests on decision D16. -/
def Obligations.MarkerDoesNotClassify : Prop :=
  ∀ (f : List Byte) (x : Byte),
    validate Config.params (f.set 7 x) = validate Config.params f ∧
    detect Config.params (f.set 7 x) = detect Config.params f ∧
    (∀ rev, detect Config.params f = some rev → ∃ r, decodeFrame Config.params (f.set 7 x) = some r ∧
      (r.markerValid = true ↔ x = Config.params.mdh))

/-! ## FieldDecoder -/

/-- spec/44_field_decoder.md R285: BCD4 reads four bytes, the first the least significant pair of digits; any nibble above 9 makes the
result 0; the result never exceeds 99 999 999. -/
def Obligations.Bcd4ReadsDigits : Prop :=
  ∀ (b0 b1 b2 b3 : Byte) (s : State),
    decode [0x26, b0, b1, b2, b3] = .op (.bcd4 b0 b1 b2 b3) [] ∧
    (∃ n : Word32, exec (.bcd4 b0 b1 b2 b3) s = .next (s.returned (.number n)) ∧ n.toNat ≤ 99999999 ∧
      ((∀ b ∈ [b0, b1, b2, b3], b.toNat / 16 ≤ 9 ∧ b.toNat % 16 ≤ 9) →
        n.toNat = (b0.toNat / 16 * 10 + b0.toNat % 16) + 100 * (b1.toNat / 16 * 10 + b1.toNat % 16) +
          10000 * (b2.toNat / 16 * 10 + b2.toNat % 16) + 1000000 * (b3.toNat / 16 * 10 + b3.toNat % 16)) ∧
      ((∃ b ∈ [b0, b1, b2, b3], 9 < b.toNat / 16 ∨ 9 < b.toNat % 16) → n = 0)) ∧
    exec (.bcd4 0x78 0x56 0x34 0x12) s = .next (s.returned (.number 12345678))

/-- spec/44_field_decoder.md R291, R292: DIAM looks the upper nibble up in the table; the lower nibble does not matter. -/
def Obligations.DiamLooksUpUpperNibble : Prop :=
  ∀ (b : Byte) (s : State),
    decode [0x27, b] = .op (.diam b) [] ∧
    exec (.diam b) s = .next (s.returned (.diameter
      (([0, 15, 20, 25, 32, 40, 50, 80, 100, 150, 200, 250, 300, 0, 0, 0] : List Word16).getD (b.toNat / 16) 0))) ∧
    exec (.diam 0x1C) s = .next (s.returned (.diameter 15))

/-- spec/44_field_decoder.md R294 (decision D51 for the upper bits): BATT gives 37 less the low five bits, always 6 to 37. -/
def Obligations.BattSubtractsCode : Prop :=
  ∀ (c : Byte) (s : State), ∃ v : Byte, exec (.batt c) s = .next (s.returned (.decivolts v)) ∧
    v.toNat = 37 - c.toNat % 32 ∧ 6 ≤ v.toNat ∧ v.toNat ≤ 37

/-- spec/44_field_decoder.md R297, spec/60_exceptions.md R333: STATUS of a revision 1 to 4 gives the shared flags, and
low-battery, voltage, magnet and freeze in the revisions that have them; a string with any other revision code is
refused at decoding with `BadOperand`, whatever bytes follow. Rests on decision D2; that the meaning refuses a term no
string decodes to is the model's choice (notes/assumptions/17.md). -/
def Obligations.StatusDecodesPerRevision : Prop :=
  ∀ (r sb v : Byte) (s : State),
    (1 ≤ r.toNat → r.toNat ≤ 4 → decode [0x29, r, sb, v] = .op (.status r sb v) [] ∧
      ∃ f : StatusFields, exec (.status r sb v) s = .next (s.returned (.status f)) ∧
      f.flowExceeded = sb.getLsbD Config.params.bitFlow.val ∧
      f.reverseFlow = sb.getLsbD Config.params.bitReverse.val ∧
      f.indoorLeak = sb.getLsbD Config.params.bitLeak.val ∧
      (if r.toNat ≤ 2 then
        f.lowBattery = some (sb.getLsbD Config.params.bitLowBatt.val) ∧ f.batteryDecivolts = none
      else f.lowBattery = none ∧
        ∃ dv : Byte, f.batteryDecivolts = some dv ∧
          dv.toNat = 37 -
            ((sb.getLsbD Config.params.voltBits[0].val).toNat * 16 +
              (sb.getLsbD Config.params.voltBits[1].val).toNat * 8 +
              (sb.getLsbD Config.params.voltBits[2].val).toNat * 4 +
              (sb.getLsbD Config.params.voltBits[3].val).toNat * 2 +
              (sb.getLsbD Config.params.voltBits[4].val).toNat)) ∧
      (if r.toNat = 4 then
        f.magnetDetected = some (v.getLsbD Config.params.bitMagnet.val) ∧
        f.freezeWarning = some (v.getLsbD Config.params.bitFreeze.val)
      else f.magnetDetected = none ∧ f.freezeWarning = none)) ∧
    (r.toNat = 0 ∨ 5 ≤ r.toNat → exec (.status r sb v) s = .fault .badOperand ∧
      ∀ rest : List Byte, decode (0x29 :: r :: sb :: v :: rest) = .bad .badOperand ∧
        (s.stream[s.pc]? = some (0x29 :: r :: sb :: v :: rest) → step s = .fault .badOperand)) ∧
    statusFields Params.reference .v13 0x84 0x13 =
      { flowExceeded := false, reverseFlow := false, indoorLeak := true, lowBattery := none,
        batteryDecivolts := some 21, magnetDetected := none, freezeWarning := none }

/-- spec/44_field_decoder.md R298: in revisions 3 and 4 the three flags and the voltage code use all eight status
bits, so two status bytes with the same decoded fields are the same byte. Rests on the spec's own derivation of R298.
-/
def Obligations.StatusByteIsFullyUsed : Prop :=
  ∀ (rev : Revision) (a b v : Byte), rev = .v13 ∨ rev = .v14 →
    statusFields Config.params rev a v = statusFields Config.params rev b v → a = b

/-- spec/44_field_decoder.md R303, R304: UDF gives nothing of fewer than 16 bytes, and otherwise the tag, the month
and the big-endian manufacturer code. Rests on decisions D29 and D41. -/
def Obligations.UdfReadsTrailer : Prop :=
  ∀ (u : List Byte) (s : State),
    (u.length < 16 → exec (.udf u) s = .next (s.returned (.trailer none))) ∧
    (16 ≤ u.length → ∃ m : Word16, m.toNat = (u.getD 14 0).toNat * 256 + (u.getD 15 0).toNat ∧
      exec (.udf u) s = .next (s.returned (.trailer (some
        { tag := u.getD 12 0, verificationMonth := u.getD 13 0, manufacturer := m }))))

/-- spec/44_field_decoder.md R288, R289, R290, R300, R305, R306: DECODE of a classified frame gives the record of its
fields, the identifier and the reading by BCD4, the decimal point raw, no trailer in revision 1; of any other sequence
`Unknown`. Rests on decisions D16 and D33. -/
def Obligations.DecodeGivesRecord : Prop :=
  ∀ (f : List Byte) (s : State),
    (detect Config.params f = none → exec (.decode f) s = .next (s.returned (.record none))) ∧
    ∀ rev, detect Config.params f = some rev →
      ∃ r : Record, exec (.decode f) s = .next (s.returned (.record (some r))) ∧
        r.revision = rev ∧ r.checksumValid = checksumValid f ∧
        (r.markerValid = true ↔ f.getD 7 0 = Config.params.mdh) ∧
        r.c = f.getD 4 0 ∧ r.a = f.getD 5 0 ∧ r.ci = f.getD 6 0 ∧
        r.meterId = bcd4 (f.getD 8 0) (f.getD 9 0) (f.getD 10 0) (f.getD 11 0) ∧
        r.statusRaw = f.getD 12 0 ∧
        r.status = statusFields Config.params rev (f.getD 12 0) (f.getD 14 0) ∧
        r.diameterMm = diam (f.getD 13 0) ∧
        r.decimalPoint.toNat = (f.getD 14 0).toNat % 16 ∧
        r.reading = bcd4 (f.getD 15 0) (f.getD 16 0) (f.getD 17 0) (f.getD 18 0) ∧
        r.udf = (if rev = .v11 then none else udfTrailer ((f.drop 7).take (f.length - 9))) ∧
        r.frame = f ∧ r.frameLen = f.length
end

