-- ==== Sys2Proof/Laws/Config.lean ====
section
/-! SUPPORT. What is known of the machine's parameters: spec/00_scope.md R11's constraints, and no more. -/

namespace Sys2Proof

/-- The reference configuration of spec/92_eei_decisions.md D5 meets the constraints. -/
theorem reference_legal : Params.reference.Legal := by decide

/-- The machine's parameters meet the constraints. -/
theorem params_legal : Config.params.Legal := by
  unfold Config.params
  split_ifs with h
  · exact h
  · exact reference_legal

/-- `21 <= MAX_FRAME`. -/
theorem maxFrame_ge : 21 ≤ Config.params.maxFrame := params_legal.1.1

/-- `MAX_FRAME <= 259`. -/
theorem maxFrame_le : Config.params.maxFrame ≤ 259 := params_legal.1.2.1

/-- `15 <= L_MIN`. -/
theorem lMin_ge : 15 ≤ Config.params.lMin := params_legal.1.2.2.1

/-- `L_MAX <= 255` and `L_MAX <= MAX_FRAME - 6`. -/
theorem lMax_le : Config.params.lMax ≤ min 255 (Config.params.maxFrame - 6) := params_legal.1.2.2.2.2

/-- `2 <= RING_SIZE`. -/
theorem ringSize_ge : 2 ≤ Config.params.ringSize := params_legal.2.2.2.1.1

end Sys2Proof
end

