-- ==== Sys2Proof/Laws/Memory.lean ====
section
/-! SUPPORT. The laws of the byte stores: read after write, and that every memory operation keeps the canonical form. -/

namespace Sys2Proof.Machine

@[simp] theorem Memory.read_nil (a : Nat) : Memory.read [] a = 0 := rfl

theorem Memory.read_cons (k : Nat) (v : Byte) (m : Memory) (a : Nat) :
    Memory.read ((k, v) :: m) a = if a = k then v else Memory.read m a := rfl

/-- The canonical form, cell by cell. -/
theorem Memory.wf_iff (m : Memory) :
    m.wf = true ↔ m.Pairwise (fun x y => x.1 < y.1) ∧ ∀ c ∈ m, c.2 ≠ 0 := by
  simp [Memory.wf]

@[simp] theorem Memory.wf_nil : Memory.wf [] = true := rfl

/-- What the canonical form says of a first cell and the rest. -/
theorem Memory.wf_cons (k : Nat) (v : Byte) (m : Memory) :
    Memory.wf ((k, v) :: m) = true ↔ (∀ c ∈ m, k < c.1) ∧ v ≠ 0 ∧ m.wf = true := by
  simp only [Memory.wf_iff, List.pairwise_cons, List.forall_mem_cons]
  tauto

/-- An index below every listed one reads as 0. -/
theorem Memory.read_below (m : Memory) (a : Nat) (h : ∀ c ∈ m, a < c.1) : m.read a = 0 := by
  induction m with
  | nil => rfl
  | cons c m ih =>
    obtain ⟨k, v⟩ := c
    have hk : a < k := h (k, v) (by simp)
    rw [Memory.read_cons, if_neg (by omega)]
    exact ih fun c hc => h c (by simp [hc])

/-- A cell of the memory after a write is an old one or the written one. -/
theorem Memory.mem_write (m : Memory) (a : Nat) (v : Byte) (c : Host.Cell) (hc : c ∈ m.write a v) :
    c ∈ m ∨ c = (a, v) := by
  induction m with
  | nil =>
    simp only [Memory.write] at hc
    split at hc <;> simp_all
  | cons d m ih =>
    obtain ⟨k, w⟩ := d
    simp only [Memory.write] at hc
    split_ifs at hc <;> simp only [List.mem_cons] at hc ⊢ <;> tauto

/-- A write keeps the canonical form. -/
theorem Memory.write_wf (m : Memory) (a : Nat) (v : Byte) (h : m.wf = true) : (m.write a v).wf = true := by
  induction m with
  | nil =>
    simp only [Memory.write]
    split_ifs with hv
    · rfl
    · exact (Memory.wf_cons a v []).mpr ⟨by simp, hv, rfl⟩
  | cons d m ih =>
    obtain ⟨k, w⟩ := d
    obtain ⟨hlt, hw, hm⟩ := (Memory.wf_cons k w m).mp h
    simp only [Memory.write]
    split_ifs with h1 h2 h3 h4
    · exact h
    · refine (Memory.wf_cons _ _ _).mpr ⟨?_, h2, h⟩
      intro c hc
      rcases List.mem_cons.mp hc with rfl | hc
      · exact h1
      · exact lt_trans h1 (hlt c hc)
    · exact hm
    · exact (Memory.wf_cons _ _ _).mpr ⟨h3 ▸ hlt, h4, hm⟩
    · refine (Memory.wf_cons _ _ _).mpr ⟨?_, hw, ih hm⟩
      intro c hc
      rcases Memory.mem_write m a v c hc with hc | rfl
      · exact hlt c hc
      · show k < a
        omega

/-- What an index reads as after a write. -/
theorem Memory.read_write (m : Memory) (a b : Nat) (v : Byte) (h : m.wf = true) :
    (m.write a v).read b = if b = a then v else m.read b := by
  induction m with
  | nil =>
    simp only [Memory.write]
    split_ifs with hv hb hb
    · exact hv.symm
    · rfl
    · simp [Memory.read_cons, hb]
    · simp [Memory.read_cons, hb]
  | cons d m ih =>
    obtain ⟨k, w⟩ := d
    obtain ⟨hlt, hw, hm⟩ := (Memory.wf_cons k w m).mp h
    simp only [Memory.write]
    split_ifs with h1 hv hb hb h2 hv hb hb hb
    · subst hb hv
      refine Memory.read_below _ _ fun c hc => ?_
      rcases List.mem_cons.mp hc with rfl | hc
      · exact h1
      · exact lt_trans h1 (hlt c hc)
    · rfl
    · simp [Memory.read_cons, hb]
    · rw [Memory.read_cons, if_neg hb]
    · subst hb h2 hv
      exact Memory.read_below _ _ hlt
    · rw [Memory.read_cons, if_neg (h2 ▸ hb)]
    · simp [Memory.read_cons, hb]
    · rw [Memory.read_cons, if_neg hb, Memory.read_cons, if_neg (h2 ▸ hb)]
    · rw [Memory.read_cons, ih hm, if_pos hb, if_neg (by omega)]
    · simp only [Memory.read_cons, ih hm, if_neg hb]

/-- A read of the index just written. -/
@[simp] theorem Memory.read_write_same (m : Memory) (a : Nat) (v : Byte) (h : m.wf = true) :
    (m.write a v).read a = v := by simp [Memory.read_write m a a v h]

/-- A write leaves every other index alone. -/
theorem Memory.read_write_other (m : Memory) (a b : Nat) (v : Byte) (h : m.wf = true) (hb : b ≠ a) :
    (m.write a v).read b = m.read b := by simp [Memory.read_write m a b v h, hb]

/-- A write inside a bound keeps every listed index inside it. -/
theorem Memory.write_bound (m : Memory) (n a : Nat) (v : Byte) (h : ∀ c ∈ m, c.1 < n) (ha : a < n) :
    ∀ c ∈ m.write a v, c.1 < n := by
  intro c hc
  rcases Memory.mem_write m a v c hc with hc | rfl
  · exact h c hc
  · exact ha

/-- Storing a sequence keeps the canonical form. -/
theorem Memory.writeBytes_wf (m : Memory) (a : Nat) (bs : List Byte) (h : m.wf = true) :
    (m.writeBytes a bs).wf = true := by
  induction bs generalizing m a with
  | nil => exact h
  | cons b bs ih => exact ih _ _ (Memory.write_wf m a b h)

/-- Storing a sequence inside a bound keeps every listed index inside it. -/
theorem Memory.writeBytes_bound (m : Memory) (n a : Nat) (bs : List Byte) (h : ∀ c ∈ m, c.1 < n)
    (ha : a + bs.length ≤ n) : ∀ c ∈ m.writeBytes a bs, c.1 < n := by
  induction bs generalizing m a with
  | nil => exact h
  | cons b bs ih =>
    simp only [List.length_cons] at ha
    exact ih _ _ (Memory.write_bound m n a b h (by omega)) (by omega)

/-- What an index reads as after a sequence was stored. -/
theorem Memory.read_writeBytes (m : Memory) (a k : Nat) (bs : List Byte) (h : m.wf = true) :
    (m.writeBytes a bs).read k =
      if a ≤ k ∧ k < a + bs.length then bs.getD (k - a) 0 else m.read k := by
  induction bs generalizing m a with
  | nil =>
    rw [if_neg (by simp)]
    rfl
  | cons b bs ih =>
    rw [Memory.writeBytes, ih _ _ (Memory.write_wf m a b h), Memory.read_write m a k b h]
    simp only [List.length_cons]
    rcases Nat.lt_trichotomy k a with hk | rfl | hk
    · rw [if_neg (by omega), if_neg (by omega), if_neg (by omega)]
    · rw [if_neg (by omega), if_pos rfl, if_pos (by omega)]
      simp
    · rw [show k - a = (k - (a + 1)) + 1 by omega, List.getD_cons_succ, if_neg (by omega : ¬ k = a)]
      by_cases hu : k < a + 1 + bs.length
      · rw [if_pos (by omega), if_pos (by omega)]
      · rw [if_neg (by omega), if_neg (by omega)]

@[simp] theorem Memory.readBytes_length (m : Memory) (n : Nat) : (m.readBytes n).length = n := by
  simp [Memory.readBytes]

/-- One byte of what was read. -/
theorem Memory.readBytes_getD (m : Memory) (n k : Nat) (hk : k < n) : (m.readBytes n).getD k 0 = m.read k := by
  simp [Memory.readBytes, hk]

/-- Reading one byte more appends it. -/
theorem Memory.readBytes_succ (m : Memory) (n : Nat) : m.readBytes (n + 1) = m.readBytes n ++ [m.read n] := by
  simp [Memory.readBytes, List.range_succ]

/-- Reading back a stored sequence gives it. -/
theorem Memory.readBytes_writeBytes (m : Memory) (bs : List Byte) (h : m.wf = true) :
    (m.writeBytes 0 bs).readBytes bs.length = bs := by
  apply List.ext_getElem (by simp)
  intro k h1 h2
  simp [Memory.readBytes, Memory.read_writeBytes m 0 k bs h, h2]

/-- The free contents of a buffer are in canonical form, inside the buffer. -/
theorem freeBuffer_spec (P : Params) (n : Nat) :
    (freeBuffer P n).wf = true ∧ ∀ c ∈ freeBuffer P n, c.1 < P.maxFrame :=
  ⟨Memory.writeBytes_wf _ _ _ rfl,
    Memory.writeBytes_bound _ _ _ _ (by simp) (by simp [List.length_take])⟩

/-- Two memories in canonical form that read alike everywhere are equal. -/
theorem Memory.ext (m n : Memory) (hm : m.wf = true) (hn : n.wf = true) (h : ∀ a, m.read a = n.read a) :
    m = n := by
  induction m generalizing n with
  | nil =>
    cases n with
    | nil => rfl
    | cons d n =>
      obtain ⟨j, w⟩ := d
      exact absurd (by simpa [Memory.read_cons] using (h j).symm) ((Memory.wf_cons j w n).mp hn).2.1
  | cons c m ih =>
    obtain ⟨k, v⟩ := c
    obtain ⟨hk, hv, hm'⟩ := (Memory.wf_cons k v m).mp hm
    cases n with
    | nil => exact absurd (by simpa [Memory.read_cons] using h k) hv
    | cons d n =>
      obtain ⟨j, w⟩ := d
      obtain ⟨hj, hw, hn'⟩ := (Memory.wf_cons j w n).mp hn
      have hkk := h k
      have hjj := h j
      simp only [Memory.read_cons, if_true] at hkk hjj
      have hkj : k = j := by
        by_contra hne
        rw [if_neg hne] at hkk
        rw [if_neg (Ne.symm hne)] at hjj
        rcases Nat.lt_or_gt_of_ne hne with hlt | hlt
        · exact hv (hkk.trans (Memory.read_below n k fun c hc => lt_trans hlt (hj c hc)))
        · exact hw (hjj.symm.trans (Memory.read_below m j fun c hc => lt_trans hlt (hk c hc)))
      subst hkj
      rw [if_pos rfl] at hkk
      subst hkk
      congr 1
      refine ih n hm' hn' fun a => ?_
      by_cases ha : a = k
      · subst ha
        rw [Memory.read_below m a hk, Memory.read_below n a hj]
      · simpa [Memory.read_cons, ha] using h a

end Sys2Proof.Machine
end

