-- ==== Sys2Proof/Laws/State.lean ====
section
/-! SUPPORT. Each field after each named update of the state. -/

namespace Sys2Proof.Machine

/-! ## emit -/

@[simp] theorem emit_engState (e : Event) (s : State) :
    (emit e s).engState = s.engState := rfl
@[simp] theorem emit_txBuf (e : Event) (s : State) :
    (emit e s).txBuf = s.txBuf := rfl
@[simp] theorem emit_txLen (e : Event) (s : State) :
    (emit e s).txLen = s.txLen := rfl
@[simp] theorem emit_txCursor (e : Event) (s : State) :
    (emit e s).txCursor = s.txCursor := rfl
@[simp] theorem emit_rxBuf (e : Event) (s : State) :
    (emit e s).rxBuf = s.rxBuf := rfl
@[simp] theorem emit_rxCount (e : Event) (s : State) :
    (emit e s).rxCount = s.rxCount := rfl
@[simp] theorem emit_rxCursor (e : Event) (s : State) :
    (emit e s).rxCursor = s.rxCursor := rfl
@[simp] theorem emit_retryCount (e : Event) (s : State) :
    (emit e s).retryCount = s.retryCount := rfl
@[simp] theorem emit_deadline (e : Event) (s : State) :
    (emit e s).deadline = s.deadline := rfl
@[simp] theorem emit_respCb (e : Event) (s : State) :
    (emit e s).respCb = s.respCb := rfl
@[simp] theorem emit_errCb (e : Event) (s : State) :
    (emit e s).errCb = s.errCb := rfl
@[simp] theorem emit_lastError (e : Event) (s : State) :
    (emit e s).lastError = s.lastError := rfl
@[simp] theorem emit_rxIntEn (e : Event) (s : State) :
    (emit e s).rxIntEn = s.rxIntEn := rfl
@[simp] theorem emit_initialised (e : Event) (s : State) :
    (emit e s).initialised = s.initialised := rfl
@[simp] theorem emit_asmState (e : Event) (s : State) :
    (emit e s).asmState = s.asmState := rfl
@[simp] theorem emit_tick (e : Event) (s : State) :
    (emit e s).tick = s.tick := rfl
@[simp] theorem emit_rxFifo (e : Event) (s : State) :
    (emit e s).rxFifo = s.rxFifo := rfl
@[simp] theorem emit_trace (e : Event) (s : State) :
    (emit e s).trace = s.trace ++ [e] := rfl
@[simp] theorem emit_results (e : Event) (s : State) :
    (emit e s).results = s.results := rfl
@[simp] theorem emit_stream (e : Event) (s : State) :
    (emit e s).stream = s.stream := rfl
@[simp] theorem emit_pc (e : Event) (s : State) :
    (emit e s).pc = s.pc := rfl
@[simp] theorem emit_opActive (e : Event) (s : State) :
    (emit e s).opActive = s.opActive := rfl
@[simp] theorem emit_draws (e : Event) (s : State) :
    (emit e s).draws = s.draws := rfl

/-! ## putResult -/

@[simp] theorem putResult_engState (r : Result) (s : State) :
    (putResult r s).engState = s.engState := rfl
@[simp] theorem putResult_txBuf (r : Result) (s : State) :
    (putResult r s).txBuf = s.txBuf := rfl
@[simp] theorem putResult_txLen (r : Result) (s : State) :
    (putResult r s).txLen = s.txLen := rfl
@[simp] theorem putResult_txCursor (r : Result) (s : State) :
    (putResult r s).txCursor = s.txCursor := rfl
@[simp] theorem putResult_rxBuf (r : Result) (s : State) :
    (putResult r s).rxBuf = s.rxBuf := rfl
@[simp] theorem putResult_rxCount (r : Result) (s : State) :
    (putResult r s).rxCount = s.rxCount := rfl
@[simp] theorem putResult_rxCursor (r : Result) (s : State) :
    (putResult r s).rxCursor = s.rxCursor := rfl
@[simp] theorem putResult_retryCount (r : Result) (s : State) :
    (putResult r s).retryCount = s.retryCount := rfl
@[simp] theorem putResult_deadline (r : Result) (s : State) :
    (putResult r s).deadline = s.deadline := rfl
@[simp] theorem putResult_respCb (r : Result) (s : State) :
    (putResult r s).respCb = s.respCb := rfl
@[simp] theorem putResult_errCb (r : Result) (s : State) :
    (putResult r s).errCb = s.errCb := rfl
@[simp] theorem putResult_lastError (r : Result) (s : State) :
    (putResult r s).lastError = s.lastError := rfl
@[simp] theorem putResult_rxIntEn (r : Result) (s : State) :
    (putResult r s).rxIntEn = s.rxIntEn := rfl
@[simp] theorem putResult_initialised (r : Result) (s : State) :
    (putResult r s).initialised = s.initialised := rfl
@[simp] theorem putResult_asmState (r : Result) (s : State) :
    (putResult r s).asmState = s.asmState := rfl
@[simp] theorem putResult_tick (r : Result) (s : State) :
    (putResult r s).tick = s.tick := rfl
@[simp] theorem putResult_rxFifo (r : Result) (s : State) :
    (putResult r s).rxFifo = s.rxFifo := rfl
@[simp] theorem putResult_trace (r : Result) (s : State) :
    (putResult r s).trace = s.trace := rfl
@[simp] theorem putResult_results (r : Result) (s : State) :
    (putResult r s).results = s.results ++ [r] := rfl
@[simp] theorem putResult_stream (r : Result) (s : State) :
    (putResult r s).stream = s.stream := rfl
@[simp] theorem putResult_pc (r : Result) (s : State) :
    (putResult r s).pc = s.pc := rfl
@[simp] theorem putResult_opActive (r : Result) (s : State) :
    (putResult r s).opActive = s.opActive := rfl
@[simp] theorem putResult_draws (r : Result) (s : State) :
    (putResult r s).draws = s.draws := rfl

/-! ## advance -/

@[simp] theorem advance_engState (s : State) :
    (advance s).engState = s.engState := rfl
@[simp] theorem advance_txBuf (s : State) :
    (advance s).txBuf = s.txBuf := rfl
@[simp] theorem advance_txLen (s : State) :
    (advance s).txLen = s.txLen := rfl
@[simp] theorem advance_txCursor (s : State) :
    (advance s).txCursor = s.txCursor := rfl
@[simp] theorem advance_rxBuf (s : State) :
    (advance s).rxBuf = s.rxBuf := rfl
@[simp] theorem advance_rxCount (s : State) :
    (advance s).rxCount = s.rxCount := rfl
@[simp] theorem advance_rxCursor (s : State) :
    (advance s).rxCursor = s.rxCursor := rfl
@[simp] theorem advance_retryCount (s : State) :
    (advance s).retryCount = s.retryCount := rfl
@[simp] theorem advance_deadline (s : State) :
    (advance s).deadline = s.deadline := rfl
@[simp] theorem advance_respCb (s : State) :
    (advance s).respCb = s.respCb := rfl
@[simp] theorem advance_errCb (s : State) :
    (advance s).errCb = s.errCb := rfl
@[simp] theorem advance_lastError (s : State) :
    (advance s).lastError = s.lastError := rfl
@[simp] theorem advance_rxIntEn (s : State) :
    (advance s).rxIntEn = s.rxIntEn := rfl
@[simp] theorem advance_initialised (s : State) :
    (advance s).initialised = s.initialised := rfl
@[simp] theorem advance_asmState (s : State) :
    (advance s).asmState = s.asmState := rfl
@[simp] theorem advance_tick (s : State) :
    (advance s).tick = s.tick := rfl
@[simp] theorem advance_rxFifo (s : State) :
    (advance s).rxFifo = s.rxFifo := rfl
@[simp] theorem advance_trace (s : State) :
    (advance s).trace = s.trace := rfl
@[simp] theorem advance_results (s : State) :
    (advance s).results = s.results := rfl
@[simp] theorem advance_stream (s : State) :
    (advance s).stream = s.stream := rfl
@[simp] theorem advance_pc (s : State) :
    (advance s).pc = s.pc + 1 := rfl
@[simp] theorem advance_opActive (s : State) :
    (advance s).opActive = s.opActive := rfl
@[simp] theorem advance_draws (s : State) :
    (advance s).draws = s.draws := rfl

/-! ## returnToIdle -/

@[simp] theorem returnToIdle_engState (s : State) :
    (returnToIdle s).engState = .idle := rfl
@[simp] theorem returnToIdle_txBuf (s : State) :
    (returnToIdle s).txBuf = s.txBuf := rfl
@[simp] theorem returnToIdle_txLen (s : State) :
    (returnToIdle s).txLen = s.txLen := rfl
@[simp] theorem returnToIdle_txCursor (s : State) :
    (returnToIdle s).txCursor = s.txCursor := rfl
@[simp] theorem returnToIdle_rxBuf (s : State) :
    (returnToIdle s).rxBuf = s.rxBuf := rfl
@[simp] theorem returnToIdle_rxCount (s : State) :
    (returnToIdle s).rxCount = s.rxCount := rfl
@[simp] theorem returnToIdle_rxCursor (s : State) :
    (returnToIdle s).rxCursor = s.rxCursor := rfl
@[simp] theorem returnToIdle_retryCount (s : State) :
    (returnToIdle s).retryCount = 0 := rfl
@[simp] theorem returnToIdle_deadline (s : State) :
    (returnToIdle s).deadline = s.deadline := rfl
@[simp] theorem returnToIdle_respCb (s : State) :
    (returnToIdle s).respCb = s.respCb := rfl
@[simp] theorem returnToIdle_errCb (s : State) :
    (returnToIdle s).errCb = s.errCb := rfl
@[simp] theorem returnToIdle_lastError (s : State) :
    (returnToIdle s).lastError = s.lastError := rfl
@[simp] theorem returnToIdle_rxIntEn (s : State) :
    (returnToIdle s).rxIntEn = s.rxIntEn := rfl
@[simp] theorem returnToIdle_initialised (s : State) :
    (returnToIdle s).initialised = s.initialised := rfl
@[simp] theorem returnToIdle_asmState (s : State) :
    (returnToIdle s).asmState = s.asmState := rfl
@[simp] theorem returnToIdle_tick (s : State) :
    (returnToIdle s).tick = s.tick := rfl
@[simp] theorem returnToIdle_rxFifo (s : State) :
    (returnToIdle s).rxFifo = s.rxFifo := rfl
@[simp] theorem returnToIdle_trace (s : State) :
    (returnToIdle s).trace = s.trace := rfl
@[simp] theorem returnToIdle_results (s : State) :
    (returnToIdle s).results = s.results := rfl
@[simp] theorem returnToIdle_stream (s : State) :
    (returnToIdle s).stream = s.stream := rfl
@[simp] theorem returnToIdle_pc (s : State) :
    (returnToIdle s).pc = s.pc := rfl
@[simp] theorem returnToIdle_opActive (s : State) :
    (returnToIdle s).opActive = s.opActive := rfl
@[simp] theorem returnToIdle_draws (s : State) :
    (returnToIdle s).draws = s.draws := rfl

/-! ## setAssembler -/

@[simp] theorem setAssembler_engState (a : AsmState) (n : Nat) (s : State) :
    (setAssembler a n s).engState = s.engState := rfl
@[simp] theorem setAssembler_txBuf (a : AsmState) (n : Nat) (s : State) :
    (setAssembler a n s).txBuf = s.txBuf := rfl
@[simp] theorem setAssembler_txLen (a : AsmState) (n : Nat) (s : State) :
    (setAssembler a n s).txLen = s.txLen := rfl
@[simp] theorem setAssembler_txCursor (a : AsmState) (n : Nat) (s : State) :
    (setAssembler a n s).txCursor = s.txCursor := rfl
@[simp] theorem setAssembler_rxBuf (a : AsmState) (n : Nat) (s : State) :
    (setAssembler a n s).rxBuf = s.rxBuf := rfl
@[simp] theorem setAssembler_rxCount (a : AsmState) (n : Nat) (s : State) :
    (setAssembler a n s).rxCount = n := rfl
@[simp] theorem setAssembler_rxCursor (a : AsmState) (n : Nat) (s : State) :
    (setAssembler a n s).rxCursor = n := rfl
@[simp] theorem setAssembler_retryCount (a : AsmState) (n : Nat) (s : State) :
    (setAssembler a n s).retryCount = s.retryCount := rfl
@[simp] theorem setAssembler_deadline (a : AsmState) (n : Nat) (s : State) :
    (setAssembler a n s).deadline = s.deadline := rfl
@[simp] theorem setAssembler_respCb (a : AsmState) (n : Nat) (s : State) :
    (setAssembler a n s).respCb = s.respCb := rfl
@[simp] theorem setAssembler_errCb (a : AsmState) (n : Nat) (s : State) :
    (setAssembler a n s).errCb = s.errCb := rfl
@[simp] theorem setAssembler_lastError (a : AsmState) (n : Nat) (s : State) :
    (setAssembler a n s).lastError = s.lastError := rfl
@[simp] theorem setAssembler_rxIntEn (a : AsmState) (n : Nat) (s : State) :
    (setAssembler a n s).rxIntEn = s.rxIntEn := rfl
@[simp] theorem setAssembler_initialised (a : AsmState) (n : Nat) (s : State) :
    (setAssembler a n s).initialised = s.initialised := rfl
@[simp] theorem setAssembler_asmState (a : AsmState) (n : Nat) (s : State) :
    (setAssembler a n s).asmState = a := rfl
@[simp] theorem setAssembler_tick (a : AsmState) (n : Nat) (s : State) :
    (setAssembler a n s).tick = s.tick := rfl
@[simp] theorem setAssembler_rxFifo (a : AsmState) (n : Nat) (s : State) :
    (setAssembler a n s).rxFifo = s.rxFifo := rfl
@[simp] theorem setAssembler_trace (a : AsmState) (n : Nat) (s : State) :
    (setAssembler a n s).trace = s.trace := rfl
@[simp] theorem setAssembler_results (a : AsmState) (n : Nat) (s : State) :
    (setAssembler a n s).results = s.results := rfl
@[simp] theorem setAssembler_stream (a : AsmState) (n : Nat) (s : State) :
    (setAssembler a n s).stream = s.stream := rfl
@[simp] theorem setAssembler_pc (a : AsmState) (n : Nat) (s : State) :
    (setAssembler a n s).pc = s.pc := rfl
@[simp] theorem setAssembler_opActive (a : AsmState) (n : Nat) (s : State) :
    (setAssembler a n s).opActive = s.opActive := rfl
@[simp] theorem setAssembler_draws (a : AsmState) (n : Nat) (s : State) :
    (setAssembler a n s).draws = s.draws := rfl

/-! ## bufferReset -/

@[simp] theorem bufferReset_engState (s : State) :
    (bufferReset s).engState = s.engState := rfl
@[simp] theorem bufferReset_txBuf (s : State) :
    (bufferReset s).txBuf = s.txBuf := rfl
@[simp] theorem bufferReset_txLen (s : State) :
    (bufferReset s).txLen = s.txLen := rfl
@[simp] theorem bufferReset_txCursor (s : State) :
    (bufferReset s).txCursor = s.txCursor := rfl
@[simp] theorem bufferReset_rxBuf (s : State) :
    (bufferReset s).rxBuf = s.rxBuf := rfl
@[simp] theorem bufferReset_rxCount (s : State) :
    (bufferReset s).rxCount = 0 := rfl
@[simp] theorem bufferReset_rxCursor (s : State) :
    (bufferReset s).rxCursor = 0 := rfl
@[simp] theorem bufferReset_retryCount (s : State) :
    (bufferReset s).retryCount = s.retryCount := rfl
@[simp] theorem bufferReset_deadline (s : State) :
    (bufferReset s).deadline = s.deadline := rfl
@[simp] theorem bufferReset_respCb (s : State) :
    (bufferReset s).respCb = s.respCb := rfl
@[simp] theorem bufferReset_errCb (s : State) :
    (bufferReset s).errCb = s.errCb := rfl
@[simp] theorem bufferReset_lastError (s : State) :
    (bufferReset s).lastError = s.lastError := rfl
@[simp] theorem bufferReset_rxIntEn (s : State) :
    (bufferReset s).rxIntEn = true := rfl
@[simp] theorem bufferReset_initialised (s : State) :
    (bufferReset s).initialised = s.initialised := rfl
@[simp] theorem bufferReset_asmState (s : State) :
    (bufferReset s).asmState = .waitingForStart := rfl
@[simp] theorem bufferReset_tick (s : State) :
    (bufferReset s).tick = s.tick := rfl
@[simp] theorem bufferReset_rxFifo (s : State) :
    (bufferReset s).rxFifo = [] := rfl
@[simp] theorem bufferReset_trace (s : State) :
    (bufferReset s).trace = s.trace := rfl
@[simp] theorem bufferReset_results (s : State) :
    (bufferReset s).results = s.results := rfl
@[simp] theorem bufferReset_stream (s : State) :
    (bufferReset s).stream = s.stream := rfl
@[simp] theorem bufferReset_pc (s : State) :
    (bufferReset s).pc = s.pc := rfl
@[simp] theorem bufferReset_opActive (s : State) :
    (bufferReset s).opActive = s.opActive := rfl
@[simp] theorem bufferReset_draws (s : State) :
    (bufferReset s).draws = s.draws := rfl

/-! ## transmit -/

@[simp] theorem transmit_engState (P : Params) (bs : List Byte) (s : State) :
    (transmit P bs s).engState = .transmitting := rfl
@[simp] theorem transmit_txBuf (P : Params) (bs : List Byte) (s : State) :
    (transmit P bs s).txBuf = s.txBuf := rfl
@[simp] theorem transmit_txLen (P : Params) (bs : List Byte) (s : State) :
    (transmit P bs s).txLen = s.txLen := rfl
@[simp] theorem transmit_txCursor (P : Params) (bs : List Byte) (s : State) :
    (transmit P bs s).txCursor = s.txLen := rfl
@[simp] theorem transmit_rxBuf (P : Params) (bs : List Byte) (s : State) :
    (transmit P bs s).rxBuf = s.rxBuf := rfl
@[simp] theorem transmit_rxCount (P : Params) (bs : List Byte) (s : State) :
    (transmit P bs s).rxCount = s.rxCount := rfl
@[simp] theorem transmit_rxCursor (P : Params) (bs : List Byte) (s : State) :
    (transmit P bs s).rxCursor = s.rxCursor := rfl
@[simp] theorem transmit_retryCount (P : Params) (bs : List Byte) (s : State) :
    (transmit P bs s).retryCount = s.retryCount := rfl
@[simp] theorem transmit_deadline (P : Params) (bs : List Byte) (s : State) :
    (transmit P bs s).deadline = s.deadline := rfl
@[simp] theorem transmit_respCb (P : Params) (bs : List Byte) (s : State) :
    (transmit P bs s).respCb = s.respCb := rfl
@[simp] theorem transmit_errCb (P : Params) (bs : List Byte) (s : State) :
    (transmit P bs s).errCb = s.errCb := rfl
@[simp] theorem transmit_lastError (P : Params) (bs : List Byte) (s : State) :
    (transmit P bs s).lastError = s.lastError := rfl
@[simp] theorem transmit_rxIntEn (P : Params) (bs : List Byte) (s : State) :
    (transmit P bs s).rxIntEn = s.rxIntEn := rfl
@[simp] theorem transmit_initialised (P : Params) (bs : List Byte) (s : State) :
    (transmit P bs s).initialised = s.initialised := rfl
@[simp] theorem transmit_asmState (P : Params) (bs : List Byte) (s : State) :
    (transmit P bs s).asmState = s.asmState := rfl
@[simp] theorem transmit_tick (P : Params) (bs : List Byte) (s : State) :
    (transmit P bs s).tick = s.tick + Config.freeDelay s.draws := rfl
@[simp] theorem transmit_rxFifo (P : Params) (bs : List Byte) (s : State) :
    (transmit P bs s).rxFifo = s.rxFifo := rfl
@[simp] theorem transmit_trace (P : Params) (bs : List Byte) (s : State) :
    (transmit P bs s).trace = s.trace ++ [.preamble P.preambleMs] ++ [.tx bs] := rfl
@[simp] theorem transmit_results (P : Params) (bs : List Byte) (s : State) :
    (transmit P bs s).results = s.results := rfl
@[simp] theorem transmit_stream (P : Params) (bs : List Byte) (s : State) :
    (transmit P bs s).stream = s.stream := rfl
@[simp] theorem transmit_pc (P : Params) (bs : List Byte) (s : State) :
    (transmit P bs s).pc = s.pc := rfl
@[simp] theorem transmit_opActive (P : Params) (bs : List Byte) (s : State) :
    (transmit P bs s).opActive = s.opActive := rfl
@[simp] theorem transmit_draws (P : Params) (bs : List Byte) (s : State) :
    (transmit P bs s).draws = s.draws + 1 := rfl

/-! ## arm -/

@[simp] theorem arm_engState (P : Params) (s : State) :
    (arm P s).engState = .waitingForResponse := rfl
@[simp] theorem arm_txBuf (P : Params) (s : State) :
    (arm P s).txBuf = s.txBuf := rfl
@[simp] theorem arm_txLen (P : Params) (s : State) :
    (arm P s).txLen = s.txLen := rfl
@[simp] theorem arm_txCursor (P : Params) (s : State) :
    (arm P s).txCursor = s.txCursor := rfl
@[simp] theorem arm_rxBuf (P : Params) (s : State) :
    (arm P s).rxBuf = s.rxBuf := rfl
@[simp] theorem arm_rxCount (P : Params) (s : State) :
    (arm P s).rxCount = s.rxCount := rfl
@[simp] theorem arm_rxCursor (P : Params) (s : State) :
    (arm P s).rxCursor = s.rxCursor := rfl
@[simp] theorem arm_retryCount (P : Params) (s : State) :
    (arm P s).retryCount = s.retryCount := rfl
@[simp] theorem arm_deadline (P : Params) (s : State) :
    (arm P s).deadline = s.tick + BitVec.ofNat 32 P.timeoutMs := rfl
@[simp] theorem arm_respCb (P : Params) (s : State) :
    (arm P s).respCb = s.respCb := rfl
@[simp] theorem arm_errCb (P : Params) (s : State) :
    (arm P s).errCb = s.errCb := rfl
@[simp] theorem arm_lastError (P : Params) (s : State) :
    (arm P s).lastError = s.lastError := rfl
@[simp] theorem arm_rxIntEn (P : Params) (s : State) :
    (arm P s).rxIntEn = s.rxIntEn := rfl
@[simp] theorem arm_initialised (P : Params) (s : State) :
    (arm P s).initialised = s.initialised := rfl
@[simp] theorem arm_asmState (P : Params) (s : State) :
    (arm P s).asmState = s.asmState := rfl
@[simp] theorem arm_tick (P : Params) (s : State) :
    (arm P s).tick = s.tick := rfl
@[simp] theorem arm_rxFifo (P : Params) (s : State) :
    (arm P s).rxFifo = s.rxFifo := rfl
@[simp] theorem arm_trace (P : Params) (s : State) :
    (arm P s).trace = s.trace := rfl
@[simp] theorem arm_results (P : Params) (s : State) :
    (arm P s).results = s.results := rfl
@[simp] theorem arm_stream (P : Params) (s : State) :
    (arm P s).stream = s.stream := rfl
@[simp] theorem arm_pc (P : Params) (s : State) :
    (arm P s).pc = s.pc := rfl
@[simp] theorem arm_opActive (P : Params) (s : State) :
    (arm P s).opActive = s.opActive := rfl
@[simp] theorem arm_draws (P : Params) (s : State) :
    (arm P s).draws = s.draws := rfl

/-! ## toInitialValues -/

@[simp] theorem toInitialValues_engState (P : Params) (s : State) :
    (toInitialValues P s).engState = .idle := rfl
@[simp] theorem toInitialValues_txBuf (P : Params) (s : State) :
    (toInitialValues P s).txBuf = [] := rfl
@[simp] theorem toInitialValues_txLen (P : Params) (s : State) :
    (toInitialValues P s).txLen = 0 := rfl
@[simp] theorem toInitialValues_txCursor (P : Params) (s : State) :
    (toInitialValues P s).txCursor = 0 := rfl
@[simp] theorem toInitialValues_rxBuf (P : Params) (s : State) :
    (toInitialValues P s).rxBuf = freeBuffer P s.draws := rfl
@[simp] theorem toInitialValues_rxCount (P : Params) (s : State) :
    (toInitialValues P s).rxCount = 0 := rfl
@[simp] theorem toInitialValues_rxCursor (P : Params) (s : State) :
    (toInitialValues P s).rxCursor = 0 := rfl
@[simp] theorem toInitialValues_retryCount (P : Params) (s : State) :
    (toInitialValues P s).retryCount = 0 := rfl
@[simp] theorem toInitialValues_deadline (P : Params) (s : State) :
    (toInitialValues P s).deadline = 0 := rfl
@[simp] theorem toInitialValues_respCb (P : Params) (s : State) :
    (toInitialValues P s).respCb = s.respCb := rfl
@[simp] theorem toInitialValues_errCb (P : Params) (s : State) :
    (toInitialValues P s).errCb = s.errCb := rfl
@[simp] theorem toInitialValues_lastError (P : Params) (s : State) :
    (toInitialValues P s).lastError = .ok := rfl
@[simp] theorem toInitialValues_rxIntEn (P : Params) (s : State) :
    (toInitialValues P s).rxIntEn = true := rfl
@[simp] theorem toInitialValues_initialised (P : Params) (s : State) :
    (toInitialValues P s).initialised = s.initialised := rfl
@[simp] theorem toInitialValues_asmState (P : Params) (s : State) :
    (toInitialValues P s).asmState = .waitingForStart := rfl
@[simp] theorem toInitialValues_tick (P : Params) (s : State) :
    (toInitialValues P s).tick = s.tick := rfl
@[simp] theorem toInitialValues_rxFifo (P : Params) (s : State) :
    (toInitialValues P s).rxFifo = [] := rfl
@[simp] theorem toInitialValues_trace (P : Params) (s : State) :
    (toInitialValues P s).trace = s.trace := rfl
@[simp] theorem toInitialValues_results (P : Params) (s : State) :
    (toInitialValues P s).results = s.results := rfl
@[simp] theorem toInitialValues_stream (P : Params) (s : State) :
    (toInitialValues P s).stream = s.stream := rfl
@[simp] theorem toInitialValues_pc (P : Params) (s : State) :
    (toInitialValues P s).pc = s.pc := rfl
@[simp] theorem toInitialValues_opActive (P : Params) (s : State) :
    (toInitialValues P s).opActive = s.opActive := rfl
@[simp] theorem toInitialValues_draws (P : Params) (s : State) :
    (toInitialValues P s).draws = s.draws + 1 := rfl

/-! ## initEngine -/

@[simp] theorem initEngine_engState (P : Params) (s : State) :
    (initEngine P s).engState = .idle := rfl
@[simp] theorem initEngine_txBuf (P : Params) (s : State) :
    (initEngine P s).txBuf = [] := rfl
@[simp] theorem initEngine_txLen (P : Params) (s : State) :
    (initEngine P s).txLen = 0 := rfl
@[simp] theorem initEngine_txCursor (P : Params) (s : State) :
    (initEngine P s).txCursor = 0 := rfl
@[simp] theorem initEngine_rxBuf (P : Params) (s : State) :
    (initEngine P s).rxBuf = freeBuffer P s.draws := rfl
@[simp] theorem initEngine_rxCount (P : Params) (s : State) :
    (initEngine P s).rxCount = 0 := rfl
@[simp] theorem initEngine_rxCursor (P : Params) (s : State) :
    (initEngine P s).rxCursor = 0 := rfl
@[simp] theorem initEngine_retryCount (P : Params) (s : State) :
    (initEngine P s).retryCount = 0 := rfl
@[simp] theorem initEngine_deadline (P : Params) (s : State) :
    (initEngine P s).deadline = 0 := rfl
@[simp] theorem initEngine_respCb (P : Params) (s : State) :
    (initEngine P s).respCb = none := rfl
@[simp] theorem initEngine_errCb (P : Params) (s : State) :
    (initEngine P s).errCb = none := rfl
@[simp] theorem initEngine_lastError (P : Params) (s : State) :
    (initEngine P s).lastError = .ok := rfl
@[simp] theorem initEngine_rxIntEn (P : Params) (s : State) :
    (initEngine P s).rxIntEn = true := rfl
@[simp] theorem initEngine_initialised (P : Params) (s : State) :
    (initEngine P s).initialised = true := rfl
@[simp] theorem initEngine_asmState (P : Params) (s : State) :
    (initEngine P s).asmState = .waitingForStart := rfl
@[simp] theorem initEngine_tick (P : Params) (s : State) :
    (initEngine P s).tick = s.tick := rfl
@[simp] theorem initEngine_rxFifo (P : Params) (s : State) :
    (initEngine P s).rxFifo = [] := rfl
@[simp] theorem initEngine_trace (P : Params) (s : State) :
    (initEngine P s).trace = s.trace := rfl
@[simp] theorem initEngine_results (P : Params) (s : State) :
    (initEngine P s).results = s.results := rfl
@[simp] theorem initEngine_stream (P : Params) (s : State) :
    (initEngine P s).stream = s.stream := rfl
@[simp] theorem initEngine_pc (P : Params) (s : State) :
    (initEngine P s).pc = s.pc := rfl
@[simp] theorem initEngine_opActive (P : Params) (s : State) :
    (initEngine P s).opActive = s.opActive := rfl
@[simp] theorem initEngine_draws (P : Params) (s : State) :
    (initEngine P s).draws = s.draws + 1 := rfl

end Sys2Proof.Machine
end

