-- ==== Sys2Proof/Laws/Ops.lean ====
section
/-! SUPPORT. One lemma per shared operation: everything it can do. -/

namespace Sys2Proof.Machine

@[simp] theorem andThen_next {σ τ : Type} (s : σ) (k : σ → Host.Outcome τ Fault Refusal) :
    andThen (.next s) k = k s := rfl

@[simp] theorem andThen_fault {σ τ : Type} (f : Fault) (k : σ → Host.Outcome τ Fault Refusal) :
    andThen (.fault f : Host.Outcome σ Fault Refusal) k = .fault f := rfl

@[simp] theorem andThen_refused {σ τ : Type} (r : Refusal) (k : σ → Host.Outcome τ Fault Refusal) :
    andThen (.refused r : Host.Outcome σ Fault Refusal) k = .refused r := rfl

/-- Two things done in turn reach a next state only through a next state of the first. -/
theorem andThen_eq_next {σ τ : Type} (o : Host.Outcome σ Fault Refusal)
    (k : σ → Host.Outcome τ Fault Refusal) (t : τ) :
    andThen o k = .next t ↔ ∃ s, o = .next s ∧ k s = .next t := by
  cases o <;> simp

/-- Doing things in turn is associative. -/
theorem andThen_assoc {σ τ υ : Type} (o : Host.Outcome σ Fault Refusal)
    (k : σ → Host.Outcome τ Fault Refusal) (l : τ → Host.Outcome υ Fault Refusal) :
    andThen (andThen o k) l = andThen o fun s => andThen (k s) l := by
  cases o <;> rfl

@[simp] theorem errEvents_none (e : ErrorCode) : errEvents none e = [] := rfl

@[simp] theorem errEvents_some (h : Byte) (e : ErrorCode) : errEvents (some h) e = [.err h e] := rfl

@[simp] theorem respEvents_none (r : Record) : respEvents none r = [] := rfl

@[simp] theorem respEvents_some (h : Byte) (r : Record) : respEvents (some h) r = [.resp h r] := rfl

/-- What reporting an error does (spec/60_exceptions.md R326): two fields, no more. -/
theorem raiseError_eq (e : ErrorCode) (s : State) :
    raiseError e s = { s with lastError := e, trace := s.trace ++ errEvents s.errCb e } := by
  rcases s with ⟨⟩
  rename_i errCb _ _ _ _ _ _ _ _ _ _ _ _
  cases errCb <;> simp [raiseError, notify, emit]

/-- What firing the response callback does (spec/60_exceptions.md R325): one field, no more. -/
theorem fireResponse_eq (r : Record) (s : State) :
    fireResponse r s = { s with trace := s.trace ++ respEvents s.respCb r } := by
  rcases s with ⟨⟩
  rename_i respCb _ _ _ _ _ _ _ _ _ _ _ _ _
  cases respCb <;> simp [fireResponse, notify, emit]

/-- What ending an exchange does: two fields where one is outstanding, else nothing. -/
theorem endExchange_eq (via : EngState) (s : State) :
    endExchange via s =
      { s with
        engState := if s.engState = .waitingForResponse then .idle else s.engState
        retryCount := if s.engState = .waitingForResponse then 0 else s.retryCount } := by
  unfold endExchange
  split_ifs <;> rfl

/-- A host operation runs where none is in progress and INIT has run. -/
theorem hostOp_ready (s : State) (effect : State → Answer) (hi : s.initialised = true)
    (ha : s.opActive = false) :
    hostOp s effect =
      andThen (effect { s with opActive := true }) fun t => finish { t with opActive := false } := by
  simp [hostOp, hostOpAlways, hi, ha]

/-- INIT's check: a host operation that needs no INIT runs where none is in progress. -/
theorem hostOpAlways_ready (s : State) (effect : State → Answer) (ha : s.opActive = false) :
    hostOpAlways s effect =
      andThen (effect { s with opActive := true }) fun t => finish { t with opActive := false } := by
  simp [hostOpAlways, ha]

/-- When a host operation reaches a next state: it was ready, and its effect reached one. -/
theorem hostOp_next (s t : State) (effect : State → Answer) :
    hostOp s effect = .next t ↔
      s.initialised = true ∧ s.opActive = false ∧
        ∃ u, effect { s with opActive := true } = .next u ∧
          t = { u with opActive := false, pc := u.pc + 1 } := by
  unfold hostOp hostOpAlways
  cases ha : s.opActive <;> cases hi : s.initialised <;> simp [andThen_eq_next, finish, advance]
  constructor
  · rintro ⟨u, hu, rfl⟩
    exact ⟨u, hu, rfl⟩
  · rintro ⟨u, hu, rfl⟩
    exact ⟨u, hu, rfl⟩

/-- A sub-block function always completes. -/
theorem answerWith_eq (r : Result) (s : State) : answerWith r s = .next (s.returned r) := rfl

/-- What a transmission does (spec/42_protocol_engine.md R220 to R223), where the stored frame lies in the
buffer: every field it writes. -/
theorem startTransmission_eq (P : Params) (s : State) (h : s.txLen ≤ P.maxFrame) :
    startTransmission P s = .next
      { s with
        rxIntEn := true
        rxFifo := []
        asmState := .waitingForStart
        rxCount := 0
        rxCursor := 0
        trace := s.trace ++ [.preamble P.preambleMs, .tx (s.txBuf.readBytes s.txLen)]
        txCursor := s.txLen
        tick := s.tick + Config.freeDelay s.draws
        draws := s.draws + 1
        deadline := s.tick + Config.freeDelay s.draws + BitVec.ofNat 32 P.timeoutMs
        engState := .waitingForResponse } := by
  simp [startTransmission, bufferRead, h, bufferReset, transmit, emit, arm]

/-- A transmission whose stored frame does not lie in the buffer is `BufferIndex`. -/
theorem startTransmission_fault (P : Params) (s : State) (h : ¬ s.txLen ≤ P.maxFrame) :
    startTransmission P s = .fault .bufferIndex := by
  simp [startTransmission, bufferRead, h]

end Sys2Proof.Machine
end

