-- ==== Sys2Proof/Laws/Assembler.lean ====
section
/-! SUPPORT. One lemma per shared operation of the assembler and of TASK: everything it can do. -/

namespace Sys2Proof.Machine

/-- Everything one assembler step on the byte `b` can do (spec/41_receive_assembler.md R160 to R168): its outcome and
the state it leaves. -/
inductive AsmCase (P : Params) (b : Byte) (s : State) : AsmOutcome → State → Prop
  /-- No start sentinel while waiting (R161). -/
  | skip : s.asmState = .waitingForStart → b ≠ rspStart →
      AsmCase P b s .none { s with rxCursor := s.rxCount }
  /-- The start sentinel (R160). -/
  | start : s.asmState = .waitingForStart → b = rspStart → 1 ≤ P.maxFrame →
      AsmCase P b s .none
        { s with rxBuf := s.rxBuf.write 0 b, asmState := .collecting, rxCount := 1, rxCursor := 1 }
  /-- The buffer is full (R163). -/
  | overflow : s.asmState = .collecting → s.rxCount = P.maxFrame →
      AsmCase P b s .overflow { s with asmState := .waitingForStart, rxCount := 0, rxCursor := 0 }
  /-- A byte that does not end the frame (R164, R166). -/
  | append : s.asmState = .collecting → s.rxCount < P.maxFrame → ¬ (b = rspEnd ∧ minEndCount < s.rxCount + 1) →
      AsmCase P b s .none
        { s with
          rxBuf := s.rxBuf.write s.rxCount b
          asmState := .collecting
          rxCount := s.rxCount + 1
          rxCursor := s.rxCount + 1 }
  /-- The byte that ends the frame (R165, R167). -/
  | complete : s.asmState = .collecting → s.rxCount < P.maxFrame → b = rspEnd ∧ minEndCount < s.rxCount + 1 →
      AsmCase P b s (.completed ((s.rxBuf.write s.rxCount b).readBytes (s.rxCount + 1)))
        { s with
          rxBuf := s.rxBuf.write s.rxCount b
          asmState := .waitingForStart
          rxCount := 0
          rxCursor := 0 }

/-- An assembler step that reaches a next state is one of the five cases. -/
theorem asmStep_cases {P : Params} {b : Byte} {s t : State} {o : AsmOutcome}
    (h : asmStep P b s = .next (o, t)) : AsmCase P b s o t := by
  unfold asmStep at h
  split at h
  · rename_i ha
    split_ifs at h with hb
    · simp only [bufferWrite] at h
      split_ifs at h with hl
      · simp [Memory.writeBytes, setAssembler] at h
        obtain ⟨rfl, rfl⟩ := h
        exact .start ha hb (by simpa using hl)
      · simp at h
    · cases h
      exact .skip ha hb
  · rename_i ha
    split_ifs at h with hc
    · cases h
      exact .overflow ha hc
    · simp only [appendByte, bufferWrite] at h
      split_ifs at h with hl
      · simp only [andThen_next] at h
        simp only [List.length_cons, List.length_nil, Nat.zero_add] at hl
        split_ifs at h with he
        · simp only [deliverFrame, bufferRead] at h
          split_ifs at h
          · simp [Memory.writeBytes, setAssembler] at h
            obtain ⟨rfl, rfl⟩ := h
            exact .complete ha (by omega) (by simpa [endsFrame, setAssembler] using he)
          · simp at h
        · simp [Memory.writeBytes, setAssembler] at h
          obtain ⟨rfl, rfl⟩ := h
          exact .append ha (by omega) (by simpa [endsFrame, setAssembler] using he)
      · simp at h
  · simp at h

/-- An assembler step completes where the assembler is stable and its count lies in the buffer. -/
theorem asmStep_total {P : Params} {b : Byte} {s : State} (hm : 1 ≤ P.maxFrame) (h1 : s.asmState ≠ .complete)
    (h2 : s.asmState = .collecting → s.rxCount ≤ P.maxFrame) : ∃ o t, asmStep P b s = .next (o, t) := by
  unfold asmStep
  split
  · split_ifs
    · simp [bufferWrite, hm]
    · exact ⟨_, _, rfl⟩
  · rename_i ha
    split_ifs with hc
    · exact ⟨_, _, rfl⟩
    · have : s.rxCount + 1 ≤ P.maxFrame := by have := h2 ha; omega
      simp only [appendByte, bufferWrite, List.length_cons, List.length_nil, Nat.zero_add, this, if_true,
        andThen_next]
      split_ifs
      · simp [deliverFrame, bufferRead, setAssembler, this]
      · exact ⟨_, _, rfl⟩
  · rename_i ha
    exact absurd ha h1

/-- The fields an assembler step may write: four, no more. -/
theorem asmStep_frame {P : Params} {b : Byte} {s t : State} {o : AsmOutcome} (h : asmStep P b s = .next (o, t)) :
    ∃ (buf : Memory) (a : AsmState) (n : Nat), t = { s with rxBuf := buf, asmState := a, rxCount := n, rxCursor := n } := by
  cases asmStep_cases h
  · exact ⟨s.rxBuf, s.asmState, s.rxCount, rfl⟩
  · exact ⟨_, _, 1, rfl⟩
  · exact ⟨s.rxBuf, _, 0, rfl⟩
  · exact ⟨_, _, s.rxCount + 1, rfl⟩
  · exact ⟨_, _, 0, rfl⟩

/-- An assembler step keeps the assembler stable (spec/10_state.md R50, R51) and its buffer in canonical form. -/
theorem asmStep_stable {P : Params} {b : Byte} {s t : State} {o : AsmOutcome} (h : asmStep P b s = .next (o, t))
    (hs : s.AssemblerStable P) (hw : s.rxBuf.wf = true) : t.AssemblerStable P ∧ t.rxBuf.wf = true := by
  cases asmStep_cases h with
  | skip ha hb => exact ⟨hs, hw⟩
  | start ha hb hm =>
    exact ⟨⟨by simp, by simp, fun _ => ⟨Nat.le_refl 1, hm, by simpa [hw] using hb⟩⟩, Memory.write_wf _ _ _ hw⟩
  | overflow ha hc => exact ⟨⟨by simp, by simp, by simp⟩, hw⟩
  | append ha hc he =>
    obtain ⟨h1, h2, h3⟩ := hs.2.2 ha
    exact ⟨⟨by simp, by simp, fun _ => ⟨Nat.le_add_left 1 _, hc,
      (Memory.read_write_other _ _ _ _ hw (by omega)).trans h3⟩⟩, Memory.write_wf _ _ _ hw⟩
  | complete ha hc he => exact ⟨⟨by simp, by simp, by simp⟩, Memory.write_wf _ _ _ hw⟩

/-- What processing a frame does (spec/42_protocol_engine.md R237): an error and events that its classification
gives, and the end of an outstanding exchange. -/
theorem processFrame_eq (P : Params) (f : List Byte) (s : State) :
    ∃ (e : ErrorCode) (es : List Event), processFrame P f s =
      { s with
        lastError := e
        trace := s.trace ++ es
        engState := if s.engState = .waitingForResponse then .idle else s.engState
        retryCount := if s.engState = .waitingForResponse then 0 else s.retryCount } ∧
      (match detect P f with
        | none => e = .invalidFrame ∧ es = errEvents s.errCb .invalidFrame
        | some rev =>
          if checksumValid f = true then
            e = s.lastError ∧ es = respEvents s.respCb (decodeRecord P f rev true)
          else
            e = .checksumMismatch ∧
              es = errEvents s.errCb .checksumMismatch ++ respEvents s.respCb (decodeRecord P f rev false)) := by
  unfold processFrame
  cases detect P f with
  | none => exact ⟨_, _, by simp only [raiseError_eq, endExchange_eq], rfl, rfl⟩
  | some rev =>
    simp only [deliverRecord]
    cases hc : checksumValid f with
    | true => exact ⟨s.lastError, _, by simp only [fireResponse_eq, endExchange_eq, if_true], rfl, rfl⟩
    | false =>
      refine ⟨.checksumMismatch, _, ?_, rfl, rfl⟩
      simp only [Bool.false_eq_true, if_false, raiseError_eq, fireResponse_eq, endExchange_eq, List.append_assoc]

/-- What TASK does on an overflow (R238). -/
theorem onOverflow_eq (s : State) : onOverflow s =
    { s with
      lastError := .bufferOverflow
      trace := s.trace ++ errEvents s.errCb .bufferOverflow
      engState := if s.engState = .waitingForResponse then .idle else s.engState
      retryCount := if s.engState = .waitingForResponse then 0 else s.retryCount } := by
  simp only [onOverflow, raiseError_eq, endExchange_eq]

/-- The fields an outcome may write: the last error, the trace, and those that end an exchange. -/
theorem onOutcome_frame (P : Params) (o : AsmOutcome) (s : State) : ∃ (e : ErrorCode) (es : List Event),
    onOutcome P o s =
      { s with
        lastError := e
        trace := s.trace ++ es
        engState := if s.engState = .waitingForResponse ∧ o ≠ .none then .idle else s.engState
        retryCount := if s.engState = .waitingForResponse ∧ o ≠ .none then 0 else s.retryCount } := by
  cases o with
  | none => exact ⟨s.lastError, [], by simp [onOutcome]⟩
  | overflow => exact ⟨_, _, by simp only [onOutcome, onOverflow_eq]; simp; exact ⟨rfl, rfl⟩⟩
  | completed f =>
    obtain ⟨e, es, h, _⟩ := processFrame_eq P f s
    exact ⟨e, es, by simp [onOutcome, h]⟩

/-- The drain over a nonempty FIFO, one byte at a time (R230). -/
theorem drain_cons (P : Params) (b : Byte) (rest : List Byte) (s : State) :
    drain P (b :: rest) s = andThen (takeByte P b { s with rxFifo := rest }) (drain P rest) := rfl

/-- The fields one byte of the drain may write (R230): those of an assembler step and those of its outcome; the engine
leaves an outstanding exchange or stays where it is. -/
theorem takeByte_frame {P : Params} {b : Byte} {s t : State} (h : takeByte P b s = .next t) :
    ∃ (buf : Memory) (a : AsmState) (n : Nat) (e : ErrorCode) (es : List Event) (g : EngState) (c : Byte),
      t =
        { s with
          rxBuf := buf
          asmState := a
          rxCount := n
          rxCursor := n
          lastError := e
          trace := s.trace ++ es
          engState := g
          retryCount := c } ∧
      (g = s.engState ∧ c = s.retryCount ∨ s.engState = .waitingForResponse ∧ g = .idle ∧ c = 0) := by
  obtain ⟨⟨o, u⟩, ha, hu⟩ := (andThen_eq_next _ _ _).mp h
  cases hu
  obtain ⟨buf, a, n, rfl⟩ := asmStep_frame ha
  obtain ⟨e, es, ho⟩ := onOutcome_frame P o { s with rxBuf := buf, asmState := a, rxCount := n, rxCursor := n }
  refine ⟨buf, a, n, e, es, _, _, ho, ?_⟩
  by_cases hw : s.engState = .waitingForResponse ∧ o ≠ .none <;> simp_all

/-- The fields a drain may write, and that it empties the FIFO (R200, R230). What it leaves alone is every other field:
the tick, the deadline and the command frame among them. -/
theorem drain_frame {P : Params} {bs : List Byte} {s t : State} (h : drain P bs s = .next t)
    (hf : bs = [] → s.rxFifo = []) :
    ∃ (buf : Memory) (a : AsmState) (n m : Nat) (e : ErrorCode) (es : List Event) (g : EngState) (c : Byte),
      t =
        { s with
          rxFifo := []
          rxBuf := buf
          asmState := a
          rxCount := n
          rxCursor := m
          lastError := e
          trace := s.trace ++ es
          engState := g
          retryCount := c } ∧
      (g = s.engState ∧ c = s.retryCount ∨ s.engState = .waitingForResponse ∧ g = .idle ∧ c = 0) := by
  induction bs generalizing s with
  | nil =>
    cases h
    exact ⟨t.rxBuf, t.asmState, t.rxCount, t.rxCursor, t.lastError, [], _, _, by simp [← hf rfl], .inl ⟨rfl, rfl⟩⟩
  | cons b rest ih =>
    obtain ⟨u, hb, hr⟩ := (andThen_eq_next _ _ _).mp h
    obtain ⟨buf, a, n, e, es, g, c, rfl, hg⟩ := takeByte_frame hb
    obtain ⟨buf', a', n', m', e', es', g', c', rfl, hg'⟩ := ih hr id
    refine ⟨buf', a', n', m', e', es ++ es', g', c', by simp, ?_⟩
    simp only at hg hg'
    rcases hg with ⟨rfl, rfl⟩ | ⟨hw, rfl, rfl⟩ <;> simp_all

/-- A drain completes where the assembler is stable, and leaves it stable. -/
theorem drain_total {P : Params} {bs : List Byte} {s : State} (hm : 1 ≤ P.maxFrame) (hs : s.AssemblerStable P)
    (hw : s.rxBuf.wf = true) : ∃ t, drain P bs s = .next t ∧ t.AssemblerStable P ∧ t.rxBuf.wf = true := by
  induction bs generalizing s with
  | nil => exact ⟨s, rfl, hs, hw⟩
  | cons b rest ih =>
    obtain ⟨o, u, hu⟩ := asmStep_total (b := b) (s := { s with rxFifo := rest }) hm hs.1 fun h => (hs.2.2 h).2.1
    obtain ⟨hu1, hu2⟩ := asmStep_stable hu hs hw
    obtain ⟨e, es, ho⟩ := onOutcome_frame P o u
    obtain ⟨t, ht, hst⟩ := ih (s := onOutcome P o u) (by rw [ho]; exact hu1) (by rw [ho]; exact hu2)
    exact ⟨t, by rw [drain_cons, takeByte, hu]; exact ht, hst⟩

/-- A byte without a start sentinel is discarded by a waiting assembler (R161). -/
theorem takeByte_skip {P : Params} {b : Byte} {s : State} (ha : s.asmState = .waitingForStart) (hb : b ≠ rspStart) :
    takeByte P b s = .next { s with rxCursor := s.rxCount } := by
  simp [takeByte, asmStep, ha, hb, onOutcome]

/-- The start sentinel at a waiting assembler (R160). -/
theorem takeByte_start {P : Params} {s : State} (ha : s.asmState = .waitingForStart) (hm : 1 ≤ P.maxFrame) :
    takeByte P rspStart s =
      .next { s with rxBuf := s.rxBuf.write 0 rspStart, asmState := .collecting, rxCount := 1, rxCursor := 1 } := by
  simp [takeByte, asmStep, ha, bufferWrite, hm, Memory.writeBytes, setAssembler, onOutcome]

/-- A byte that has room and does not end the frame (R164, R166). -/
theorem takeByte_append {P : Params} {b : Byte} {s : State} (ha : s.asmState = .collecting)
    (hl : s.rxCount < P.maxFrame) (hb : b = rspEnd → s.rxCount < minEndCount) :
    takeByte P b s =
      .next
        { s with rxBuf := s.rxBuf.write s.rxCount b, rxCount := s.rxCount + 1, rxCursor := s.rxCount + 1 } := by
  have he : ¬ (b = rspEnd ∧ minEndCount ≤ s.rxCount) := fun h => absurd (hb h.1) (Nat.not_lt.mpr h.2)
  simp [takeByte, asmStep, ha, Nat.ne_of_lt hl, appendByte, bufferWrite, Nat.succ_le_of_lt hl, Memory.writeBytes,
    setAssembler, endsFrame, he, onOutcome]

/-- The byte that ends the frame (R165, R167): the frame is processed from a waiting assembler. -/
theorem takeByte_complete {P : Params} {s : State} (ha : s.asmState = .collecting) (hl : s.rxCount < P.maxFrame)
    (he : minEndCount < s.rxCount + 1) :
    takeByte P rspEnd s =
      .next (processFrame P ((s.rxBuf.write s.rxCount rspEnd).readBytes (s.rxCount + 1))
        { s with
          rxBuf := s.rxBuf.write s.rxCount rspEnd
          asmState := .waitingForStart
          rxCount := 0
          rxCursor := 0 }) := by
  simp [takeByte, asmStep, ha, Nat.ne_of_lt hl, appendByte, bufferWrite, Nat.succ_le_of_lt hl, Memory.writeBytes,
    setAssembler, endsFrame, he, deliverFrame, bufferRead, onOutcome]

/-- A byte at a full buffer (R163, R238). -/
theorem takeByte_overflow {P : Params} {b : Byte} {s : State} (ha : s.asmState = .collecting)
    (hl : s.rxCount = P.maxFrame) :
    takeByte P b s = .next (onOverflow { s with asmState := .waitingForStart, rxCount := 0, rxCursor := 0 }) := by
  simp [takeByte, asmStep, ha, hl, setAssembler, onOutcome]

/-- Draining bytes of a frame that fit and do not end it (R164, R166). -/
theorem drain_collecting {P : Params} {bs more : List Byte} {s : State} (hne : bs ≠ []) (ha : s.asmState = .collecting)
    (hl : s.rxCount + bs.length ≤ P.maxFrame) (hb : ∀ k, bs.getD k 0 = rspEnd → s.rxCount + k < minEndCount) :
    drain P (bs ++ more) s = drain P more
      { s with
        rxFifo := more
        rxBuf := s.rxBuf.writeBytes s.rxCount bs
        rxCount := s.rxCount + bs.length
        rxCursor := s.rxCount + bs.length } := by
  induction bs generalizing s with
  | nil => exact absurd rfl hne
  | cons b bs ih =>
    simp only [List.length_cons] at hl
    rw [List.cons_append, drain_cons, takeByte_append (P := P) (b := b) (s := { s with rxFifo := bs ++ more }) ha
      (by show s.rxCount < _; omega) (hb 0), andThen_next]
    by_cases h : bs = []
    · subst h
      rfl
    · rw [ih h]
      · simp only [Memory.writeBytes, List.length_cons, Nat.add_assoc, Nat.add_comm 1]
      · exact ha
      · show s.rxCount + 1 + bs.length ≤ _
        omega
      · intro k hk
        have := hb (k + 1) hk
        show s.rxCount + 1 + k < _
        omega

/-- Draining bytes without a start sentinel at a waiting assembler (R161). -/
theorem drain_noise {P : Params} {bs more : List Byte} {s : State} (hne : bs ≠ []) (ha : s.asmState = .waitingForStart)
    (hb : rspStart ∉ bs) :
    drain P (bs ++ more) s = drain P more { s with rxFifo := more, rxCursor := s.rxCount } := by
  induction bs generalizing s with
  | nil => exact absurd rfl hne
  | cons b bs ih =>
    simp only [List.mem_cons, not_or] at hb
    rw [List.cons_append, drain_cons, takeByte_skip (P := P) (s := { s with rxFifo := bs ++ more }) ha
      (Ne.symm hb.1), andThen_next]
    by_cases h : bs = []
    · subst h
      rfl
    · exact ih h ha hb.2

/-- The drain's order of bytes alone matters, not what the FIFO held before it. -/
theorem drain_fifo {P : Params} {bs : List Byte} {s : State} (q : List Byte) (hne : bs ≠ []) :
    drain P bs { s with rxFifo := q } = drain P bs s := by
  cases bs with
  | nil => exact absurd rfl hne
  | cons b bs => rfl

/-- Everything a drain over bytes that finish no frame and overflow nothing does: the assembler's buffer, state and
counts, and the FIFO, no more. -/
theorem drain_unfinished {P : Params} {n : Nat} {noise rest more : List Byte} {s : State}
    (h : s.Unfinished P n noise rest) (hne : noise ++ rest ≠ []) :
    drain P (noise ++ rest ++ more) s = drain P more
      { s with
        rxFifo := more
        rxBuf := s.rxBuf.writeBytes n rest
        asmState := if rest = [] then s.asmState else .collecting
        rxCount := if rest = [] then s.rxCount else n + rest.length
        rxCursor := if rest = [] then s.rxCount else n + rest.length } := by
  obtain ⟨hl, hb, ⟨ha, rfl, rfl⟩ | ⟨ha, hs, rfl, hr⟩⟩ := h
  · have hr : rest ≠ [] := by simpa using hne
    rw [List.nil_append, drain_collecting hr ha hl hb]
    simp only [hr, if_false, ← ha]
  have hstart : ∀ t : State, t.asmState = .waitingForStart → rest ≠ [] → drain P (rest ++ more) t = drain P more
      { t with
        rxFifo := more
        rxBuf := t.rxBuf.writeBytes 0 rest
        asmState := .collecting
        rxCount := 0 + rest.length
        rxCursor := 0 + rest.length } := by
    intro t ht hne
    cases rest with
    | nil => exact absurd rfl hne
    | cons b bs =>
      obtain rfl : b = rspStart := by simpa using hr
      simp only [List.length_cons] at hl
      rw [List.cons_append, drain_cons, takeByte_start (P := P) (s := { t with rxFifo := bs ++ more }) ht
        (by omega), andThen_next]
      by_cases h : bs = []
      · subst h
        rfl
      · refine (drain_collecting h rfl (by show 1 + bs.length ≤ _; omega)
          fun k hk => by have := hb (k + 1) hk; show 1 + k < _; omega).trans ?_
        simp only [Memory.writeBytes, List.length_cons, Nat.add_comm 1, Nat.zero_add]
  by_cases hn : noise = []
  · subst hn
    have hr : rest ≠ [] := by simpa using hne
    rw [List.nil_append, hstart s ha hr]
    simp only [hr, if_false]
  · rw [List.append_assoc, drain_noise hn ha hs]
    by_cases hr : rest = []
    · subst hr
      rfl
    · rw [hstart _ _ hr]
      · simp only [hr, if_false]
      · exact ha

/-- What storing a sequence makes of a buffer. -/
theorem storedFrom_writeBytes (m : Memory) (n : Nat) (bs : List Byte) (h : bs ≠ [] → m.wf = true) :
    storedFrom m (m.writeBytes n bs) n bs := by
  refine ⟨fun hb => by subst hb; rfl, fun k => ?_⟩
  by_cases hb : bs = []
  · subst hb
    rw [if_neg (by simp)]
    rfl
  · exact Memory.read_writeBytes _ _ _ _ (h hb)

/-- What abandoning an exchange on a timeout does (R232, R235). -/
theorem onTimeout_abandon (P : Params) (s : State) (h : ¬ s.retryCount.toNat < maxRetry) :
    onTimeout P s = .next
      { s with
        lastError := .timeout
        trace := s.trace ++ errEvents s.errCb .timeout
        engState := .idle
        retryCount := 0 } := by
  simp only [onTimeout, raiseError_eq, h, if_false, returnToIdle]

end Sys2Proof.Machine
end

