-- ==== Sys2Proof/Laws/Functions.lean ====
section
/-! SUPPORT. One lemma per operand form and per function over a byte sequence. -/

namespace Sys2Proof.Machine

/-- `b[7:4]` as a number. -/
theorem highNibble_toNat (b : Byte) : (highNibble b).toNat = b.toNat / 16 := by
  revert b; decide

/-- `b[3:0]` as a number. -/
theorem lowNibble_toNat (b : Byte) : (lowNibble b).toNat = b.toNat % 16 := by
  revert b; decide

/-- When both nibbles are digits (spec/44_field_decoder.md R285). -/
theorem isBcd_iff (b : Byte) : isBcd b = true ↔ b.toNat / 16 ≤ 9 ∧ b.toNat % 16 ≤ 9 := by
  simp [isBcd, highNibble_toNat, lowNibble_toNat]

/-- The two top bits of a byte, one by one (spec/43_version_detector.md R257). -/
theorem topBits_ne_zero (b : Byte) : b.extractLsb' 6 2 ≠ 0 ↔ b.getLsbD 7 = true ∨ b.getLsbD 6 = true := by
  revert b; decide

/-- BUILD inside the bound (spec/40_frame_builder.md R142). -/
theorem buildFrame_some (P : Params) (c : Byte) (d : List Byte) (h : d.length ≤ P.maxFrame - 4) :
    buildFrame P c d = some (frameBody c d ++ [xor8 (frameBody c d)]) := by
  simp [buildFrame, payloadInBound, h]

/-- BUILD over the bound (R143). -/
theorem buildFrame_none (P : Params) (c : Byte) (d : List Byte) (h : P.maxFrame - 4 < d.length) :
    buildFrame P c d = none := by
  simp [buildFrame, payloadInBound]; omega

/-- The checksum of a sequence folds from any start (R141). -/
theorem xor8_foldl (c : Byte) (s : List Byte) : s.foldl (fun c b => c ^^^ b) c = c ^^^ xor8 s := by
  induction s generalizing c with
  | nil => simp [xor8]
  | cons b s ih => simp only [xor8, List.foldl_cons, ih (c ^^^ b), ih (0 ^^^ b)]; simp [BitVec.xor_assoc]

/-- The checksum of one sequence after another. -/
theorem xor8_append (s t : List Byte) : xor8 (s ++ t) = xor8 s ^^^ xor8 t := by
  simp only [xor8, List.foldl_append]
  rw [xor8_foldl]
  rfl

/-- What structural validation demands, all at once (spec/43_version_detector.md R252). -/
theorem validate_iff (P : Params) (f : List Byte) : validate P f = true ↔
    7 ≤ f.length ∧ byteAt f 0 = rspStart ∧ byteAt f 3 = rspStart ∧ byteAt f (f.length - 1) = rspEnd ∧
    byteAt f 2 = byteAt f 1 ∧ P.lMin ≤ (byteAt f 1).toNat ∧ (byteAt f 1).toNat ≤ P.lMax ∧
    f.length = (byteAt f 1).toNat + 6 := by
  unfold validate
  split_ifs <;> simp only [false_iff, true_iff] <;>
    (try rintro ⟨a1, a2, a3, a4, a5, a6, a7, a8⟩) <;> first
    | tauto
    | omega
    | (simp only [not_or, not_not] at *
       exact ⟨by omega, by tauto, by tauto, by tauto, by tauto, by omega, by omega, by tauto⟩)

/-- A frame with a revision is structurally valid. -/
theorem detect_valid {P : Params} {f : List Byte} {rev : Revision} (h : detect P f = some rev) :
    validate P f = true := by
  by_contra hv
  simp [detect, hv] at h

/-- A frame with a revision has at least 21 bytes, whatever the parameters. -/
theorem detect_length {f : List Byte} {rev : Revision} (h : detect Config.params f = some rev) :
    21 ≤ f.length := by
  have hv := (validate_iff _ _).mp (detect_valid h)
  have := lMin_ge
  omega

/-- A stored byte does not change another. -/
theorem byteAt_set_other (f : List Byte) (j k : Nat) (x : Byte) (h : k ≠ j) : byteAt (f.set k x) j = byteAt f j := by
  simp [byteAt, List.getD_eq_getElem?_getD, h]

/-- A placed entry is the one at its index (notes/assumptions/8.md). -/
theorem placeAt_get (es : List (List Byte)) (n : Nat) (w : List Byte) : (placeAt es n w)[n]? = some w := by
  induction n generalizing es with
  | zero => cases es <;> simp [placeAt]
  | succ n ih => cases es <;> simp [placeAt, ih]

end Sys2Proof.Machine
end

