-- ==== Sys2Proof/Laws/PerInstr.lean ====
section
/-! SUPPORT. Facts said once per operation. -/

namespace Sys2Proof.Laws

/-- The one-byte count of a payload that fits it reads back as its length. -/
theorem payloadCount_toNat (d : List Byte) (h : payloadFits d) : (payloadCount d).toNat = d.length := by
  simp only [payloadCount, BitVec.toNat_ofNat]
  omega

/-- The two count bytes of a sequence that fits them read back as its length. -/
theorem countOf_sequence (s : List Byte) (h : sequenceFits s) :
    countOf (BitVec.ofNat 8 (s.length % 256)) (BitVec.ofNat 8 (s.length / 256)) = s.length := by
  simp only [countOf, BitVec.toNat_ofNat]
  omega

end Sys2Proof.Laws

namespace Sys2Proof.Laws.EncodedLength

/-- The length found from an operation's opcode byte and count field is the length of its encoding
(spec/30_encoding.md R122), whatever bytes follow. -/
def Statement (i : Instr) : Prop :=
  i.wellFormed = true → ∀ rest : List Byte, operationLength (encode i ++ rest) = some (encode i).length

theorem init : Statement .init := fun _ _ => rfl

theorem setrcb (h : Byte) : Statement (.setrcb h) := fun _ _ => rfl

theorem setecb (h : Byte) : Statement (.setecb h) := fun _ _ => rfl

theorem send (a : Byte) (c : Byte) (d : List Byte) : Statement (.send a c d) := by
  intro h rest
  have hn := payloadCount_toNat d (of_decide_eq_true h)
  simp only [operationLength, encode, opcodeShape, List.cons_append, BitVec.reduceToNat, Option.map_some,
    shapeLength, List.getD_cons_zero, List.getD_cons_succ, List.length_cons, hn, Option.some.injEq]
  omega

theorem task : Statement .task := fun _ _ => rfl

theorem getstate : Statement .getstate := fun _ _ => rfl

theorem geterr : Statement .geterr := fun _ _ => rfl

theorem reset : Statement .reset := fun _ _ => rfl

theorem rxpush (b : Byte) : Statement (.rxpush b) := fun _ _ => rfl

theorem tick : Statement .tick := fun _ _ => rfl

theorem build (c : Byte) (d : List Byte) : Statement (.build c d) := by
  intro h rest
  have hn := payloadCount_toNat d (of_decide_eq_true h)
  simp only [operationLength, encode, opcodeShape, List.cons_append, BitVec.reduceToNat, Option.map_some,
    shapeLength, List.getD_cons_zero, List.getD_cons_succ, List.length_cons, hn, Option.some.injEq]
  omega

theorem xor8 (s : List Byte) : Statement (.xor8 s) := by
  intro h rest
  have hn := countOf_sequence s (of_decide_eq_true h)
  simp only [operationLength, encode, sequenceBytes, opcodeShape, List.cons_append, BitVec.reduceToNat,
    Option.map_some, shapeLength, List.getD_cons_zero, List.getD_cons_succ, List.length_cons, hn, Option.some.injEq]
  omega

theorem asmbyte (b : Byte) : Statement (.asmbyte b) := fun _ _ => rfl

theorem validate (f : List Byte) : Statement (.validate f) := by
  intro h rest
  have hn := countOf_sequence f (of_decide_eq_true h)
  simp only [operationLength, encode, sequenceBytes, opcodeShape, List.cons_append, BitVec.reduceToNat,
    Option.map_some, shapeLength, List.getD_cons_zero, List.getD_cons_succ, List.length_cons, hn, Option.some.injEq]
  omega

theorem cksum (f : List Byte) : Statement (.cksum f) := by
  intro h rest
  have hn := countOf_sequence f (of_decide_eq_true h)
  simp only [operationLength, encode, sequenceBytes, opcodeShape, List.cons_append, BitVec.reduceToNat,
    Option.map_some, shapeLength, List.getD_cons_zero, List.getD_cons_succ, List.length_cons, hn, Option.some.injEq]
  omega

theorem detect (f : List Byte) : Statement (.detect f) := by
  intro h rest
  have hn := countOf_sequence f (of_decide_eq_true h)
  simp only [operationLength, encode, sequenceBytes, opcodeShape, List.cons_append, BitVec.reduceToNat,
    Option.map_some, shapeLength, List.getD_cons_zero, List.getD_cons_succ, List.length_cons, hn, Option.some.injEq]
  omega

theorem bcd4 (b0 : Byte) (b1 : Byte) (b2 : Byte) (b3 : Byte) : Statement (.bcd4 b0 b1 b2 b3) := fun _ _ => rfl

theorem diam (b : Byte) : Statement (.diam b) := fun _ _ => rfl

theorem batt (c : Byte) : Statement (.batt c) := fun _ _ => rfl

theorem status (r : Byte) (s : Byte) (v : Byte) : Statement (.status r s v) := fun _ _ => rfl

theorem udf (u : List Byte) : Statement (.udf u) := by
  intro h rest
  have hn := countOf_sequence u (of_decide_eq_true h)
  simp only [operationLength, encode, sequenceBytes, opcodeShape, List.cons_append, BitVec.reduceToNat,
    Option.map_some, shapeLength, List.getD_cons_zero, List.getD_cons_succ, List.length_cons, hn, Option.some.injEq]
  omega

theorem decode (f : List Byte) : Statement (.decode f) := by
  intro h rest
  have hn := countOf_sequence f (of_decide_eq_true h)
  simp only [operationLength, encode, sequenceBytes, opcodeShape, List.cons_append, BitVec.reduceToNat,
    Option.map_some, shapeLength, List.getD_cons_zero, List.getD_cons_succ, List.length_cons, hn, Option.some.injEq]
  omega

theorem sum8 (s : List Byte) : Statement (.sum8 s) := by
  intro h rest
  have hn := countOf_sequence s (of_decide_eq_true h)
  simp only [operationLength, encode, sequenceBytes, opcodeShape, List.cons_append, BitVec.reduceToNat,
    Option.map_some, shapeLength, List.getD_cons_zero, List.getD_cons_succ, List.length_cons, hn, Option.some.injEq]
  omega

end Sys2Proof.Laws.EncodedLength
end

