-- ==== Sys2Proof/Tests/Slice0.lean ====
section
/-! SUPPORT. Tests of the model, with results taken from spec/95_test_vectors.md (V-…) or the rule named, at its
reference configuration; and for each statement a witness that meets its hypotheses. -/

namespace Sys2Proof.Tests

open Sys2Proof.Machine

/-! ## Well-formedness: one ill-formed term for each check -/

theorem test_wellFormed_payload :
    (Instr.send 0x01 0x5B (List.replicate 255 0)).wellFormed = true ∧
    (Instr.send 0x01 0x5B (List.replicate 256 0)).wellFormed = false ∧
    (Instr.build 0x5B (List.replicate 255 0)).wellFormed = true ∧
    (Instr.build 0x5B (List.replicate 256 0)).wellFormed = false := by
  simp only [Instr.wellFormed, payloadFits, List.length_replicate]
  decide

theorem test_wellFormed_sequence (k : List Byte → Instr)
    (h : k = .xor8 ∨ k = .validate ∨ k = .cksum ∨ k = .detect ∨ k = .udf ∨ k = .decode ∨ k = .sum8) :
    (k (List.replicate 65535 0)).wellFormed = true ∧ (k (List.replicate 65536 0)).wellFormed = false := by
  rcases h with rfl | rfl | rfl | rfl | rfl | rfl | rfl <;>
    simp only [Instr.wellFormed, sequenceFits, List.length_replicate] <;> decide

theorem test_wellFormed_revision :
    (Instr.status 1 0 0).wellFormed = true ∧ (Instr.status 4 0 0).wellFormed = true ∧
    (Instr.status 0 0 0).wellFormed = false ∧ (Instr.status 5 0 0).wellFormed = false := by decide

/-! ## Decoding: a word of each constructor, its opcode byte bit by bit from spec/opcode_table.json -/

theorem test_decode_init : decode [0b00000001] = .op .init [] := by decide
theorem test_decode_setrcb : decode [0b00000010, 0x01] = .op (.setrcb 0x01) [] := by decide
theorem test_decode_setecb : decode [0b00000011, 0x02] = .op (.setecb 0x02) [] := by decide
theorem test_decode_send :
    decode [0b00000100, 0x01, 0x5B, 0x02, 0x5C, 0x5D] = .op (.send 0x01 0x5B [0x5C, 0x5D]) [] := by decide
theorem test_decode_task : decode [0b00000101] = .op .task [] := by decide
theorem test_decode_getstate : decode [0b00000110] = .op .getstate [] := by decide
theorem test_decode_geterr : decode [0b00000111] = .op .geterr [] := by decide
theorem test_decode_reset : decode [0b00001000] = .op .reset [] := by decide
theorem test_decode_rxpush : decode [0b00010000, 0x68] = .op (.rxpush 0x68) [] := by decide
theorem test_decode_tick : decode [0b00010001] = .op .tick [] := by decide
/-- V-E1's encoding. -/
theorem test_decode_build : decode [0b00100000, 0x5B, 0x01, 0x5C] = .op (.build 0x5B [0x5C]) [] := by decide
/-- V-E1's encoding: the low count byte comes first. -/
theorem test_decode_xor8 :
    decode [0b00100001, 0x04, 0x00, 0x10, 0x5B, 0x01, 0x5C] = .op (.xor8 [0x10, 0x5B, 0x01, 0x5C]) [] := by decide
theorem test_decode_asmbyte : decode [0b00100010, 0x16] = .op (.asmbyte 0x16) [] := by decide
theorem test_decode_validate : decode [0b00100011, 0x02, 0x00, 0x68, 0x0F] = .op (.validate [0x68, 0x0F]) [] := by decide
theorem test_decode_cksum : decode [0b00100100, 0x02, 0x00, 0x68, 0x0F] = .op (.cksum [0x68, 0x0F]) [] := by decide
theorem test_decode_detect : decode [0b00100101, 0x02, 0x00, 0x68, 0x0F] = .op (.detect [0x68, 0x0F]) [] := by decide
theorem test_decode_bcd4 :
    decode [0b00100110, 0x78, 0x56, 0x34, 0x12] = .op (.bcd4 0x78 0x56 0x34 0x12) [] := by decide
theorem test_decode_diam : decode [0b00100111, 0xC0] = .op (.diam 0xC0) [] := by decide
theorem test_decode_batt : decode [0b00101000, 0x1F] = .op (.batt 0x1F) [] := by decide
theorem test_decode_status : decode [0b00101001, 0x03, 0x84, 0x13] = .op (.status 0x03 0x84 0x13) [] := by decide
theorem test_decode_udf : decode [0b00101010, 0x02, 0x00, 0x0F, 0x12] = .op (.udf [0x0F, 0x12]) [] := by decide
theorem test_decode_decode : decode [0b00101011, 0x02, 0x00, 0x68, 0x0F] = .op (.decode [0x68, 0x0F]) [] := by decide
theorem test_decode_sum8 : decode [0b00101100, 0x02, 0x00, 0xFF, 0x01] = .op (.sum8 [0xFF, 0x01]) [] := by decide

/-- V-D48 to V-D51; the high count byte counts 256s. -/
theorem test_decode_refusals :
    decode [0x00] = .bad .unknownOp ∧ decode [0x2D] = .bad .unknownOp ∧
    decode [0x04, 0x01, 0x5B, 0x02, 0x5C] = .bad .truncated ∧ decode [0x21, 0x02, 0x00, 0x10] = .bad .truncated ∧
    decode [0x21, 0x00, 0x01, 0x10] = .bad .truncated := by decide

/-- V-D44; the revision is refused before the bytes after the operation are, and after the length (R122, R333). -/
theorem test_decode_badOperand :
    decode [0x29, 0x05, 0x00, 0x00] = .bad .badOperand ∧ decode [0x29, 0x00, 0x00, 0x00, 0x05] = .bad .badOperand ∧
    decode [0x29, 0x00, 0x00] = .bad .truncated ∧ decodeTableWord 32 0x29 = none ∧
    decodeTableWord 32 0x0129 = some (.status 1 0 0) := by decide

/-- The table's numbering: the first byte is the least significant one; a count the number does not reach is 0. -/
theorem test_tableWord :
    decodeTableWord 8 0x05 = some .task ∧ decodeTableWord 16 0x6810 = some (.rxpush 0x68) ∧
    decodeTableWord 8 0x04 = some (.send 0 0 []) ∧ decodeTableWord 8 0x2C = some (.sum8 []) ∧
    decodeTableWord 8 0x00 = none := by decide

/-! ## Frames of the spec -/

/-- V-E3. -/
def frame11 : List Byte :=
  [0x68, 0x0F, 0x0F, 0x68, 0x08, 0x01, 0x78, 0x0F, 0x12, 0x34, 0x56, 0x78, 0x84, 0x1C, 0x13, 0x00, 0x00, 0x12,
    0x34, 0x9D, 0x16]

/-- A frame of revisions 2 to 4: the first bytes of V-D20 to V-D24, then the bytes from UserData offset 5 on. -/
def frameL19 (tail : List Byte) : List Byte :=
  [0x68, 0x13, 0x13, 0x68, 0x08, 0x01, 0x78, 0x0F, 0x12, 0x34, 0x56, 0x78] ++ tail

/-- V-D21. -/
def frame13 : List Byte :=
  frameL19 [0x85, 0x3C, 0x02, 0x00, 0x00, 0x12, 0x34, 0x03, 0x11, 0x4D, 0x25, 0x33, 0x16]

/-- V-D22. -/
def frame14 : List Byte :=
  frameL19 [0x85, 0xCC, 0xC2, 0x99, 0x99, 0x99, 0x99, 0x04, 0x12, 0x4D, 0x25, 0xA3, 0x16]

/-- The record of V-E3. -/
def record11 : Record where
  revision := .v11
  checksumValid := true
  markerValid := true
  c := 0x08
  a := 0x01
  ci := 0x78
  meterId := 78563412
  statusRaw := 0x84
  status :=
    { flowExceeded := false
      reverseFlow := false
      indoorLeak := true
      lowBattery := some false
      batteryDecivolts := none
      magnetDetected := none
      freezeWarning := none }
  diameterMm := 15
  decimalPoint := 3
  reading := 34120000
  udf := none
  frame := frame11
  frameLen := 21

/-! ## Byte stores -/

theorem test_memory_canonical :
    Memory.write [(1, 0x68), (4, 0x16)] 4 0 = [(1, 0x68)] ∧ Memory.write [(1, 0x68)] 0 0x10 = [(0, 0x10), (1, 0x68)] ∧
    Memory.wf [(1, 0x68), (0, 0x10)] = false ∧ Memory.wf [(1, 0x00)] = false := by decide

theorem test_memory_read :
    (Memory.writeBytes [] 2 [0x68, 0x00, 0x16]).readBytes 6 = [0x00, 0x00, 0x68, 0x00, 0x16, 0x00] := by decide

/-! ## FrameBuilder -/

/-- V-E1, V-D2, V-D3. -/
theorem test_xor8 :
    xor8 [0x10, 0x5B, 0x01, 0x5C] = 0x16 ∧ xor8 [0xFF, 0x01] = 0xFE ∧ xor8 [0x10, 0x5B, 0x01, 0x5C, 0x16] = 0x00 := by
  decide

/-- V-E1, V-D6: sentinel values in the payload are not escaped. -/
theorem test_build :
    buildFrame Params.reference 0x5B [0x5C] = some [0x10, 0x5B, 0x01, 0x5C, 0x16] ∧
    buildFrame Params.reference 0x00 [0x10, 0x68, 0x16] = some [0x10, 0x00, 0x03, 0x10, 0x68, 0x16, 0x7D] := by decide

/-- V-D7, V-D8: the bound is 60 bytes. -/
theorem test_build_bound :
    (buildFrame Params.reference 0x5B (List.replicate 60 0)).isSome = true ∧
    buildFrame Params.reference 0x5B (List.replicate 61 0) = none := by decide

/-! ## The engine's states -/

/-- A ready engine, as INIT leaves it, with both callbacks registered. -/
def ready : State := { State.reset with initialised := true, respCb := some 1, errCb := some 2 }

/-- An engine waiting for the answer to `10 5B 01 5C 16` since tick 0. -/
def waiting : State :=
  { ready with
    engState := .waitingForResponse
    txBuf := [(0, 0x10), (1, 0x5B), (2, 0x01), (3, 0x5C), (4, 0x16)]
    txLen := 5
    txCursor := 5
    deadline := 1000 }

/-- An assembler that has taken the six bytes `68 03 03 68 08 01`. -/
def collecting : State :=
  { ready with
    asmState := .collecting
    rxBuf := [(0, 0x68), (1, 0x03), (2, 0x03), (3, 0x68), (4, 0x08), (5, 0x01)]
    rxCount := 6
    rxCursor := 6 }

/-- What is reached satisfies a test. -/
def after {σ : Type} (o : Host.Outcome σ Fault Refusal) (p : σ → Bool) : Bool :=
  match o with
  | .next t => p t
  | .fault _ => false
  | .refused _ => false

/-- The answer is a fault, and which one. -/
def stops (o : Answer) (f : Fault) : Bool :=
  match o with
  | .next _ => false
  | .fault g => g == f
  | .refused _ => false

/-- Drain a FIFO through the assembler at the reference configuration. -/
def received (bs : List Byte) (s : State) : Answer := runTask Params.reference { s with rxFifo := bs }

/-! ## ReceiveAssembler -/

/-- V-D12: the shortest completion; V-D11: an end sentinel at count 6 is data. -/
theorem test_asmbyte_completes :
    after (asmStep Params.reference 0x16 collecting) (fun r =>
      r.1 == .completed [0x68, 0x03, 0x03, 0x68, 0x08, 0x01, 0x16] && r.2.asmState == .waitingForStart &&
      r.2.rxCount == 0 && r.2.rxCursor == 0) = true := by decide

theorem test_asmbyte_data :
    after (asmStep Params.reference 0x16 { collecting with rxCount := 5, rxCursor := 5 }) (fun r =>
      r.1 == .none && r.2.asmState == .collecting && r.2.rxCount == 6 &&
      r.2.rxBuf == [(0, 0x68), (1, 0x03), (2, 0x03), (3, 0x68), (4, 0x08), (5, 0x16)]) = true := by decide

/-! ## Validation, checksum, detection -/

/-- V-E3; V-D17a to V-D17d, V-D17f. -/
theorem test_validate :
    validate Params.reference frame11 = true ∧
    ([(2, 0x10), (3, 0x69), (0, 0x67), (20, 0x17)].all fun p =>
      validate Params.reference (frame11.set p.1 p.2) = false) = true ∧
    validate Params.reference (frame11.take 20 ++ [0x00, 0x16]) = false := by decide

/-- V-D17e: L below the range. -/
theorem test_validate_range :
    validate Params.reference
      [0x68, 0x0E, 0x0E, 0x68, 0x08, 0x01, 0x78, 0x0F, 0x12, 0x34, 0x56, 0x78, 0x84, 0x1C, 0x13, 0x00, 0x00, 0x12,
        0x69, 0x16] = false := by decide

/-- V-E3, V-E4; V-D18. -/
theorem test_cksum :
    checksumValid frame11 = true ∧ checksumValid (frame11.set 19 0xC8) = false ∧
    checksumValid [0x01, 0x02, 0x03, 0x04, 0x05] = false ∧
    checksumValid [0x68, 0x00, 0x00, 0x68, 0x00, 0x16] = true := by decide

/-- V-E3: the sum of the frame indices 4 to 18; V-D18. -/
theorem test_sum8 : sum8 (bytesFrom frame11 4 15) = 0x9D ∧ sum8 [0xFF, 0x01] = 0x00 ∧ sum8 [] = 0x00 := by decide

/-- V-E3, V-D20 to V-D22: the tag decides. -/
theorem test_detect :
    detect Params.reference frame11 = some .v11 ∧
    detect Params.reference
      (frameL19 [0x0D, 0x1C, 0x13, 0x00, 0x00, 0x12, 0x34, 0x02, 0x07, 0x12, 0x34, 0x75, 0x16]) = some .v12 ∧
    detect Params.reference frame13 = some .v13 ∧ detect Params.reference frame14 = some .v14 := by decide

/-- V-D23, V-D24: the high bits, then the default; V-D26: the length wins over the high bits. -/
theorem test_detect_fallback :
    detect Params.reference
      (frameL19 [0x07, 0x2C, 0x81, 0x01, 0x00, 0x00, 0x00, 0x00, 0x01, 0x00, 0x01, 0x5B, 0x16]) = some .v14 ∧
    detect Params.reference
      (frameL19 [0x84, 0x1C, 0x32, 0x00, 0x00, 0x12, 0x34, 0x09, 0x05, 0xAB, 0xCD, 0x42, 0x16]) = some .v12 ∧
    detect Params.reference (frame11.set 14 0xC3) = some .v11 := by decide

/-! ## FieldDecoder -/

/-- V-E2, V-D30, V-D32. -/
theorem test_bcd4 :
    bcd4 0x78 0x56 0x34 0x12 = 12345678 ∧ bcd4 0x78 0x56 0x34 0x1A = 0 ∧ bcd4 0xA0 0x00 0x00 0x00 = 0 ∧
    bcd4 0x99 0x99 0x99 0x99 = 99999999 ∧ bcd4 0x00 0x00 0x00 0x01 = 1000000 := by decide

/-- V-E6, V-D33, V-D34. -/
theorem test_diam :
    diam 0x10 = 15 ∧ diam 0xC0 = 300 ∧ diam 0x00 = 0 ∧ diam 0xD0 = 0 ∧ diam 0xF5 = 0 ∧ diam 0x2F = 20 ∧
    diam 0x70 = 80 := by decide

/-- V-E7, V-D35 to V-D37. -/
theorem test_batt : batt 0x00 = 37 ∧ batt 0x1F = 6 ∧ batt 0x10 = 21 ∧ batt 0x20 = 37 ∧ batt 0xFF = 6 := by decide

/-- V-D42. -/
theorem test_status :
    statusFields Params.reference .v14 0xFF 0x40 =
      { flowExceeded := true
        reverseFlow := true
        indoorLeak := true
        lowBattery := none
        batteryDecivolts := some 6
        magnetDetected := some false
        freezeWarning := some true } := by decide

/-- V-D44. -/
theorem test_status_badOperand : stops (exec (.status 0x05 0x00 0x00) ready) .badOperand = true := by decide

/-- V-D45, V-D46. -/
theorem test_udf :
    udfTrailer (bytesFrom frame11 7 12 ++ [0x02, 0x07, 0x12, 0x34]) =
      some { tag := 0x02, verificationMonth := 0x07, manufacturer := 0x1234 } ∧
    udfTrailer (bytesFrom frame11 7 12 ++ [0x03]) = none := by decide

/-- V-E3; V-D47. -/
theorem test_decodeFrame :
    decodeFrame Params.reference frame11 = some record11 ∧
    decodeFrame Params.reference (frame11.set 2 0x10) = none := by decide

/-- V-D22. -/
theorem test_decodeFrame_v14 :
    decodeFrame Params.reference frame14 =
      some
        { record11 with
          revision := .v14
          statusRaw := 0x85
          status :=
            { flowExceeded := true
              reverseFlow := false
              indoorLeak := true
              lowBattery := none
              batteryDecivolts := some 21
              magnetDetected := some true
              freezeWarning := some true }
          diameterMm := 300
          decimalPoint := 2
          reading := 99999999
          udf := some { tag := 0x04, verificationMonth := 0x12, manufacturer := 0x4D25 }
          frame := frame14
          frameLen := 25 } := by decide

/-! ## Host operations and events -/

/-- V-D52; INIT is legal at power-on (R201). -/
theorem test_init :
    stops (exec .getstate State.reset) .notInitialised = true ∧
    after (exec .init { State.reset with retryCount := 3 }) (fun t => t.initialised && t.retryCount == 0) = true := by
  decide

/-- R204, R205: handle 0 is none. -/
theorem test_setrcb :
    after (exec (.setrcb 7) ready) (fun t => t.respCb == some 7 && t.errCb == some 2) = true ∧
    after (exec (.setrcb 0) ready) (fun t => t.respCb == none) = true := by decide

theorem test_setecb :
    after (exec (.setecb 7) ready) (fun t => t.errCb == some 7 && t.respCb == some 1) = true ∧
    after (exec (.setecb 0) ready) (fun t => t.errCb == none) = true := by decide

/-- V-D56. -/
theorem test_send :
    after (sendCommand Params.reference 0x5B [0x5C] ready) (fun t =>
      t.engState == .waitingForResponse && t.txLen == 5 && t.retryCount == 0 && t.results == [.code 0] &&
      t.trace == [.preamble 100, .tx [0x10, 0x5B, 0x01, 0x5C, 0x16]]) = true := by decide

/-- V-D57; a SEND while waiting (program P3). -/
theorem test_send_rejected :
    after (sendCommand Params.reference 0x5B (List.replicate 61 0) ready) (fun t =>
      t.engState == .idle && t.results == [.code 6] && t.trace == [.err 2 .invalidParam]) = true ∧
    after (sendCommand Params.reference 0x5C [] waiting) (fun t =>
      t.engState == .waitingForResponse && t.txLen == 5 && t.results == [.code 6] &&
      t.trace == [.err 2 .invalidParam]) = true := by decide

/-- V-D63: the drain comes before the deadline, so no timeout is reported; program P4: a wrong checksum is reported
before the record. -/
theorem test_task_response :
    after (received frame11 { waiting with tick := 1500 }) (fun t =>
      t.engState == .idle && t.lastError == .ok && t.rxFifo == [] && t.trace == [.resp 1 record11]) = true ∧
    after (received (frame11.set 19 0xC8) waiting) (fun t =>
      t.engState == .idle && t.lastError == .checksumMismatch &&
      t.trace ==
        [.err 2 .checksumMismatch,
          .resp 1 { record11 with checksumValid := false, frame := frame11.set 19 0xC8 }]) = true := by decide

/-- V-D59 to V-D62: before the deadline; at it; with no retry left; half the circle later. -/
theorem test_task_deadline :
    after (received [] { waiting with tick := 999 }) (fun t => t == { waiting with tick := 999 }) = true ∧
    after (received [] { waiting with tick := 1000 }) (fun t =>
      t.retryCount == 1 && t.lastError == .timeout &&
      t.trace == [.err 2 .timeout, .preamble 100, .tx [0x10, 0x5B, 0x01, 0x5C, 0x16]]) = true ∧
    after (received [] { waiting with tick := 1000, retryCount := 3 }) (fun t =>
      t.engState == .idle && t.retryCount == 0 && t.trace == [.err 2 .timeout]) = true ∧
    after (received [] { waiting with tick := 1000 + 0x80000000 }) (fun t =>
      t == { waiting with tick := 1000 + 0x80000000 }) = true := by decide

/-- V-D54. -/
theorem test_getstate :
    after (exec .getstate ready) (fun t => t.results == [.code 0]) = true ∧
    after (exec .getstate waiting) (fun t => t.results == [.code 3]) = true := by decide

/-- V-D54; reading does not clear (R207). -/
theorem test_geterr :
    after (exec .geterr { ready with lastError := .bufferOverflow }) (fun t =>
      t.results == [.code 5] && t.lastError == .bufferOverflow) = true := by decide

/-- V-D58. -/
theorem test_reset :
    after (exec .reset { waiting with retryCount := 2, rxFifo := [0x68], lastError := .timeout }) (fun t =>
      t.engState == .idle && t.retryCount == 0 && t.lastError == .ok && t.rxFifo == [] && t.respCb == some 1 &&
      t.errCb == some 2) = true := by decide

/-- V-D64, with room before it. -/
theorem test_rxpush :
    (receiveByte Params.reference 0x68 { ready with rxFifo := List.replicate 62 0 }).rxFifo.length = 63 ∧
    receiveByte Params.reference 0x68 { ready with rxFifo := List.replicate 63 0 } =
      { ready with rxFifo := List.replicate 63 0 } := by decide

/-- V-D55. -/
theorem test_tick :
    after (exec .tick { ready with tick := 0xFFFFFFFF }) (fun t => t.tick == 0) = true := by decide

/-! ## Witnesses: states and operands that meet the hypotheses of each statement, named after it -/

theorem witness_DecodeReadsEncode :
    (Instr.send 0x01 0x5B [0x5C]).wellFormed = true ∧ (Instr.build 0x5B (List.replicate 255 0)).wellFormed = true ∧
    (Instr.xor8 []).wellFormed = true ∧ (Instr.status 4 0x84 0x13).wellFormed = true := by
  simp only [Instr.wellFormed, payloadFits, sequenceFits, List.length_replicate]
  decide

theorem witness_EncodeInvertsDecode :
    decode [0x28, 0x1F, 0x05] = .op (.batt 0x1F) [0x05] ∧ decode [0x20, 0x5B, 0x01, 0x5C] = .op (.build 0x5B [0x5C]) [] := by
  decide

/-- The shortest and the longest proper prefix. -/
theorem witness_ProperPrefixTruncated :
    (Instr.send 0x01 0x5B [0x5C]).wellFormed = true ∧ 4 < (encode (.send 0x01 0x5B [0x5C])).length ∧
    0 < (encode .task).length ∧
    ({ ready with stream := [(encode (.send 0x01 0x5B [0x5C])).take 4] } : State).stream[ready.pc]? =
      some ((encode (.send 0x01 0x5B [0x5C])).take 4) := by decide

/-- Each end of each range of opcode bytes without an operation, and its neighbours with one. -/
theorem witness_UnknownOpcodesRefused :
    ([0x00, 0x09, 0x0F, 0x12, 0x1F, 0x2D, 0xFF].all fun op : Byte => (opcodeShape op.toNat).isNone) = true ∧
    ([0x01, 0x08, 0x10, 0x11, 0x20, 0x2C].all fun op : Byte => (opcodeShape op.toNat).isSome) = true ∧
    ({ ready with stream := [[0x2D]] } : State).stream[ready.pc]? = some [0x2D] := by decide

theorem witness_StepRunsDecodedOperation :
    ({ ready with stream := [[0x10, 0x68]] } : State).stream[ready.pc]? = some [0x10, 0x68] ∧
    decode [0x10, 0x68] = .op (.rxpush 0x68) [] := by decide

/-- Both clauses: at the stream's end, and a byte after the operation. -/
theorem witness_RunEndsAtStreamEnd :
    State.reset.stream.length ≤ State.reset.pc ∧
    ({ ready with stream := [[0x11, 0x00]] } : State).stream[ready.pc]? = some [0x11, 0x00] ∧
    decode [0x11, 0x00] = .op .tick [0x00] := by decide

theorem witness_TableWordRunsNext : decodeTableWord 16 0x6810 = some (.rxpush 0x68) := by decide

theorem witness_OperationsAdvanceStream : ∃ t, exec .tick State.reset = .next t := ⟨_, rfl⟩

theorem ready_inv : ready.Inv := by
  have := ringSize_ge
  refine ⟨⟨rfl, rfl, by decide, by decide⟩, ⟨Nat.zero_le _, Nat.zero_le _, Nat.zero_le _, Nat.zero_le _, Nat.zero_le _⟩,
    rfl, fun _ => ⟨⟨.inl rfl, fun _ => rfl, by decide, ⟨by decide, by decide, by decide⟩, rfl, Nat.zero_le _⟩, by decide⟩⟩

theorem waiting_inv : waiting.Inv := by
  have h := maxFrame_ge
  have h5 : 5 ≤ Config.params.maxFrame := by omega
  have hc : ∀ c ∈ waiting.txBuf, c.1 < 5 := by decide
  refine ⟨⟨by decide, rfl, fun c m => Nat.lt_of_lt_of_le (hc c m) h5, by decide⟩,
    ⟨h5, h5, Nat.zero_le _, Nat.zero_le _, Nat.zero_le _⟩, rfl, fun _ => ⟨⟨.inr rfl, by decide,
      fun _ => ⟨by decide, h5, by decide⟩, ⟨by decide, by decide, by decide⟩, rfl, Nat.zero_le _⟩, by decide⟩⟩

theorem collecting_inv : collecting.Inv := by
  have h := maxFrame_ge
  have h6 : 6 ≤ Config.params.maxFrame := by omega
  have hc : ∀ c ∈ collecting.rxBuf, c.1 < 6 := by decide
  refine ⟨⟨rfl, by decide, by decide, fun c m => Nat.lt_of_lt_of_le (hc c m) h6⟩,
    ⟨Nat.zero_le _, Nat.zero_le _, h6, h6, Nat.zero_le _⟩, rfl, fun _ => ⟨⟨.inl rfl, fun _ => rfl, by decide,
      ⟨by decide, by decide, fun _ => ⟨by decide, h6, by decide⟩⟩, rfl, Nat.zero_le _⟩, by decide⟩⟩

/-- Before INIT and after it, with a step that reaches a next state. -/
theorem witness_StepKeepsInvariant :
    (∃ s t : State, s.Inv ∧ s.initialised = true ∧ step s = .next t) ∧
    ∃ s t : State, s.Inv ∧ s.initialised = false ∧ step s = .next t :=
  ⟨⟨{ waiting with stream := [[0x11]] }, _, waiting_inv, rfl, rfl⟩,
    ⟨{ State.reset with stream := [[0x11]] }, _, ⟨⟨rfl, rfl, by decide, by decide⟩,
      ⟨Nat.zero_le _, Nat.zero_le _, Nat.zero_le _, Nat.zero_le _, Nat.zero_le _⟩, rfl, by decide⟩, rfl, rfl⟩⟩

/-- At power-on, before INIT and after it, in both assembler states; and a step before INIT that changes the
assembler: ASMBYTE of the start sentinel. -/
theorem witness_InvariantRulesOutFaults :
    (State.reset.Inv ∧ State.reset.AssemblerStable Config.params) ∧
    (waiting.Inv ∧ waiting.AssemblerStable Config.params) ∧
    (collecting.Inv ∧ collecting.AssemblerStable Config.params) ∧
    ∃ s t : State, s.initialised = false ∧ s.Inv ∧ s.AssemblerStable Config.params ∧ step s = .next t ∧
      t.asmState = .collecting := by
  have h := maxFrame_ge
  have h1 : 1 ≤ Config.params.maxFrame := by omega
  have hr : ∀ q : List (List Byte), State.Inv { State.reset with stream := q } := fun q =>
    ⟨⟨rfl, rfl, by simp [State.reset], by simp [State.reset]⟩,
      ⟨Nat.zero_le _, Nat.zero_le _, Nat.zero_le _, Nat.zero_le _, Nat.zero_le _⟩, rfl, by simp [State.reset]⟩
  refine ⟨⟨hr [], by decide, by decide, by decide⟩, ⟨waiting_inv, by decide, by decide, by decide⟩,
    ⟨collecting_inv, (collecting_inv.2.2.2 rfl).1.2.2.2.1⟩,
    { State.reset with stream := [[0x22, 0x68]] }, ?_⟩
  obtain ⟨o, u, hu⟩ := asmStep_total (P := Config.params) (b := 0x68)
    (s := { State.reset with stream := [[0x22, 0x68]] }) h1 (by decide) (by decide)
  have hc : u.asmState = .collecting := by
    cases asmStep_cases hu <;> simp_all [State.reset, rspStart]
  have hx : step { State.reset with stream := [[0x22, 0x68]] } =
      exec (.asmbyte 0x68) { State.reset with stream := [[0x22, 0x68]] } := rfl
  rw [hx, exec, execAsmbyte, hu]
  exact ⟨_, rfl, hr _, ⟨by decide, by decide, by decide⟩, rfl, hc⟩

theorem witness_OutputsOnlyGrow : ∃ t, exec (.batt 0x1F) ready = .next t := ⟨_, rfl⟩

theorem witness_CallbacksChangeOnlyByRegistration :
    (∃ t, exec (.setrcb 7) ready = .next t) ∧ Instr.setrcb 7 ≠ .init ∧ (∀ h, Instr.setrcb 7 ≠ .setecb h) ∧
    (∃ t, exec .tick ready = .next t) ∧ (∀ h, Instr.tick ≠ .setrcb h) := by
  refine ⟨⟨_, rfl⟩, by decide, ?_, ⟨_, rfl⟩, ?_⟩ <;> exact fun _ h => nomatch h

/-- An operation that changes the last error, and a state whose last error is not the reserved one. -/
theorem witness_ErrorsReportedAreReal :
    ∃ t, exec .reset { ready with lastError := .timeout } = .next t ∧ t.lastError ≠ .timeout := ⟨_, rfl, by decide⟩

theorem witness_FunctionsWriteOnlyResultPort (i : Instr) (h : i = .diam 0x10 ∨ i = .status 1 0 0 ∨ i = .status 4 0 0) :
    isHostOp i = false ∧ i ≠ .tick ∧ (∀ b, i ≠ .rxpush b) ∧ (∀ b, i ≠ .asmbyte b) ∧
    ∀ r s v, i = .status r s v → 1 ≤ r.toNat ∧ r.toNat ≤ 4 := by
  rcases h with rfl | rfl | rfl <;>
    refine ⟨rfl, by decide, fun _ h => (nomatch h), fun _ h => (nomatch h), fun r s v h => ?_⟩ <;> cases h <;> decide

theorem witness_WaitingLastsUntilTask :
    waiting.initialised = true ∧ waiting.engState = .waitingForResponse ∧ (∃ t, exec .tick waiting = .next t) ∧
    ∃ t, exec (.send 0x01 0x5C []) waiting = .next t := ⟨rfl, rfl, ⟨_, rfl⟩, ⟨_, rfl⟩⟩

theorem witness_HostOperationsNeedInit :
    isHostOp .task = true ∧ Instr.task ≠ .init ∧ State.reset.opActive = false ∧ State.reset.initialised = false := by
  decide

theorem witness_HostOperationsDoNotNest :
    isHostOp .init = true ∧ ({ ready with opActive := true } : State).opActive = true := by decide

theorem witness_InitAndResetGiveInitialValues :
    (Instr.init = .init ∧ State.reset.opActive = false) ∧ Instr.reset = .reset ∧ waiting.Ready := by decide

theorem witness_RegistrationReplacesSlot : ready.Ready ∧ waiting.Ready := by decide

theorem witness_ReadsReturnCodes : ready.Ready ∧ ready.Inv ∧ waiting.Ready ∧ waiting.Inv :=
  ⟨by decide, ready_inv, by decide, waiting_inv⟩

/-- The empty payload and the longest one. -/
theorem witness_AcceptedSendStartsExchange :
    ready.Ready ∧ ready.engState = .idle ∧ ready.txBuf.wf = true ∧
    ([] : List Byte).length ≤ Config.params.maxFrame - 4 ∧
    (List.replicate (Config.params.maxFrame - 4) (0 : Byte)).length ≤ Config.params.maxFrame - 4 :=
  ⟨by decide, rfl, rfl, Nat.zero_le _, by simp⟩

/-- Both grounds: not idle; one byte over the bound. -/
theorem witness_RejectedSendChangesNothing :
    waiting.Ready ∧ waiting.engState ≠ .idle ∧ ready.Ready ∧
    Config.params.maxFrame - 4 < (List.replicate (Config.params.maxFrame - 3) (0 : Byte)).length := by
  have := maxFrame_ge
  refine ⟨by decide, by decide, by decide, ?_⟩
  rw [List.length_replicate]
  omega

theorem witness_ElapsedIsWrapAware : 0 < 2 ^ 32 ∧ 2 ^ 32 - 1 < 2 ^ 32 := by decide

/-- Idle; one tick before the deadline; half the circle after it. -/
theorem witness_QuietTaskChangesNothing :
    (ready.Ready ∧ ready.rxFifo = [] ∧
      ¬ (ready.engState = .waitingForResponse ∧ (ready.tick - ready.deadline).toNat < 2 ^ 31)) ∧
    ([0 - 1, 0x80000000].all fun d : Word32 =>
      let s : State := { waiting with tick := waiting.deadline + d }
      decide (s.Ready ∧ s.rxFifo = [] ∧
        ¬ (s.engState = .waitingForResponse ∧ (s.tick - s.deadline).toNat < 2 ^ 31))) = true := by decide

/-! What a TASK with an exchange outstanding may drain without ending it. -/

theorem zeros_getD (n k : Nat) : (List.replicate n (0 : Byte)).getD k 0 ≠ 0x16 := by
  rw [List.getD_eq_getElem?_getD, List.getElem?_replicate]
  split_ifs <;> decide

/-- A frame's beginning, with an end sentinel at the last place where it is data. -/
def beginning : List Byte := [0x68, 0x03, 0x03, 0x68, 0x08, 0x16]

/-- The state of `waiting` over: no bytes; bytes to discard; bytes to discard and the beginning of a frame; bytes that
continue a frame and fill the buffer exactly. -/
def goesOn (s : State) (n : Nat) (noise rest : List Byte) : Prop :=
  (s = waiting ∧ n = 0 ∧ noise = [] ∧ rest = []) ∨
  (s = { waiting with rxFifo := [0x16, 0x00] } ∧ n = 0 ∧ noise = [0x16, 0x00] ∧ rest = []) ∨
  (s = { waiting with rxFifo := 0x16 :: beginning } ∧ n = 0 ∧ noise = [0x16] ∧ rest = beginning) ∨
  (s =
      { waiting with
        asmState := .collecting
        rxBuf := collecting.rxBuf
        rxCount := 6
        rxCursor := 6
        rxFifo := List.replicate (Config.params.maxFrame - 6) 0 } ∧
    n = 6 ∧ noise = [] ∧ rest = List.replicate (Config.params.maxFrame - 6) 0)

theorem goesOn_meets {s : State} {n : Nat} {noise rest : List Byte} (h : goesOn s n noise rest) :
    s.Ready ∧ s.engState = .waitingForResponse ∧ s.rxFifo = noise ++ rest ∧
    s.Unfinished Config.params n noise rest ∧ (rest ≠ [] → s.rxBuf.wf = true) ∧ s.tick = 0 ∧ s.deadline = 1000 ∧
    s.txLen = 5 := by
  have hm := maxFrame_ge
  have h6 : 0 + 6 ≤ Config.params.maxFrame := by omega
  rcases h with ⟨rfl, rfl, rfl, rfl⟩ | ⟨rfl, rfl, rfl, rfl⟩ | ⟨rfl, rfl, rfl, rfl⟩ | ⟨rfl, rfl, rfl, rfl⟩
  · exact ⟨by decide, rfl, rfl, ⟨Nat.zero_le _, by simp [rspEnd], .inr ⟨rfl, by decide, rfl, .inl rfl⟩⟩, by decide,
      rfl, rfl, rfl⟩
  · exact ⟨by decide, rfl, rfl, ⟨Nat.zero_le _, by simp [rspEnd], .inr ⟨rfl, by decide, rfl, .inl rfl⟩⟩, by decide,
      rfl, rfl, rfl⟩
  · refine ⟨by decide, rfl, rfl, ⟨h6, fun k hk => ?_, .inr ⟨rfl, by decide, rfl, .inr rfl⟩⟩, by decide, rfl, rfl, rfl⟩
    by_contra hc
    rw [List.getD_eq_default _ _ (by simp only [beginning, List.length_cons, List.length_nil]; rw [minEndCount] at hc; omega)] at hk
    cases hk
  · refine ⟨⟨rfl, rfl⟩, rfl, rfl, ⟨?_, fun k hk => absurd hk (zeros_getD _ _), .inl ⟨rfl, rfl, rfl⟩⟩, fun _ => by decide,
      rfl, rfl, rfl⟩
    rw [List.length_replicate]
    omega

/-- At the deadline and at the last elapsed tick, with no retry made and with two, over every kind of bytes. -/
theorem witness_TimeoutRetransmits (s : State) (n : Nat) (noise rest : List Byte) (h : goesOn s n noise rest)
    (d : Word32) (r : Byte) (hd : d = 0 ∨ d = 0x7FFFFFFF) (hr : r = 0 ∨ r = 2) :
    let t : State := { s with tick := 1000 + d, retryCount := r }
    t.Ready ∧ t.engState = .waitingForResponse ∧ t.rxFifo = noise ++ rest ∧
    (t.rxFifo = [] ∨ t.Unfinished Config.params n noise rest) ∧ (rest ≠ [] → t.rxBuf.wf = true) ∧
    (t.tick - t.deadline).toNat < 2 ^ 31 ∧ t.retryCount.toNat < 3 ∧ t.txLen ≤ Config.params.maxFrame := by
  have hm := maxFrame_ge
  obtain ⟨h1, h2, h3, h4, h5, -, h6, h7⟩ := goesOn_meets h
  refine ⟨h1, h2, h3, .inr h4, h5, ?_, ?_, by show s.txLen ≤ _; omega⟩
  · show (1000 + d - s.deadline).toNat < _
    rw [h6]
    rcases hd with rfl | rfl <;> decide
  · show r.toNat < 3
    rcases hr with rfl | rfl <;> decide

theorem witness_LastTimeoutAbandons (s : State) (n : Nat) (noise rest : List Byte) (h : goesOn s n noise rest) :
    let t : State := { s with tick := 1000, retryCount := 3 }
    t.Ready ∧ t.engState = .waitingForResponse ∧ t.rxFifo = noise ++ rest ∧
    (t.rxFifo = [] ∨ t.Unfinished Config.params n noise rest) ∧ (rest ≠ [] → t.rxBuf.wf = true) ∧
    (t.tick - t.deadline).toNat < 2 ^ 31 ∧ 3 ≤ t.retryCount.toNat := by
  obtain ⟨h1, h2, h3, h4, h5, -, h6, -⟩ := goesOn_meets h
  refine ⟨h1, h2, h3, .inr h4, h5, ?_, Nat.le_refl 3⟩
  show (1000 - s.deadline).toNat < _
  rw [h6]
  decide

theorem witness_TaskCompletesAndDrains :
    ready.Inv ∧ ready.initialised = true ∧ waiting.Inv ∧ waiting.initialised = true ∧ collecting.Inv :=
  ⟨ready_inv, rfl, waiting_inv, rfl, collecting_inv⟩

/-! A frame that is valid at every legal choice of the parameters: all zeros between the sentinels. -/

/-- The response frame of length `l` whose bytes from index 4 on are 0, with a given checksum byte. -/
def plainFrame (l : Nat) (ck : Byte) : List Byte :=
  0x68 :: BitVec.ofNat 8 l :: BitVec.ofNat 8 l :: 0x68 :: (List.replicate l 0 ++ [ck, 0x16])

theorem plainFrame_length (l : Nat) (ck : Byte) : (plainFrame l ck).length = l + 6 := by simp [plainFrame]

theorem plainFrame_last (l : Nat) (ck : Byte) : byteAt (plainFrame l ck) (l + 5) = 0x16 := by
  simp [plainFrame, byteAt, List.getD_eq_getElem?_getD]

theorem plainFrame_valid (ck : Byte) : validate Config.params (plainFrame Config.params.lMin ck) = true := by
  have h1 := lMin_ge
  have h2 := lMax_le
  have h3 := params_legal.1.2.2.2.1
  have hb : (BitVec.ofNat 8 Config.params.lMin).toNat = Config.params.lMin := by simp; omega
  have e : byteAt (plainFrame Config.params.lMin ck) 1 = BitVec.ofNat 8 Config.params.lMin := rfl
  rw [validate_iff, plainFrame_length, e, hb]
  exact ⟨by omega, rfl, rfl, plainFrame_last _ _, rfl, Nat.le_refl _, h3, rfl⟩

theorem plainFrame_detected (ck : Byte) : ∃ rev, detect Config.params (plainFrame Config.params.lMin ck) = some rev := by
  unfold detect
  rw [plainFrame_valid]
  split_ifs <;> simp_all

theorem plainFrame_whole (ck : Byte) (hc : ck ≠ 0x16) :
    arrivesWhole Config.params (plainFrame Config.params.lMin ck) := by
  have h1 := lMin_ge
  have h2 := lMax_le
  have h3 := params_legal.1.2.2.2.1
  have h4 := maxFrame_ge
  unfold arrivesWhole
  rw [plainFrame_length]
  refine ⟨by omega, by omega, rfl, plainFrame_last _ _, ?_⟩
  intro k hk hl
  obtain ⟨j, rfl⟩ : ∃ j, k = j + 4 := ⟨k - 4, by omega⟩
  simp only [plainFrame, byteAt, List.getD_cons_succ, rspEnd]
  by_cases hj : j < Config.params.lMin
  · rw [List.getD_append _ _ _ _ (by simpa using hj)]
    simp [List.getD_eq_getElem?_getD, hj]
  · have : j = Config.params.lMin := by omega
    subst this
    simpa [List.getD_eq_getElem?_getD] using hc

theorem sum8_zeros (n : Nat) : sum8 (List.replicate n 0) = 0 := by
  induction n with
  | zero => rfl
  | succ n ih => simpa [sum8, List.replicate_succ] using ih

theorem plainFrame_checksum (ck : Byte) : checksumValid (plainFrame Config.params.lMin ck) = decide (ck = 0) := by
  have e1 : byteAt (plainFrame Config.params.lMin ck) (Config.params.lMin + 6 - 2) = ck := by
    simp [plainFrame, byteAt, List.getD_eq_getElem?_getD]
  have e2 : bytesFrom (plainFrame Config.params.lMin ck) 4 (Config.params.lMin + 6 - 6) =
      List.replicate Config.params.lMin 0 := by simp [plainFrame, bytesFrom]
  rw [checksumValid, plainFrame_length, if_neg (by omega), e1, e2, sum8_zeros]

/-- All of the frame but its last byte. -/
def plainBody (l : Nat) (ck : Byte) : List Byte :=
  0x68 :: BitVec.ofNat 8 l :: BitVec.ofNat 8 l :: 0x68 :: (List.replicate l 0 ++ [ck])

theorem plainBody_append (l : Nat) (ck : Byte) : plainBody l ck ++ [0x16] = plainFrame l ck := by
  simp [plainBody, plainFrame]

theorem plainBody_length (l : Nat) (ck : Byte) : (plainBody l ck).length = l + 5 := by simp [plainBody]

theorem plainBody_unfinished (ck : Byte) (hc : ck ≠ 0x16) (k : Nat)
    (hk : (plainBody Config.params.lMin ck).getD k 0 = 0x16) : 0 + k < 6 := by
  by_contra hn
  by_cases hl : k < Config.params.lMin + 5
  · refine (plainFrame_whole ck hc).2.2.2.2 k (by omega) (by rw [plainFrame_length]; omega) ?_
    rw [byteAt, ← plainBody_append, List.getD_append _ _ _ _ (by rw [plainBody_length]; omega)]
    exact hk
  · rw [List.getD_eq_default _ _ (by rw [plainBody_length]; omega)] at hk
    cases hk

/-- What WholeFrameIsHandled asks. -/
def finishes (s : State) (n : Nat) (noise rest f : List Byte) : Prop :=
  s.Ready ∧ (s.engState = .idle ∨ s.engState = .waitingForResponse) ∧ s.rxBuf.wf = true ∧
  s.rxFifo = noise ++ rest ++ [0x16] ∧ s.Unfinished Config.params n noise rest ∧
  f = s.rxBuf.readBytes n ++ rest ++ [0x16] ∧ 7 ≤ f.length ∧ f.length ≤ Config.params.maxFrame

/-- With no exchange and with one whose deadline is elapsed: a whole frame with a right checksum and one with a wrong
one, after a byte to discard; the same frame with all but its last byte buffered; and a frame of no revision (too short
for the range) with its first six bytes buffered. -/
theorem witness_WholeFrameIsHandled (s : State) (hs : s = ready ∨ s = { waiting with tick := 1000 }) :
    (∀ ck, ck = 0 ∨ ck = 1 → ∃ t f, finishes t 0 [0x16] (plainBody Config.params.lMin ck) f ∧
      t.engState = s.engState ∧ (∃ rev, detect Config.params f = some rev) ∧ checksumValid f = decide (ck = 0)) ∧
    (∃ t n f, finishes t n [] [] f ∧ t.engState = s.engState ∧ ∃ rev, detect Config.params f = some rev) ∧
    ∃ t f, finishes t 6 [] [] f ∧ t.engState = s.engState ∧ detect Config.params f = none := by
  have h1 := lMin_ge
  have h2 := lMax_le
  have h3 := params_legal.1.2.2.2.1
  have h4 := maxFrame_ge
  have h6 : 6 + 0 ≤ Config.params.maxFrame := by omega
  have hi : s.Ready ∧ (s.engState = .idle ∨ s.engState = .waitingForResponse) ∧ s.rxBuf.wf = true ∧
      s.asmState = .waitingForStart := by
    rcases hs with rfl | rfl
    · exact ⟨⟨rfl, rfl⟩, .inl rfl, rfl, rfl⟩
    · exact ⟨⟨rfl, rfl⟩, .inr rfl, rfl, rfl⟩
  obtain ⟨hr, he, hb, hw⟩ := hi
  refine ⟨fun ck hck => ?_, ?_, ?_⟩
  · have hc : ck ≠ 0x16 := by rcases hck with rfl | rfl <;> decide
    exact ⟨{ s with rxFifo := [0x16] ++ plainBody Config.params.lMin ck ++ [0x16] }, plainFrame Config.params.lMin ck,
      ⟨hr, he, hb, rfl, ⟨by rw [plainBody_length]; omega, plainBody_unfinished ck hc, .inr ⟨hw, by decide, rfl, .inr rfl⟩⟩,
        (plainBody_append _ _).symm, by rw [plainFrame_length]; omega, by rw [plainFrame_length]; omega⟩,
      rfl, plainFrame_detected _, plainFrame_checksum _⟩
  · refine ⟨{ s with
        asmState := .collecting
        rxBuf := Memory.writeBytes [] 0 (plainBody Config.params.lMin 0)
        rxCount := Config.params.lMin + 5
        rxFifo := [0x16] }, Config.params.lMin + 5, plainFrame Config.params.lMin 0,
      ⟨hr, he, Memory.writeBytes_wf _ _ _ rfl, rfl, ⟨by simp only [List.length_nil]; omega, by simp [rspEnd],
        .inl ⟨rfl, rfl, rfl⟩⟩, ?_, by rw [plainFrame_length]; omega, by rw [plainFrame_length]; omega⟩,
      rfl, plainFrame_detected _⟩
    rw [← plainBody_length Config.params.lMin 0, Memory.readBytes_writeBytes _ _ rfl, List.append_nil, plainBody_append]
  · have e1 : collecting.rxBuf.wf = true := by decide
    have e2 : [0x68, 0x03, 0x03, 0x68, 0x08, 0x01, 0x16] = collecting.rxBuf.readBytes 6 ++ [] ++ [0x16] := by decide
    refine ⟨{ s with asmState := .collecting, rxBuf := collecting.rxBuf, rxCount := 6, rxFifo := [0x16] },
      [0x68, 0x03, 0x03, 0x68, 0x08, 0x01, 0x16],
      ⟨hr, he, e1, rfl, ⟨h6, by simp [rspEnd], .inl ⟨rfl, rfl, rfl⟩⟩, e2, by decide,
        by simp only [List.length_cons, List.length_nil]; omega⟩, rfl, ?_⟩
    have hv : ¬ validate Config.params [0x68, 0x03, 0x03, 0x68, 0x08, 0x01, 0x16] = true := by
      rw [validate_iff]
      rintro ⟨_, _, _, _, _, h, _⟩
      have h' : Config.params.lMin ≤ 3 := h
      omega
    rw [detect, if_pos (Bool.eq_false_iff.mpr hv)]

/-- What OverflowEndsExchange asks. -/
def overflows (s : State) (n : Nat) (noise rest : List Byte) (b : Byte) : Prop :=
  s.Ready ∧ (s.engState = .idle ∨ s.engState = .waitingForResponse) ∧ (rest ≠ [] → s.rxBuf.wf = true) ∧
  s.rxFifo = noise ++ rest ++ [b] ∧ s.Unfinished Config.params n noise rest ∧
  n + rest.length = Config.params.maxFrame

/-- With no exchange and with one whose deadline is elapsed: a buffer found full, and one that the bytes before fill,
with the end sentinel for the byte that is lost. -/
theorem witness_OverflowEndsExchange (s : State) (hs : s = ready ∨ s = { waiting with tick := 1000 }) :
    (∃ t, overflows t Config.params.maxFrame [] [] 0x16 ∧ t.engState = s.engState) ∧
    ∃ t rest, overflows t 0 [] rest 0x16 ∧ t.engState = s.engState := by
  have hm := maxFrame_ge
  have hi : s.Ready ∧ (s.engState = .idle ∨ s.engState = .waitingForResponse) ∧ s.rxBuf.wf = true ∧
      s.asmState = .waitingForStart := by
    rcases hs with rfl | rfl
    · exact ⟨⟨rfl, rfl⟩, .inl rfl, rfl, rfl⟩
    · exact ⟨⟨rfl, rfl⟩, .inr rfl, rfl, rfl⟩
  obtain ⟨hr, he, hb, hw⟩ := hi
  have hl : (0x68 :: List.replicate (Config.params.maxFrame - 1) (0 : Byte)).length = Config.params.maxFrame := by
    simp only [List.length_cons, List.length_replicate]
    omega
  refine ⟨⟨{ s with asmState := .collecting, rxCount := Config.params.maxFrame, rxFifo := [0x16] },
      ⟨hr, he, fun _ => hb, rfl, ⟨Nat.le_refl _, by simp [rspEnd], .inl ⟨rfl, rfl, rfl⟩⟩, rfl⟩, rfl⟩,
    { s with rxFifo := [] ++ (0x68 :: List.replicate (Config.params.maxFrame - 1) 0) ++ [0x16] },
    0x68 :: List.replicate (Config.params.maxFrame - 1) 0, ⟨hr, he, fun _ => hb, rfl, ⟨by rw [hl]; omega, fun k hk => ?_,
      .inr ⟨hw, by decide, rfl, .inr rfl⟩⟩, by rw [hl]; omega⟩, rfl⟩
  cases k with
  | zero => cases hk
  | succ k => exact absurd hk (zeros_getD _ _)

/-- A TASK completes where the assembler is stable and the stored frame lies in the buffer, and can be followed by
another. -/
theorem task_goes_on (s : State) (h : s.Ready ∧ s.AssemblerStable Config.params ∧ s.rxBuf.wf = true ∧
    s.txLen ≤ Config.params.maxFrame) :
    ∃ t, exec .task s = .next t ∧ (t.Ready ∧ t.AssemblerStable Config.params ∧ t.rxBuf.wf = true ∧
      t.txLen ≤ Config.params.maxFrame) := by
  obtain ⟨⟨h1, h2⟩, h3, h4, h5⟩ := h
  have hm := maxFrame_ge
  obtain ⟨u, hd, hs, hw⟩ := drain_total (P := Config.params) (bs := s.rxFifo) (s := { s with opActive := true })
    (by omega) h3 h4
  obtain ⟨_, _, _, _, _, _, _, _, rfl, _⟩ := drain_frame hd id
  simp only [exec, execTask]
  rw [hostOp_ready _ _ h1 h2, runTask, hd, andThen_next, checkDeadline]
  split_ifs
  · simp only [onTimeout, raiseError_eq]
    split_ifs
    · rw [startTransmission_eq _ _ (by exact h5)]
      exact ⟨_, rfl, ⟨h1, rfl⟩, ⟨by simp, by simp, by simp⟩, hw, h5⟩
    · exact ⟨_, rfl, ⟨h1, rfl⟩, hs, hw, h5⟩
  · exact ⟨_, rfl, ⟨h1, rfl⟩, hs, hw, h5⟩

/-- Each condition, with two TASKs that complete: no exchange; an exchange one tick before its deadline, with part of
a frame; an exchange at its deadline, with a whole frame and a byte after it. -/
theorem witness_FragmentationMakesNoDifference (s : State) (xs : List Byte)
    (h : (s = ready ∧ xs = [0x68]) ∨ (s = { waiting with tick := 999 } ∧ xs = [0x68]) ∨
      (s = { waiting with tick := 1000 } ∧ xs = plainFrame Config.params.lMin 0)) :
    s.Ready ∧
    ¬ (s.engState = .waitingForResponse ∧ (s.tick - s.deadline).toNat < 2 ^ 31 ∧
      (xs = [] ∨ ∃ n noise rest, xs = noise ++ rest ∧ s.Unfinished Config.params n noise rest)) ∧
    ∃ t u, exec .task { s with rxFifo := xs } = .next t ∧ exec .task { t with rxFifo := [0x03] } = .next u := by
  have hm := maxFrame_ge
  have h5 : 5 ≤ Config.params.maxFrame := by omega
  have hs : s.Ready ∧ s.AssemblerStable Config.params ∧ s.rxBuf.wf = true ∧ s.txLen ≤ Config.params.maxFrame := by
    rcases h with ⟨rfl, -⟩ | ⟨rfl, -⟩ | ⟨rfl, -⟩
    · exact ⟨by decide, ⟨by decide, by decide, by decide⟩, by decide, Nat.zero_le _⟩
    · exact ⟨by decide, ⟨by decide, by decide, by decide⟩, by decide, h5⟩
    · exact ⟨by decide, ⟨by decide, by decide, by decide⟩, by decide, h5⟩
  obtain ⟨t, ht, hi⟩ := task_goes_on { s with rxFifo := xs } hs
  obtain ⟨u, hu, -⟩ := task_goes_on { t with rxFifo := [0x03] } hi
  refine ⟨hs.1, ?_, t, u, ht, hu⟩
  rcases h with ⟨rfl, -⟩ | ⟨rfl, -⟩ | ⟨rfl, rfl⟩
  · exact fun hc => absurd hc.1 (by decide)
  · exact fun hc => absurd hc.2.1 (by decide)
  · rintro ⟨-, -, hx | ⟨n, noise, rest, hx, -, hb, hc | ⟨-, hn, rfl, -⟩⟩⟩
    · cases hx
    · exact absurd hc.1 (by decide)
    · have hnil : noise = [] := by
        cases noise with
        | nil => rfl
        | cons b bs => exact absurd (by rw [List.cons_append] at hx; exact (List.cons.inj hx).1 ▸ List.mem_cons_self) hn
      subst hnil
      have hlast := plainFrame_last Config.params.lMin 0
      rw [hx, List.nil_append, byteAt] at hlast
      have := hb _ hlast
      have := lMin_ge
      rw [minEndCount] at *
      omega

/-- Before the deadline over every kind of bytes, and with no exchange over bytes that begin a frame. -/
theorem witness_UnfinishedBytesAreStored :
    (∀ s n noise rest, goesOn s n noise rest → s ≠ waiting → s.Ready ∧ s.rxFifo = noise ++ rest ∧ s.rxFifo ≠ [] ∧
      s.Unfinished Config.params n noise rest ∧ (rest ≠ [] → s.rxBuf.wf = true) ∧
      ¬ (s.engState = .waitingForResponse ∧ (s.tick - s.deadline).toNat < 2 ^ 31)) ∧
    State.Unfinished Config.params { ready with rxFifo := [0x68] } 0 [] [0x68] := by
  have hm := maxFrame_ge
  refine ⟨fun s n noise rest h hs => ?_, by simp only [List.length_cons, List.length_nil]; omega, fun k hk => ?_,
    .inr ⟨rfl, by decide, rfl, .inr rfl⟩⟩
  · obtain ⟨h1, -, h3, h4, h5, h6, h7, -⟩ := goesOn_meets h
    refine ⟨h1, h3, ?_, h4, h5, fun hc => absurd hc.2 (by rw [h6, h7]; decide)⟩
    rcases h with ⟨rfl, -⟩ | ⟨rfl, -⟩ | ⟨rfl, -⟩ | ⟨rfl, -⟩
    · exact absurd rfl hs
    · decide
    · decide
    · simp only [ne_eq, List.replicate_eq_nil_iff]
      omega
  · cases k with
    | zero => cases hk
    | succ k => simp [rspEnd] at hk

/-- A TASK at its deadline in the exchange of `waiting` completes, and with retries left the exchange goes on. -/
theorem exchange_step (s : State) (h : s.Ready ∧ s.rxFifo = [] ∧ s.engState = .waitingForResponse ∧
    s.txLen ≤ Config.params.maxFrame) :
    ∃ t, exec .task { s with tick := s.deadline } = .next t ∧ (s.retryCount.toNat < 3 →
      (t.Ready ∧ t.rxFifo = [] ∧ t.engState = .waitingForResponse ∧ t.txLen ≤ Config.params.maxFrame) ∧
      t.retryCount = s.retryCount + 1) := by
  obtain ⟨⟨h1, h2⟩, h3, h4, h5⟩ := h
  have he : elapsed s.deadline s.deadline = true := by simp [elapsed]
  by_cases hr : s.retryCount.toNat < 3
  · simp only [exec, execTask]
    rw [hostOp_ready _ _ (by exact h1) (by exact h2)]
    simp only [runTask, h3, drain, andThen_next, checkDeadline, h4, he, and_self, if_true, onTimeout, raiseError_eq,
      maxRetry, hr]
    rw [startTransmission_eq _ _ (by exact h5)]
    exact ⟨_, rfl, fun _ => ⟨⟨⟨h1, rfl⟩, rfl, rfl, h5⟩, rfl⟩⟩
  · simp only [exec, execTask]
    rw [hostOp_ready _ _ (by exact h1) (by exact h2)]
    simp only [runTask, h3, drain, andThen_next, checkDeadline, h4, he, and_self, if_true, onTimeout, raiseError_eq,
      maxRetry, hr, if_false]
    exact ⟨_, rfl, fun h => h.elim⟩

/-- A SEND and four TASKs, each at the deadline the one before it left. -/
theorem witness_UnansweredExchangeSendsFourTimes :
    ∃ (d : List Byte) (s1 s2 s3 s4 s5 : State), ready.Ready ∧ ready.engState = .idle ∧ ready.txBuf.wf = true ∧
      d.length ≤ Config.params.maxFrame - 4 ∧ exec (.send 0x01 0x5B d) ready = .next s1 ∧
      (s1.deadline - s1.deadline).toNat < 2 ^ 31 ∧ exec .task { s1 with tick := s1.deadline } = .next s2 ∧
      (s2.deadline - s2.deadline).toNat < 2 ^ 31 ∧ exec .task { s2 with tick := s2.deadline } = .next s3 ∧
      (s3.deadline - s3.deadline).toNat < 2 ^ 31 ∧ exec .task { s3 with tick := s3.deadline } = .next s4 ∧
      (s4.deadline - s4.deadline).toNat < 2 ^ 31 ∧ exec .task { s4 with tick := s4.deadline } = .next s5 := by
  have h := maxFrame_ge
  have h1 : 1 ≤ Config.params.maxFrame - 4 := by omega
  have h5 : 5 ≤ Config.params.maxFrame := by omega
  have hs : ∃ s1, exec (.send 0x01 0x5B [0x5C]) ready = .next s1 ∧ (s1.Ready ∧ s1.rxFifo = [] ∧
      s1.engState = .waitingForResponse ∧ s1.txLen ≤ Config.params.maxFrame) ∧ s1.retryCount = 0 := by
    simp only [exec, execSend]
    rw [hostOp_ready _ _ rfl rfl]
    simp only [sendCommand]
    rw [buildFrame_some _ _ _ (by exact h1), if_neg (by decide)]
    simp only [bufferWrite]
    rw [if_pos (by exact h5)]
    simp only [andThen_next]
    rw [startTransmission_eq _ _ (by exact h5)]
    exact ⟨_, rfl, ⟨⟨rfl, rfl⟩, rfl, rfl, h5⟩, rfl⟩
  obtain ⟨s1, e1, i1, r1⟩ := hs
  obtain ⟨s2, e2, f2⟩ := exchange_step s1 i1
  obtain ⟨i2, r2⟩ := f2 (by rw [r1]; decide)
  obtain ⟨s3, e3, f3⟩ := exchange_step s2 i2
  obtain ⟨i3, r3⟩ := f3 (by rw [r2, r1]; decide)
  obtain ⟨s4, e4, f4⟩ := exchange_step s3 i3
  obtain ⟨i4, _⟩ := f4 (by rw [r3, r2, r1]; decide)
  obtain ⟨s5, e5, _⟩ := exchange_step s4 i4
  exact ⟨[0x5C], s1, s2, s3, s4, s5, by decide, rfl, rfl, h1, e1, by simp, e2, by simp, e3, by simp, e4, by simp, e5⟩

/-- The last byte that fits, the first that does not, the interrupt off, and before INIT. -/
theorem witness_RxpushAppendsOrLoses :
    (ready.initialised = true ∧ ready.rxIntEn = true ∧
      ({ ready with rxFifo := List.replicate (Config.params.ringSize - 2) 0 } : State).rxFifo.length <
        Config.params.ringSize - 1) ∧
    (ready.initialised = true ∧ Config.params.ringSize - 1 ≤
      ({ ready with rxFifo := List.replicate (Config.params.ringSize - 1) 0 } : State).rxFifo.length) ∧
    ({ ready with rxIntEn := false } : State).rxIntEn = false ∧ State.reset.initialised = false := by
  have := ringSize_ge
  refine ⟨⟨rfl, rfl, ?_⟩, ⟨rfl, ?_⟩, rfl, rfl⟩ <;> simp only [List.length_replicate] <;> omega

theorem witness_WaitingAssemblerFindsStart :
    ready.asmState = .waitingForStart ∧ ready.rxBuf.wf = true ∧ (0x16 : Byte) ≠ 0x68 ∧ ready.rxCursor = ready.rxCount := by
  decide

/-- Where the end sentinel ends a frame, and one byte earlier, where it does not. -/
theorem witness_CollectingAssemblerAppends :
    (collecting.asmState = .collecting ∧ collecting.rxCount < Config.params.maxFrame ∧ collecting.rxBuf.wf = true ∧
      7 ≤ collecting.rxCount + 1) ∧
    ¬ 7 ≤ ({ collecting with rxCount := 5 } : State).rxCount + 1 := by
  have h := maxFrame_ge
  have h7 : 6 < Config.params.maxFrame := by omega
  exact ⟨⟨rfl, h7, by decide, by decide⟩, by decide⟩

theorem witness_FullBufferOverflows :
    let s : State := { collecting with rxCount := Config.params.maxFrame }
    s.asmState = .collecting ∧ s.rxCount = Config.params.maxFrame := ⟨rfl, rfl⟩

/-- An assembler step and an ASMBYTE that complete a frame; and a TASK, in a state of the invariant, that delivers a
record: the last byte of a frame arrives. -/
theorem witness_CompletedFrameShape :
    (collecting.AssemblerStable Config.params ∧ collecting.rxBuf.wf = true ∧
      (∃ t f, asmStep Config.params 0x16 collecting = .next (.completed f, t)) ∧
      ∃ t f, exec (.asmbyte 0x16) collecting = .next t ∧
        t.results = collecting.results ++ [.assembled (.completed f)]) ∧
    ∃ s t es h r, State.Inv s ∧ exec .task s = .next t ∧ t.trace = s.trace ++ es ∧ Event.resp h r ∈ es := by
  have hm := maxFrame_ge
  have h7 : 7 ≤ Config.params.maxFrame := by omega
  have h6 : ¬ 6 = Config.params.maxFrame := by omega
  refine ⟨⟨(collecting_inv.2.2.2 rfl).1.2.2.2.1, by decide, ?_, ?_⟩, ?_⟩
  · simp [asmStep, collecting, ready, State.reset, appendByte, bufferWrite, h6, h7, setAssembler, endsFrame, rspEnd,
      minEndCount, deliverFrame, bufferRead]
  · simp [exec, execAsmbyte, asmStep, collecting, ready, State.reset, appendByte, bufferWrite, h6, h7, setAssembler,
      endsFrame, rspEnd, minEndCount, deliverFrame, bufferRead, answerWith, finish, advance, putResult]
  have h1 := lMin_ge
  have h2 := lMax_le
  have h3 := params_legal.1.2.2.2.1
  have h4 := ringSize_ge
  obtain ⟨f, hf⟩ : ∃ f, f = plainFrame Config.params.lMin 0 := ⟨_, rfl⟩
  obtain ⟨n, hn⟩ : ∃ n, n = Config.params.lMin + 5 := ⟨_, rfl⟩
  have hl : f.length = n + 1 := by rw [hf, plainFrame_length, hn]
  have hw := Memory.writeBytes_wf [] 0 f rfl
  have hlast : (Memory.writeBytes [] 0 f).read n = 0x16 := by
    rw [Memory.read_writeBytes _ _ _ _ rfl, if_pos (by omega), hf, hn]
    exact plainFrame_last _ _
  have hsame : (Memory.writeBytes [] 0 f).write n rspEnd = Memory.writeBytes [] 0 f := by
    refine Memory.ext _ _ (Memory.write_wf _ _ _ hw) hw fun a => ?_
    rw [Memory.read_write _ _ _ _ hw]
    split_ifs with ha
    · rw [ha, hlast, rspEnd]
    · rfl
  have hread : (Memory.writeBytes [] 0 f).readBytes (n + 1) = f := by
    rw [← hl]; exact Memory.readBytes_writeBytes [] f rfl
  obtain ⟨rev, hrev⟩ := plainFrame_detected 0
  have hck : checksumValid f = true := by rw [hf, plainFrame_checksum]; rfl
  rw [← hf] at hrev
  obtain ⟨s, hi, hb, hc, hst, hq, hr, hcb, he⟩ : ∃ s : State, s.Inv ∧ s.rxBuf = Memory.writeBytes [] 0 f ∧
      s.rxCount = n ∧ s.asmState = .collecting ∧ s.rxFifo = [rspEnd] ∧ s.initialised = true ∧
      s.respCb = some 1 ∧ s.engState = .idle := by
    refine ⟨{ ready with
      asmState := .collecting
      rxBuf := Memory.writeBytes [] 0 f
      rxCount := n
      rxCursor := n
      rxFifo := [rspEnd] }, ?_, rfl, rfl, rfl, rfl, rfl, rfl, rfl⟩
    refine ⟨⟨rfl, hw, by simp [ready, State.reset], Memory.writeBytes_bound _ _ _ _ (by simp) (by omega)⟩,
      ⟨Nat.zero_le _, Nat.zero_le _, by show n ≤ _; omega, by show n ≤ _; omega, by show 1 ≤ _; omega⟩, rfl, fun _ =>
      ⟨⟨.inl rfl, fun _ => rfl, by simp [ready, State.reset], ⟨by simp, by simp, fun _ => ⟨by show 1 ≤ n; omega,
        by show n ≤ _; omega, ?_⟩⟩, rfl, by show 1 ≤ _; omega⟩, rfl, rfl, by simp [ready], by simp [ready]⟩⟩
    show (Memory.writeBytes [] 0 f).read 0 = _
    rw [Memory.read_writeBytes _ _ _ _ rfl, if_pos (by omega), hf]
    rfl
  obtain ⟨o, u, hu⟩ := asmStep_total (P := Config.params) (b := rspEnd)
    (s := { s with opActive := true, rxFifo := [] }) (by omega) (by simp [hst]) (by intro _; simp only; omega)
  have ho : o = .completed f ∧ u.trace = s.trace ∧ u.respCb = some 1 ∧ u.engState = .idle := by
    cases asmStep_cases hu with
    | complete _ _ _ => exact ⟨by simp only [hb, hc, hsame, hread], rfl, hcb, he⟩
    | skip h _ => exact absurd (hst.symm.trans h) (by decide)
    | start h _ _ => exact absurd (hst.symm.trans h) (by decide)
    | overflow _ h => exact absurd (hc.symm.trans h) (by omega)
    | append _ _ h => exact absurd ⟨rfl, by show minEndCount < s.rxCount + 1; rw [minEndCount]; omega⟩ h
  obtain ⟨rfl, hu1, hu2, hu3⟩ := ho
  obtain ⟨e, es, hp, hes⟩ := processFrame_eq Config.params f u
  simp only [hrev, hck, if_true, hu2, respEvents_some] at hes
  refine ⟨s, advance { processFrame Config.params f u with opActive := false }, es, 1,
    decodeRecord Config.params f rev true, hi, ?_, by rw [hp, ← hu1]; rfl, by rw [hes.2]; exact List.mem_singleton.mpr rfl⟩
  simp only [exec, execTask]
  rw [hostOp_ready _ _ hr hi.2.2.1]
  simp only [runTask, hq, drain, takeByte]
  rw [hu]
  simp only [andThen_next, onOutcome, checkDeadline]
  rw [if_neg (by rw [hp]; simp [hu3])]
  rfl

/-- No end sentinel at all; and one at the last place where it is data. -/
theorem witness_OverlongFrameOverflows :
    (ready.asmState = .waitingForStart ∧ ready.rxBuf.wf = true) ∧
    (∃ bs : List Byte, bs.length = Config.params.maxFrame - 1 ∧ ∀ k, bs.getD k 0 = 0x16 → k + 2 < 7) ∧
    ∃ bs : List Byte, bs.length = Config.params.maxFrame - 1 ∧ bs.getD 4 0 = 0x16 ∧
      ∀ k, bs.getD k 0 = 0x16 → k + 2 < 7 := by
  have h := maxFrame_ge
  have hz : ∀ n k : Nat, (List.replicate n (0 : Byte)).getD k 0 ≠ 0x16 := by
    intro n k
    rw [List.getD_eq_getElem?_getD, List.getElem?_replicate]
    split_ifs <;> decide
  refine ⟨by decide, ⟨List.replicate (Config.params.maxFrame - 1) 0, by simp, fun k hk => absurd hk (hz _ _)⟩,
    [0, 0, 0, 0, 0x16] ++ List.replicate (Config.params.maxFrame - 6) 0, by simp; omega, rfl, ?_⟩
  intro k hk
  by_contra hc
  obtain ⟨j, rfl⟩ : ∃ j, k = j + 5 := ⟨k - 5, by omega⟩
  exact hz _ _ hk

theorem witness_Xor8IsParityPerBit :
    ([] : List Byte).length ≤ 65535 ∧ (List.replicate 65535 (0 : Byte)).length ≤ 65535 := by
  simp only [List.length_replicate]
  decide

/-- Both clauses, at the bound and one byte over it. -/
theorem witness_BuildMakesCommandFrame :
    (List.replicate (Config.params.maxFrame - 4) (0 : Byte)).length ≤ Config.params.maxFrame - 4 ∧
    Config.params.maxFrame - 4 < (List.replicate (Config.params.maxFrame - 3) (0 : Byte)).length := by
  have := maxFrame_ge
  simp only [List.length_replicate]
  omega

theorem witness_CommandFramesAreUnambiguous :
    ∃ f, buildFrame Config.params 0x5B [] = some f ∧ f ++ [0x10] = f ++ [0x10] :=
  ⟨_, buildFrame_some _ _ _ (Nat.zero_le _), rfl⟩

/-- Both clauses: five bytes; the shortest sequence with a checksum byte. -/
theorem witness_CksumTestsSumFromIndexFour :
    ([0x01, 0x02, 0x03, 0x04, 0x05] : List Byte).length < 6 ∧ ([0x68, 0x00, 0x00, 0x68] : List Byte).length = 4 := by
  decide

/-- The first and the last byte the sum covers. -/
theorem witness_OneByteChangeBreaksChecksum :
    checksumValid frame11 = true ∧ 4 + 2 < frame11.length ∧ 18 + 2 < frame11.length ∧ (0x09 : Byte) ≠ frame11.getD 4 0 ∧
    (0x35 : Byte) ≠ frame11.getD 18 0 := by decide

/-- The first UserData byte and the last one of a valid frame with a right checksum. -/
theorem witness_ChecksumDoesNotClassify (f : List Byte) (hf : f = plainFrame Config.params.lMin 0) :
    validate Config.params f = true ∧ checksumValid f = true ∧ 7 + 2 < f.length ∧ 7 ≤ f.length - 3 ∧
    f.length - 3 + 2 < f.length ∧ (1 : Byte) ≠ f.getD 7 0 := by
  subst hf
  have h1 := lMin_ge
  refine ⟨plainFrame_valid _, by rw [plainFrame_checksum]; rfl, ?_, ?_, ?_, ?_⟩
  · rw [plainFrame_length]; omega
  · rw [plainFrame_length]; omega
  · rw [plainFrame_length]; omega
  · obtain ⟨n, hn⟩ : ∃ n, Config.params.lMin = n + 4 := ⟨Config.params.lMin - 4, by omega⟩
    rw [hn]
    simp [plainFrame, List.replicate_succ]

theorem witness_MarkerDoesNotClassify : ∃ rev, detect Config.params (plainFrame Config.params.lMin 0) = some rev :=
  plainFrame_detected 0

/-- Both clauses: a largest digit everywhere; a nibble of ten. -/
theorem witness_Bcd4ReadsDigits :
    (∀ b ∈ ([0x99, 0x99, 0x99, 0x99] : List Byte), b.toNat / 16 ≤ 9 ∧ b.toNat % 16 ≤ 9) ∧
    ∃ b ∈ ([0x78, 0x56, 0x34, 0x1A] : List Byte), 9 < b.toNat / 16 ∨ 9 < b.toNat % 16 := by decide

/-- Each end of the range of revision codes, and its neighbours outside it. -/
theorem witness_StatusDecodesPerRevision :
    ([1, 4].all fun r : Byte => decide (1 ≤ r.toNat ∧ r.toNat ≤ 4)) = true ∧
    ([0, 5].all fun r : Byte => decide ((r.toNat = 0 ∨ 5 ≤ r.toNat) ∧
      ({ State.reset with stream := [[0x29, r, 0, 0, 0x05]] } : State).stream[0]? = some (0x29 :: r :: 0 :: 0 :: [0x05]))) =
      true := by decide

theorem witness_StatusByteIsFullyUsed :
    (Revision.v13 = .v13 ∨ Revision.v13 = .v14) ∧
    statusFields Config.params .v13 0x84 0x13 = statusFields Config.params .v13 0x84 0x13 := ⟨.inl rfl, rfl⟩

/-- Both clauses: 15 bytes and 16. -/
theorem witness_UdfReadsTrailer :
    (List.replicate 15 (0 : Byte)).length < 16 ∧ 16 ≤ (List.replicate 16 (0 : Byte)).length := by decide

/-- Both clauses: the empty sequence, and a classified frame. -/
theorem witness_DecodeGivesRecord :
    detect Config.params [] = none ∧ ∃ rev, detect Config.params (plainFrame Config.params.lMin 0) = some rev :=
  ⟨rfl, plainFrame_detected 0⟩

end Sys2Proof.Tests
end

section
/-! PROOF. The FrameBuilder's XOR8 (spec/40_frame_builder.md R141): the rules for its encoding, its exclusive-or and its
completion, and the obligation assembled from them. -/

namespace Sys2Proof

open Sys2Proof.Machine

/-- A sequence operand of known length is read whole, and the bytes after it are left (R122). -/
theorem takeSequence_append (k : List Byte → Instr) (s rest : List Byte) :
    takeSequence s.length k (s ++ rest) = .op (k s) rest := by
  simp [takeSequence]

/-- Format FN reads back the operand its encoding wrote, whatever bytes follow (R120). -/
theorem readOperands_fn_sequenceBytes (k : List Byte → Instr) (s rest : List Byte) (h : sequenceFits s) :
    readOperands (.fn k) (sequenceBytes s ++ rest) = .op (k s) rest := by
  simp only [sequenceBytes, List.cons_append, readOperands, Laws.countOf_sequence s h, takeSequence_append]

/-- Opcode byte 0x21 in front of a sequence operand is XOR8 of that sequence (R123). -/
theorem decode_xor8 (s rest : List Byte) (h : sequenceFits s) :
    decode (0x21 :: (sequenceBytes s ++ rest)) = .op (.xor8 s) rest :=
  readOperands_fn_sequenceBytes .xor8 s rest h

/-- XOR8 completes in every state, and its result is the checksum of its operand (R141). -/
theorem exec_xor8 (bs : List Byte) (s : State) : exec (.xor8 bs) s = .next (s.returned (.checksum (xor8 bs))) :=
  answerWith_eq _ s

/-- The checksum of a longer sequence is its first byte against the checksum of the rest. -/
theorem xor8_cons (b : Byte) (bs : List Byte) : xor8 (b :: bs) = b ^^^ xor8 bs := by
  have h := xor8_append [b] bs
  rwa [show xor8 [b] = b from BitVec.zero_xor] at h

/-- A bit of the checksum is set exactly when an odd number of the bytes have it: each byte that has the bit flips
both the bit and the parity of the count. -/
theorem xor8_getLsbD_iff (bs : List Byte) (k : Nat) :
    (xor8 bs).getLsbD k = true ↔ bs.countP (fun b => b.getLsbD k) % 2 = 1 := by
  induction bs with
  | nil => simp [xor8]
  | cons b bs ih =>
    rw [xor8_cons, BitVec.getLsbD_xor, List.countP_cons]
    cases hb : b.getLsbD k with
    | false => simpa using ih
    | true =>
      have hflip : (xor8 bs).getLsbD k = false ↔ ¬ bs.countP (fun b => b.getLsbD k) % 2 = 1 := by
        rw [← ih, Bool.not_eq_true]
      simp only [Bool.true_xor, Bool.not_eq_true', hflip, if_true]
      omega

/-- Settles O43: the encoding decodes by the rule for format FN, the reported checksum has each bit by the parity of
the bytes that have it, and the checksum of the spec's example evaluates to 0x16. -/
theorem xor8IsParityPerBit : Obligations.Xor8IsParityPerBit := by
  unfold Obligations.Xor8IsParityPerBit
  intro bs s
  refine ⟨fun hfits => ?_, ⟨xor8 bs, exec_xor8 bs s, fun k _ => xor8_getLsbD_iff bs k⟩, exec_xor8 _ s⟩
  simpa [sequenceBytes] using decode_xor8 bs [] hfits

end Sys2Proof
end

section
/-! PROOF. ASMBYTE away from a full buffer (spec/41_receive_assembler.md R160 to R162, R164 to R168): one equation per
case of the assembler's step, what ASMBYTE makes of the step's outcome, and the obligations assembled from them. -/

namespace Sys2Proof

open Sys2Proof.Machine

/-- The bytes up to and including the one just stored at the count. -/
theorem readBytes_succ_write (m : Memory) (n : Nat) (b : Byte) (h : m.wf = true) :
    (m.write n b).readBytes (n + 1) = m.readBytes n ++ [b] := by
  have hbelow : (m.write n b).readBytes n = m.readBytes n :=
    List.map_congr_left fun k hk =>
      Memory.read_write_other m n k b h (Nat.ne_of_lt (List.mem_range.mp hk))
  rw [Memory.readBytes_succ, hbelow, Memory.read_write_same m n b h]

/-- A waiting assembler discards a byte without a start sentinel (R161). -/
theorem asmStep_skip {P : Params} {b : Byte} {s : State} (ha : s.asmState = .waitingForStart) (hb : b ≠ rspStart) :
    asmStep P b s = .next (.none, { s with rxCursor := s.rxCount }) := by
  simp [asmStep, ha, hb]

/-- A waiting assembler starts a frame at the start sentinel (R160). -/
theorem asmStep_start {P : Params} {s : State} (ha : s.asmState = .waitingForStart) (hm : 1 ≤ P.maxFrame) :
    asmStep P rspStart s =
      .next (.none, setAssembler .collecting 1 { s with rxBuf := s.rxBuf.write 0 rspStart }) := by
  simp [asmStep, ha, bufferWrite, hm, Memory.writeBytes]

/-- A collecting assembler with room stores the byte, then makes the end check (R164, R165). -/
theorem asmStep_collecting {P : Params} {b : Byte} {s : State} (ha : s.asmState = .collecting)
    (hl : s.rxCount < P.maxFrame) :
    asmStep P b s =
      if endsFrame b (s.rxCount + 1) then
        .next (.completed ((s.rxBuf.write s.rxCount b).readBytes (s.rxCount + 1)),
          setAssembler .waitingForStart 0 { s with rxBuf := s.rxBuf.write s.rxCount b })
      else
        .next (.none, setAssembler .collecting (s.rxCount + 1) { s with rxBuf := s.rxBuf.write s.rxCount b }) := by
  simp [asmStep, ha, Nat.ne_of_lt hl, appendByte, bufferWrite, Nat.succ_le_of_lt hl, Memory.writeBytes, deliverFrame,
    bufferRead, setAssembler]

/-- The end check says what R165 says: the end sentinel, as the seventh byte or a later one. -/
theorem endsFrame_iff (b : Byte) (n : Nat) : endsFrame b n = true ↔ b = 0x16 ∧ 7 ≤ n :=
  decide_eq_true_iff

/-- Setting the cursor to the value it has changes nothing. -/
theorem setRxCursor_eq_self {s : State} {n : Nat} (h : s.rxCursor = n) : { s with rxCursor := n } = s := by
  subst h
  rfl

/-- ASMBYTE returns the outcome of the assembler's step (R168). -/
theorem exec_asmbyte {b : Byte} {s t : State} {o : AsmOutcome} (h : asmStep Config.params b s = .next (o, t)) :
    exec (.asmbyte b) s = .next (t.returned (.assembled o)) := by
  rw [exec, execAsmbyte, h, andThen_next, answerWith_eq]

/-- Settles O39: the byte is stored at the count whatever it is, and the end check alone decides between a completed
frame, whose last byte is the one just stored, and a longer partial frame. -/
theorem collectingAssemblerAppends : Obligations.CollectingAssemblerAppends := by
  unfold Obligations.CollectingAssemblerAppends
  intro b s ha hl hw
  refine ⟨s.rxBuf.write s.rxCount b, fun k => Memory.read_write _ _ k b hw, ?_⟩
  have hstep := asmStep_collecting (b := b) ha hl
  split_ifs with he
  · rw [if_pos ((endsFrame_iff _ _).mpr he), readBytes_succ_write _ _ _ hw] at hstep
    exact exec_asmbyte hstep
  · rw [if_neg (mt (endsFrame_iff _ _).mp he), setAssembler, ← ha] at hstep
    exact exec_asmbyte hstep

/-- Settles O38: a byte other than the start sentinel moves at most the cursor, and nothing where the cursor already
equals the count; the start sentinel is stored at index 0 and starts a frame. -/
theorem waitingAssemblerFindsStart : Obligations.WaitingAssemblerFindsStart := by
  unfold Obligations.WaitingAssemblerFindsStart
  intro b s ha hw
  constructor
  · intro hb
    have hskip := exec_asmbyte (asmStep_skip ha hb)
    refine ⟨hskip, fun hcursor => ?_⟩
    rwa [setRxCursor_eq_self hcursor] at hskip
  · rintro rfl
    have hroom : 1 ≤ Config.params.maxFrame := le_trans (by decide) maxFrame_ge
    exact ⟨s.rxBuf.write 0 rspStart, fun k => Memory.read_write _ _ k _ hw, exec_asmbyte (asmStep_start ha hroom)⟩

end Sys2Proof
end

section
/-! PROOF. An accepted SEND (spec/42_protocol_engine.md R203, R220 to R223): the command frame's length and checksum,
the effect of SEND where it is accepted, and the obligation assembled from them. -/

namespace Sys2Proof

open Sys2Proof.Machine

/-- The command frame of a command code and a payload, checksum included (R142). -/
def commandFrame (c : Byte) (d : List Byte) : List Byte := frameBody c d ++ [xor8 (frameBody c d)]

theorem buildFrame_commandFrame {P : Params} {c : Byte} {d : List Byte} (h : d.length ≤ P.maxFrame - 4) :
    buildFrame P c d = some (commandFrame c d) :=
  buildFrame_some P c d h

@[simp] theorem commandFrame_length (c : Byte) (d : List Byte) : (commandFrame c d).length = 4 + d.length := by
  simp only [commandFrame, frameBody, List.length_append, List.length_cons, List.length_nil]
  omega

/-- A sequence followed by its own checksum has checksum 0 (R141). -/
theorem xor8_append_xor8 (s : List Byte) : xor8 (s ++ [xor8 s]) = 0 := by
  have hlast : xor8 [xor8 s] = xor8 s := BitVec.zero_xor
  rw [xor8_append, hlast]
  exact BitVec.xor_self

/-- A host operation other than INIT completes, where it may run and its effect completes, with what the effect
leaves. -/
theorem hostOp_completes {s t : State} {effect : State → Answer} (hr : s.Ready)
    (h : effect { s with opActive := true } = .next t) :
    hostOp s effect = .next { t with opActive := s.opActive, pc := t.pc + 1 } := by
  obtain ⟨hi, ha⟩ := hr
  rw [hostOp_ready s effect hi ha, h, ha]
  rfl

/-- What an accepted SEND does: it stores the command frame from index 0 on, transmits it and returns `Ok`. -/
theorem sendCommand_accepted {P : Params} {c : Byte} {d : List Byte} {s : State} (he : s.engState = .idle)
    (hw : s.txBuf.wf = true) (hd : d.length ≤ P.maxFrame - 4) (hm : 4 ≤ P.maxFrame) :
    sendCommand P c d s = .next
      { s with
        engState := .waitingForResponse
        txBuf := s.txBuf.writeBytes 0 (commandFrame c d)
        txLen := 4 + d.length
        txCursor := 4 + d.length
        retryCount := 0
        rxFifo := []
        asmState := .waitingForStart
        rxCount := 0
        rxCursor := 0
        rxIntEn := true
        tick := s.tick + Config.freeDelay s.draws
        deadline := s.tick + Config.freeDelay s.draws + BitVec.ofNat 32 P.timeoutMs
        trace := s.trace ++ [.preamble P.preambleMs, .tx (commandFrame c d)]
        results := s.results ++ [.code 0]
        draws := s.draws + 1 } := by
  have hfits : 4 + d.length ≤ P.maxFrame := by omega
  have hread : (s.txBuf.writeBytes 0 (commandFrame c d)).readBytes (4 + d.length) = commandFrame c d := by
    simpa using Memory.readBytes_writeBytes s.txBuf (commandFrame c d) hw
  simp only [sendCommand, he, ne_eq, not_true_eq_false, if_false, buildFrame_commandFrame hd, bufferWrite,
    commandFrame_length, Nat.zero_add, hfits, if_true, andThen_next]
  rw [startTransmission_eq _ _ hfits, andThen_next, hread]
  rfl

/-- Settles O25: the stored and transmitted frame is the command frame, whose last byte makes its checksum 0, and the
delay is the value the transmission draws. -/
theorem acceptedSendStartsExchange : Obligations.AcceptedSendStartsExchange := by
  unfold Obligations.AcceptedSendStartsExchange
  intro a c d s hr he hw hd
  have hm : 4 ≤ Config.params.maxFrame := le_trans (by decide) maxFrame_ge
  refine ⟨xor8 (frameBody c d), Config.freeDelay s.draws, s.txBuf.writeBytes 0 (commandFrame c d), commandFrame c d,
    rfl, xor8_append_xor8 _, fun k => ?_, hostOp_completes hr (sendCommand_accepted he hw hd hm)⟩
  simpa using Memory.read_writeBytes s.txBuf 0 k (commandFrame c d) hw

end Sys2Proof
end

section
/-! PROOF. TASK over bytes that finish no frame (spec/42_protocol_engine.md R200, R230 to R236, R238): the state such a
drain leaves, what the deadline test makes of it, what one byte more makes of a full buffer, and the obligations
assembled from them. -/

namespace Sys2Proof

open Sys2Proof.Machine

/-- TASK completes, where it may run and its effect completes, with what the effect leaves (R200). -/
theorem exec_task {s t : State} (hr : s.Ready) (h : runTask Config.params { s with opActive := true } = .next t) :
    exec .task s = .next { t with opActive := s.opActive, pc := t.pc + 1 } :=
  hostOp_completes hr h

/-- The state that a TASK leaves before its deadline test, where the FIFO held bytes that finish no frame and overflow
nothing, `rest` being those it stored from index `n` on (`drain_fifo_unfinished`). -/
def drained (s : State) (n : Nat) (rest : List Byte) : State :=
  { s with
    rxFifo := []
    rxBuf := s.rxBuf.writeBytes n rest
    asmState := if rest = [] then s.asmState else .collecting
    rxCount := if rest = [] then s.rxCount else n + rest.length
    rxCursor := if s.rxFifo = [] then s.rxCursor else if rest = [] then s.rxCount else n + rest.length }

/-- A TASK drains nothing from an empty FIFO. -/
theorem drained_nil {s : State} (n : Nat) (he : s.rxFifo = []) : drained s n [] = s := by
  cases s
  subst he
  rfl

/-- The drain of a FIFO that is empty, or whose bytes finish no frame and overflow nothing (R230). -/
theorem drain_fifo_unfinished {P : Params} {s : State} {n : Nat} {noise rest : List Byte}
    (hf : s.rxFifo = noise ++ rest) (hu : s.rxFifo = [] ∨ s.Unfinished P n noise rest) :
    drain P s.rxFifo s = .next (drained s n rest) := by
  by_cases he : s.rxFifo = []
  · obtain ⟨-, rfl⟩ := List.append_eq_nil_iff.mp (hf.symm.trans he)
    rw [he, drained_nil n he]
    rfl
  · have hdrain := drain_unfinished (more := []) (hu.resolve_left he) (hf ▸ he)
    rw [List.append_nil, ← hf] at hdrain
    rw [hdrain, drained, if_neg he]
    rfl

/-- An elapsed deadline of an outstanding exchange is a timeout (R231). -/
theorem checkDeadline_elapsed {P : Params} {s : State} (hw : s.engState = .waitingForResponse)
    (ht : (s.tick - s.deadline).toNat < 2 ^ 31) : checkDeadline P s = onTimeout P s :=
  if_pos ⟨hw, decide_eq_true ht⟩

/-- The deadline is not looked at where no exchange is outstanding (R231). -/
theorem checkDeadline_idle {P : Params} {s : State} (hi : s.engState = .idle) : checkDeadline P s = .next s :=
  if_neg fun h => by simp [hi] at h

/-- What a timeout does with a retry left (R232, R234): the report, then the transmission of the stored frame. -/
theorem onTimeout_retransmit {P : Params} {s : State} (hretry : s.retryCount.toNat < 3) (hl : s.txLen ≤ P.maxFrame) :
    onTimeout P s = .next
      { s with
        lastError := .timeout
        trace := s.trace ++ errEvents s.errCb .timeout ++
          [.preamble P.preambleMs, .tx (s.txBuf.readBytes s.txLen)]
        retryCount := s.retryCount + 1
        engState := .waitingForResponse
        txCursor := s.txLen
        rxFifo := []
        asmState := .waitingForStart
        rxCount := 0
        rxCursor := 0
        rxIntEn := true
        tick := s.tick + Config.freeDelay s.draws
        deadline := s.tick + Config.freeDelay s.draws + BitVec.ofNat 32 P.timeoutMs
        draws := s.draws + 1 } := by
  simp only [onTimeout, raiseError_eq, maxRetry, hretry, if_true]
  exact startTransmission_eq P _ hl

/-- A TASK whose drain ends no exchange, and which then finds the deadline elapsed, runs the timeout on what it
drained (R231). -/
theorem runTask_timeout {P : Params} {s : State} {n : Nat} {noise rest : List Byte}
    (hw : s.engState = .waitingForResponse) (hf : s.rxFifo = noise ++ rest)
    (hu : s.rxFifo = [] ∨ s.Unfinished P n noise rest) (ht : (s.tick - s.deadline).toNat < 2 ^ 31) :
    runTask P s = onTimeout P (drained s n rest) := by
  rw [runTask, drain_fifo_unfinished hf hu, andThen_next]
  exact checkDeadline_elapsed hw ht

/-- A timeout TASK completes with what the timeout leaves. -/
theorem exec_task_timeout {s t : State} {n : Nat} {noise rest : List Byte} (hr : s.Ready)
    (hw : s.engState = .waitingForResponse) (hf : s.rxFifo = noise ++ rest)
    (hu : s.rxFifo = [] ∨ s.Unfinished Config.params n noise rest) (ht : (s.tick - s.deadline).toNat < 2 ^ 31)
    (h : onTimeout Config.params (drained { s with opActive := true } n rest) = .next t) :
    exec .task s = .next { t with opActive := s.opActive, pc := t.pc + 1 } :=
  exec_task hr ((runTask_timeout (s := { s with opActive := true }) hw hf hu ht).trans h)

/-- Settles O29: the transmission resets the receive side, so of what the drain did only the stored bytes remain. -/
theorem timeoutRetransmits : Obligations.TimeoutRetransmits := by
  unfold Obligations.TimeoutRetransmits
  intro s n noise rest hr hw hf hu hwf ht hretry hl
  have htask := exec_task_timeout hr hw hf hu ht (onTimeout_retransmit hretry hl)
  rw [← hw] at htask
  exact ⟨Config.freeDelay s.draws, s.rxBuf.writeBytes n rest, storedFrom_writeBytes _ _ _ hwf, htask⟩

/-- Settles O30: the abandon writes the engine's fields alone, so the receive side is as the drain left it. -/
theorem lastTimeoutAbandons : Obligations.LastTimeoutAbandons := by
  unfold Obligations.LastTimeoutAbandons
  intro s n noise rest hr hw hf hu hwf ht hretry
  exact ⟨s.rxBuf.writeBytes n rest, storedFrom_writeBytes _ _ _ hwf,
    exec_task_timeout hr hw hf hu ht (onTimeout_abandon _ _ (Nat.not_lt.mpr hretry))⟩

/-- The drain of bytes that fill the buffer, or of none where it is full, and one byte more: the overflow, reported from
a waiting assembler (R163, R238). -/
theorem drain_overflow {P : Params} {s : State} {n : Nat} {noise rest : List Byte} {b : Byte} (hm : 1 ≤ P.maxFrame)
    (hu : s.Unfinished P n noise rest) (hfull : n + rest.length = P.maxFrame) :
    drain P (noise ++ rest ++ [b]) s = .next (onOverflow
      { s with
        rxFifo := []
        rxBuf := s.rxBuf.writeBytes n rest
        asmState := .waitingForStart
        rxCount := 0
        rxCursor := 0 }) := by
  by_cases hrest : rest = []
  · subst hrest
    obtain ⟨-, -, ⟨ha, rfl, rfl⟩ | ⟨-, -, rfl, -⟩⟩ := hu
    · exact congrArg (andThen · (drain P [])) (takeByte_overflow (s := { s with rxFifo := [] }) ha hfull)
    · simp only [List.length_nil] at hfull
      omega
  · rw [drain_unfinished hu (by simp [hrest]), drain_cons,
      takeByte_overflow (if_neg hrest) ((if_neg hrest).trans hfull)]
    rfl

/-- A TASK whose drain ends with an overflow: after it no exchange is outstanding, so the deadline is not looked at
(R231, R238). -/
theorem runTask_overflow {P : Params} {s : State} {n : Nat} {noise rest : List Byte} {b : Byte} (hm : 1 ≤ P.maxFrame)
    (he : s.engState = .idle ∨ s.engState = .waitingForResponse) (hf : s.rxFifo = noise ++ rest ++ [b])
    (hu : s.Unfinished P n noise rest) (hfull : n + rest.length = P.maxFrame) :
    runTask P s = .next
      { s with
        engState := .idle
        retryCount := if s.engState = .waitingForResponse then 0 else s.retryCount
        lastError := .bufferOverflow
        trace := s.trace ++ errEvents s.errCb .bufferOverflow
        rxFifo := []
        rxBuf := s.rxBuf.writeBytes n rest
        asmState := .waitingForStart
        rxCount := 0
        rxCursor := 0 } := by
  have hidle : (if s.engState = .waitingForResponse then .idle else s.engState) = EngState.idle := by
    rcases he with he | he <;> simp [he]
  rw [runTask, hf, drain_overflow hm hu hfull, andThen_next, onOverflow_eq]
  simp only [hidle]
  exact checkDeadline_idle rfl

/-- Settles O33: the bytes before the one that is lost are stored, and ending the exchange leaves the deadline without
effect. -/
theorem overflowEndsExchange : Obligations.OverflowEndsExchange := by
  unfold Obligations.OverflowEndsExchange
  intro s n noise rest b hr he hwf hf hu hfull
  have hm : 1 ≤ Config.params.maxFrame := le_trans (by decide) maxFrame_ge
  exact ⟨s.rxBuf.writeBytes n rest, storedFrom_writeBytes _ _ _ hwf,
    exec_task hr (runTask_overflow hm he hf hu hfull)⟩

end Sys2Proof
end

section
/-! PROOF. VALIDATE, DETECT and the response checksum under the change of one byte (spec/43_version_detector.md R252 to
R257): which bytes validation and classification read, what a changed byte makes of the sum, and the obligations
assembled from them. -/

namespace Sys2Proof

open Sys2Proof.Machine

/-- DETECT completes in every state, and its result is the code of the classification (R258). -/
theorem exec_detect (f : List Byte) (s : State) :
    exec (.detect f) s = .next (s.returned (.code (revisionCode (detect Config.params f)))) :=
  answerWith_eq _ s

/-- A frame that VALIDATE refuses is `Unknown` (R258). -/
theorem detect_of_invalid {P : Params} {f : List Byte} (hv : validate P f = false) : detect P f = none :=
  if_pos hv

/-- A frame that VALIDATE accepts has the revision of the first of the four rules that matches (R257). -/
theorem detect_of_valid {P : Params} {f : List Byte} (hv : validate P f = true) :
    detect P f = some
      (if (byteAt f 1).toNat - 3 = 12 then .v11
      else if userData f 12 = P.tag2 then .v12
      else if userData f 12 = P.tag3 then .v13
      else if userData f 12 = P.tag4 then .v14
      else if (userData f 7).extractLsb' 6 2 ≠ 0 then .v14
      else .v12) := by
  rw [detect, hv, if_neg (by decide)]
  simp only [apply_ite some]

/-- Settles O50: the code of the classification is computed rule by rule, and rule 4 looks at the two top bits one by
one. -/
theorem detectTakesFirstMatch : Obligations.DetectTakesFirstMatch := by
  unfold Obligations.DetectTakesFirstMatch
  intro f s
  refine ⟨_, exec_detect f s, ?_⟩
  cases hv : validate Config.params f with
  | false => rw [detect_of_invalid hv]; rfl
  | true =>
    rw [detect_of_valid hv]
    simp only [apply_ite some, apply_ite revisionCode, topBits_ne_zero]
    rfl

/-- A frame of fewer than seven bytes is refused (R252). -/
theorem validate_of_short {P : Params} {f : List Byte} (h : f.length < 7) : validate P f = false :=
  if_pos h

/-- Validation reads the four header bytes and the last byte, and no other (R252). -/
theorem validate_set (P : Params) {f : List Byte} {k : Nat} (x : Byte) (hhead : 4 ≤ k) (hlast : k ≠ f.length - 1) :
    validate P (f.set k x) = validate P f := by
  have hbyte (j : Nat) (hj : k ≠ j) : byteAt (f.set k x) j = byteAt f j := byteAt_set_other f j k x hj
  simp only [validate, List.length_set, hbyte _ hlast, hbyte 0 (by omega), hbyte 1 (by omega), hbyte 2 (by omega),
    hbyte 3 (by omega)]

/-- Validation does not read the checksum byte (R255). -/
theorem validate_set_checksum (P : Params) (f : List Byte) (x : Byte) :
    validate P (f.set (f.length - 2) x) = validate P f := by
  by_cases hshort : f.length < 7
  · rw [validate_of_short hshort, validate_of_short (by rwa [List.length_set])]
  · exact validate_set P x (by omega) (by omega)

/-- A valid frame that is not of revision 1 by its length has its version tag before its checksum byte: only at `L = 15`
do the two share index 19 (R111, R256). -/
theorem tag_before_checksum {f : List Byte} (hv : validate Config.params f = true)
    (hL : (byteAt f 1).toNat - 3 ≠ 12) : 19 < f.length - 2 := by
  obtain ⟨-, -, -, -, -, hmin, -, hlen⟩ := (validate_iff _ _).mp hv
  have := lMin_ge
  omega

/-- Classification does not depend on the checksum byte (R255). -/
theorem detect_set_checksum (f : List Byte) (x : Byte) :
    detect Config.params (f.set (f.length - 2) x) = detect Config.params f := by
  have hset := validate_set_checksum Config.params f x
  cases hv : validate Config.params f with
  | false => rw [detect_of_invalid hv, detect_of_invalid (hset.trans hv)]
  | true =>
    have hlen : 21 ≤ f.length := detect_length (detect_of_valid hv)
    have hbyte (j : Nat) (hj : j < f.length - 2) : byteAt (f.set (f.length - 2) x) j = byteAt f j :=
      byteAt_set_other f j _ x (Nat.ne_of_gt hj)
    rw [detect_of_valid hv, detect_of_valid (hset.trans hv), hbyte 1 (by omega)]
    by_cases hL : (byteAt f 1).toNat - 3 = 12
    · rw [if_pos hL, if_pos hL]
    · have htag : userData (f.set (f.length - 2) x) 12 = userData f 12 := hbyte (7 + 12) (tag_before_checksum hv hL)
      have htop : userData (f.set (f.length - 2) x) 7 = userData f 7 := hbyte (7 + 7) (by omega)
      rw [htag, htop]

/-- The response checksum is the sum in the ring of bytes (R253). -/
theorem sum8_eq_sum (bs : List Byte) : sum8 bs = bs.sum :=
  List.sum_eq_foldl.symm

/-- A changed byte keeps the sum only where it is the byte that was there (R253). -/
theorem sum8_set_eq_iff {bs : List Byte} {k : Nat} (x : Byte) (hk : k < bs.length) :
    sum8 (bs.set k x) = sum8 bs ↔ x = bs[k] := by
  rw [sum8_eq_sum, sum8_eq_sum, List.sum_set', dif_pos hk, add_eq_left, neg_add_eq_zero, eq_comm]

/-- A change inside a sequence, as seen from index `a` on. -/
theorem bytesFrom_set (f : List Byte) {a k : Nat} (n : Nat) (x : Byte) (h : a ≤ k) :
    bytesFrom (f.set k x) a n = (bytesFrom f a n).set (k - a) x := by
  rw [bytesFrom, List.drop_set, if_neg (Nat.not_lt.mpr h), List.take_set, bytesFrom]

/-- What a true `checksum_valid` says of a frame that is not too short (R254). -/
theorem checksumValid_iff {f : List Byte} (h : 6 ≤ f.length) :
    checksumValid f = true ↔ byteAt f (f.length - 2) = sum8 (bytesFrom f 4 (f.length - 6)) := by
  rw [checksumValid, if_neg (Nat.not_lt.mpr h), decide_eq_true_iff]

/-- Another value at any one summed byte makes a true `checksum_valid` false: the checksum byte stays, the sum does not
(R254). -/
theorem checksumValid_set_eq_false {f : List Byte} {k : Nat} {x : Byte} (hc : checksumValid f = true) (h4 : 4 ≤ k)
    (hk : k + 2 < f.length) (hx : x ≠ f.getD k 0) : checksumValid (f.set k x) = false := by
  rw [← Bool.not_eq_true, checksumValid_iff (by rw [List.length_set]; omega), List.length_set,
    byteAt_set_other f _ k x (by omega), (checksumValid_iff (by omega)).mp hc, bytesFrom_set f _ x h4, eq_comm,
    sum8_set_eq_iff x (by simp [bytesFrom]; omega)]
  have hidx : 4 + (k - 4) = k := by omega
  rw [List.getD_eq_getElem _ _ (by omega)] at hx
  simpa only [bytesFrom, List.getElem_take, List.getElem_drop, hidx] using hx

/-- Settles O51: no check and no classification rule reads the checksum byte; a UserData byte lies between the bytes
that validation reads, and is summed by the checksum. -/
theorem checksumDoesNotClassify : Obligations.ChecksumDoesNotClassify := by
  unfold Obligations.ChecksumDoesNotClassify
  intro f x
  refine ⟨validate_set_checksum _ f x, detect_set_checksum f x, fun k hv h7 hk => ?_⟩
  have hvalid : validate Config.params (f.set k x) = true := (validate_set _ x (by omega) (by omega)).trans hv
  refine ⟨hvalid, ?_, fun hc hx => checksumValid_set_eq_false hc (by omega) hk hx⟩
  rw [detect_of_valid hvalid]
  exact Option.some_ne_none _

end Sys2Proof
end

section
/-! PROOF. The FieldDecoder's BCD4 and DIAM (spec/44_field_decoder.md R285, R286, R291, R292): the number of valid and
of invalid digits, the diameter table, and the obligations assembled from them. -/

namespace Sys2Proof

open Sys2Proof.Machine

/-- Opcode byte 0x26 in front of four bytes is BCD4 of them, in wire order (R123). -/
theorem decode_bcd4 (b0 b1 b2 b3 : Byte) (rest : List Byte) :
    decode (0x26 :: b0 :: b1 :: b2 :: b3 :: rest) = .op (.bcd4 b0 b1 b2 b3) rest := rfl

/-- BCD4 completes in every state, and its result is the number of its operands (R285). -/
theorem exec_bcd4 (b0 b1 b2 b3 : Byte) (s : State) :
    exec (.bcd4 b0 b1 b2 b3) s = .next (s.returned (.number (bcd4 b0 b1 b2 b3))) :=
  answerWith_eq _ s

/-- A digit pair is ten times the upper nibble and the lower one (R286). -/
theorem digitPair_toNat (b : Byte) : (digitPair b).toNat = b.toNat / 16 * 10 + b.toNat % 16 := by
  rw [digitPair, highNibble_toNat, lowNibble_toNat, BitVec.toNat_ofNat, Nat.mod_eq_of_lt (by omega)]

/-- Two decimal digits make at most 99. -/
theorem digitPair_le {b : Byte} (h : isBcd b = true) : (digitPair b).toNat ≤ 99 := by
  obtain ⟨hhigh, hlow⟩ := (isBcd_iff b).mp h
  rw [digitPair_toNat]
  omega

/-- Each of four pairs of decimal digits is at most 99. -/
theorem digitPair_le_of_mem {b0 b1 b2 b3 : Byte} (h : ∀ b ∈ [b0, b1, b2, b3], isBcd b = true) :
    (digitPair b0).toNat ≤ 99 ∧ (digitPair b1).toNat ≤ 99 ∧ (digitPair b2).toNat ≤ 99 ∧ (digitPair b3).toNat ≤ 99 :=
  ⟨digitPair_le (h b0 (by simp)), digitPair_le (h b1 (by simp)), digitPair_le (h b2 (by simp)),
    digitPair_le (h b3 (by simp))⟩

/-- One bad byte anywhere makes the whole number 0 (R285). -/
theorem bcdFold_of_bad {bs : List Byte} (h : ∃ b ∈ bs, ¬ isBcd b = true) (r : Word32) : bcdFold bs r = 0 := by
  induction bs generalizing r with
  | nil => simp at h
  | cons b bs ih =>
    rw [bcdFold]
    split_ifs with hb
    · rw [List.exists_mem_cons_iff] at h
      exact ih (h.resolve_left (not_not_intro hb)) _
    · rfl

/-- Digits alone are accumulated pair by pair, most significant first (R285). -/
theorem bcdFold_of_digits {bs : List Byte} (h : ∀ b ∈ bs, isBcd b = true) (r : Word32) :
    bcdFold bs r = bs.foldl (fun r b => r * 100 + digitPair b) r := by
  induction bs generalizing r with
  | nil => rfl
  | cons b bs ih =>
    rw [List.forall_mem_cons] at h
    rw [bcdFold, if_pos h.1, ih h.2, List.foldl_cons]

/-- Four bytes of digits: each pair has its weight, and 32 bits hold them all (R285). -/
theorem bcd4_of_digits {b0 b1 b2 b3 : Byte} (h : ∀ b ∈ [b0, b1, b2, b3], isBcd b = true) :
    (bcd4 b0 b1 b2 b3).toNat = (digitPair b0).toNat + 100 * (digitPair b1).toNat + 10000 * (digitPair b2).toNat +
      1000000 * (digitPair b3).toNat := by
  obtain ⟨h0, h1, h2, h3⟩ := digitPair_le_of_mem h
  have hrev : ∀ b ∈ [b3, b2, b1, b0], isBcd b = true :=
    fun b hb => h b ((List.mem_reverse (as := [b0, b1, b2, b3])).mp hb)
  rw [bcd4, bcdFold_of_digits hrev]
  simp only [List.foldl_cons, List.foldl_nil]
  bv_omega

/-- A byte with a bad nibble among the four makes the number 0 (R285). -/
theorem bcd4_of_bad {b0 b1 b2 b3 : Byte} (h : ∃ b ∈ [b0, b1, b2, b3], ¬ isBcd b = true) : bcd4 b0 b1 b2 b3 = 0 := by
  obtain ⟨b, hb, hbad⟩ := h
  exact bcdFold_of_bad ⟨b, (List.mem_reverse (as := [b0, b1, b2, b3])).mpr hb, hbad⟩ 0

/-- The number never has more than eight digits (R285). -/
theorem bcd4_le (b0 b1 b2 b3 : Byte) : (bcd4 b0 b1 b2 b3).toNat ≤ 99999999 := by
  by_cases h : ∀ b ∈ [b0, b1, b2, b3], isBcd b = true
  · obtain ⟨h0, h1, h2, h3⟩ := digitPair_le_of_mem h
    rw [bcd4_of_digits h]
    omega
  · rw [bcd4_of_bad (by simpa only [not_forall, exists_prop] using h)]
    decide

/-- Settles O53: four bytes of digits and a byte with a bad nibble are the two cases of the fold; the spec's example
evaluates. -/
theorem bcd4ReadsDigits : Obligations.Bcd4ReadsDigits := by
  unfold Obligations.Bcd4ReadsDigits
  intro b0 b1 b2 b3 s
  refine ⟨decode_bcd4 b0 b1 b2 b3 [], ⟨_, exec_bcd4 b0 b1 b2 b3 s, bcd4_le b0 b1 b2 b3, ?_, ?_⟩, exec_bcd4 _ _ _ _ s⟩
  · intro hdigits
    simp only [bcd4_of_digits fun b hb => (isBcd_iff b).mpr (hdigits b hb), digitPair_toNat]
  · rintro ⟨b, hb, hbad⟩
    exact bcd4_of_bad ⟨b, hb, fun h => by have := (isBcd_iff b).mp h; omega⟩

/-- Opcode byte 0x27 in front of a byte is DIAM of it (R123). -/
theorem decode_diam (b : Byte) (rest : List Byte) : decode (0x27 :: b :: rest) = .op (.diam b) rest := rfl

/-- DIAM completes in every state, and its result is the diameter of its operand (R291). -/
theorem exec_diam (b : Byte) (s : State) : exec (.diam b) s = .next (s.returned (.diameter (diam b))) :=
  answerWith_eq _ s

/-- The table's sixteen entries, one per code (R292). -/
theorem diamTable_eq {k : Nat} (h : k < 16) :
    diamTable k = ([0, 15, 20, 25, 32, 40, 50, 80, 100, 150, 200, 250, 300, 0, 0, 0] : List Word16).getD k 0 := by
  revert k; decide

/-- Settles O54: the upper nibble is one of the sixteen codes of the table. -/
theorem diamLooksUpUpperNibble : Obligations.DiamLooksUpUpperNibble := by
  unfold Obligations.DiamLooksUpUpperNibble
  intro b s
  refine ⟨decode_diam b [], ?_, exec_diam _ s⟩
  rw [exec_diam, diam, highNibble_toNat, diamTable_eq (by omega)]

end Sys2Proof
end

section
/-! PROOF. The FieldDecoder's STATUS (spec/44_field_decoder.md R294, R297, spec/60_exceptions.md R333): which revision
codes are decoded and which are refused, the fields each revision has, and the obligation assembled from them. -/

namespace Sys2Proof

open Sys2Proof.Machine

/-- Opcode byte 0x29 in front of three bytes is STATUS of them where the first is a revision code (R123, R297). -/
theorem decode_status {r : Byte} (sb v : Byte) (rest : List Byte) (h : revisionFits r) :
    decode (0x29 :: r :: sb :: v :: rest) = .op (.status r sb v) rest :=
  if_pos h

/-- STATUS with another revision code is refused at decoding (R297, R333). -/
theorem decode_status_refused {r : Byte} (sb v : Byte) (rest : List Byte) (h : ¬ revisionFits r) :
    decode (0x29 :: r :: sb :: v :: rest) = .bad .badOperand :=
  if_neg h

/-- A revision code names the revision that has this code (R250, R297). -/
theorem revisionOf_of_fits {r : Byte} (h : revisionFits r) :
    ∃ rev, revisionOf r = some rev ∧ (revisionCode (some rev)).toNat = r.toNat := by
  have hcases : r.toNat = 1 ∨ r.toNat = 2 ∨ r.toNat = 3 ∨ r.toNat = 4 := by omega
  rcases hcases with hr | hr | hr | hr
  · exact ⟨.v11, by simp only [revisionOf, hr], hr.symm⟩
  · exact ⟨.v12, by simp only [revisionOf, hr], hr.symm⟩
  · exact ⟨.v13, by simp only [revisionOf, hr], hr.symm⟩
  · exact ⟨.v14, by simp only [revisionOf, hr], hr.symm⟩

/-- Another code names none (R297). -/
theorem revisionOf_of_not_fits {r : Byte} (h : ¬ revisionFits r) : revisionOf r = none := by
  unfold revisionOf
  split
  case h_5 => rfl
  all_goals omega

/-- STATUS of a revision completes in every state, with the fields of the revision (R297). -/
theorem exec_status {r : Byte} {rev : Revision} (sb v : Byte) (s : State) (h : revisionOf r = some rev) :
    exec (.status r sb v) s = .next (s.returned (.status (statusFields Config.params rev sb v))) := by
  rw [exec, execStatus, h]
  exact answerWith_eq _ s

/-- STATUS of a code that names no revision is a fault (R297). -/
theorem exec_status_refused {r : Byte} (sb v : Byte) (s : State) (h : revisionOf r = none) :
    exec (.status r sb v) s = .fault .badOperand := by
  rw [exec, execStatus, h]

/-- A step on a string that is refused for its operand is a fault (R333). -/
theorem step_of_badOperand {s : State} {bytes : List Byte} (hs : s.stream[s.pc]? = some bytes)
    (hd : decode bytes = .bad .badOperand) : step s = .fault .badOperand := by
  simp only [step, fetch, hs, hd, andThen]

/-- The battery voltage is 37 less the low five bits of the code (R294). -/
theorem batt_toNat (c : Byte) : (batt c).toNat = 37 - c.toNat % 32 := by
  revert c; decide

/-- The battery voltage of a status byte is 37 less the number of its five voltage bits, most significant first (R294,
R297). -/
theorem batt_voltCode_toNat (P : Params) (sb : Byte) :
    (batt (voltCode P sb)).toNat = 37 - (bitValue sb P.voltBits[0] * 16 + bitValue sb P.voltBits[1] * 8 +
      bitValue sb P.voltBits[2] * 4 + bitValue sb P.voltBits[3] * 2 + bitValue sb P.voltBits[4]) := by
  have hbit (i : Fin 8) : bitValue sb i ≤ 1 := Bool.toNat_le _
  have h0 := hbit P.voltBits[0]
  have h1 := hbit P.voltBits[1]
  have h2 := hbit P.voltBits[2]
  have h3 := hbit P.voltBits[3]
  have h4 := hbit P.voltBits[4]
  rw [batt_toNat, voltCode, BitVec.toNat_ofNat]
  omega

/-- Low-battery is a flag of revisions 1 and 2 (R297). -/
theorem lowBattery_eq (P : Params) (rev : Revision) (sb : Byte) :
    lowBattery P rev sb =
      if (revisionCode (some rev)).toNat ≤ 2 then some (sb.getLsbD P.bitLowBatt.val) else none := by
  cases rev <;> rfl

/-- The battery voltage is a field of revisions 3 and 4 (R297). -/
theorem batteryDecivolts_eq (P : Params) (rev : Revision) (sb : Byte) :
    batteryDecivolts P rev sb =
      if (revisionCode (some rev)).toNat ≤ 2 then none else some (batt (voltCode P sb)) := by
  cases rev <;> rfl

/-- Magnet-detected is a flag of revision 4 (R297). -/
theorem magnetDetected_eq (P : Params) (rev : Revision) (v : Byte) :
    magnetDetected P rev v =
      if (revisionCode (some rev)).toNat = 4 then some (v.getLsbD P.bitMagnet.val) else none := by
  cases rev <;> rfl

/-- Freeze-warning is a flag of revision 4 (R297). -/
theorem freezeWarning_eq (P : Params) (rev : Revision) (v : Byte) :
    freezeWarning P rev v =
      if (revisionCode (some rev)).toNat = 4 then some (v.getLsbD P.bitFreeze.val) else none := by
  cases rev <;> rfl

/-- Settles O56: the fields of a revision are decided by its code alone, which is the operand's; another operand is
refused before it has a meaning, and by the meaning as well. -/
theorem statusDecodesPerRevision : Obligations.StatusDecodesPerRevision := by
  unfold Obligations.StatusDecodesPerRevision
  intro r sb v s
  refine ⟨fun hlow hhigh => ⟨decode_status sb v [] ⟨hlow, hhigh⟩, ?_⟩, fun hbad => ?_, by decide⟩
  · obtain ⟨rev, hrev, hcode⟩ := revisionOf_of_fits ⟨hlow, hhigh⟩
    refine ⟨_, exec_status sb v s hrev, rfl, rfl, rfl, ?_, ?_⟩
    · simp only [statusFields, lowBattery_eq, batteryDecivolts_eq, hcode]
      split_ifs
      · exact ⟨rfl, rfl⟩
      · exact ⟨rfl, _, rfl, batt_voltCode_toNat _ sb⟩
    · simp only [statusFields, magnetDetected_eq, freezeWarning_eq, hcode]
      split_ifs <;> exact ⟨rfl, rfl⟩
  · have hnot : ¬ revisionFits r := by omega
    have hdecode (rest : List Byte) := decode_status_refused sb v rest hnot
    exact ⟨exec_status_refused sb v s (revisionOf_of_not_fits hnot),
      fun rest => ⟨hdecode rest, fun hs => step_of_badOperand hs (hdecode rest)⟩⟩

end Sys2Proof
end

section
/-! PROOF. The FieldDecoder's UDF and DECODE (spec/44_field_decoder.md R288 to R290, R300, R303 to R306): the trailer,
the record's fields that do not stand in the frame as they are, and the obligations assembled from them. -/

namespace Sys2Proof

open Sys2Proof.Machine

/-- UDF completes in every state, and its result is the trailer of its operand (R303). -/
theorem exec_udf (u : List Byte) (s : State) : exec (.udf u) s = .next (s.returned (.trailer (udfTrailer u))) :=
  answerWith_eq _ s

/-- The manufacturer code is big-endian (R304). -/
theorem manufacturerOf_toNat (u : List Byte) :
    (manufacturerOf u).toNat = (byteAt u 14).toNat * 256 + (byteAt u 15).toNat := by
  rw [manufacturerOf, BitVec.toNat_append, ← Nat.shiftLeft_add_eq_or_of_lt (byteAt u 15).isLt, Nat.shiftLeft_eq]

/-- Settles O58: the length decides whether there is a trailer, and its code is the two bytes read as one number. -/
theorem udfReadsTrailer : Obligations.UdfReadsTrailer := by
  unfold Obligations.UdfReadsTrailer
  intro u s
  rw [exec_udf, udfTrailer]
  refine ⟨fun hshort => by rw [if_pos hshort], fun hlong => ⟨manufacturerOf u, manufacturerOf_toNat u, ?_⟩⟩
  rw [if_neg (Nat.not_lt.mpr hlong)]
  rfl

/-- DECODE completes in every state, and its result is the record of the frame, if it has one (R306). -/
theorem exec_decode (f : List Byte) (s : State) :
    exec (.decode f) s = .next (s.returned (.record (decodeFrame Config.params f))) :=
  answerWith_eq _ s

/-- A frame that DETECT does not classify has no record (R306). -/
theorem decodeFrame_of_unknown {P : Params} {f : List Byte} (h : detect P f = none) : decodeFrame P f = none := by
  rw [decodeFrame, h]

/-- The record of a classified frame is that of its revision and its checksum (R306). -/
theorem decodeFrame_of_detected {P : Params} {f : List Byte} {rev : Revision} (h : detect P f = some rev) :
    decodeFrame P f = some (decodeRecord P f rev (checksumValid f)) := by
  rw [decodeFrame, h]

/-- The UserData of a valid frame is all but its first seven and its last two bytes (R110). -/
theorem userDataBytes_of_valid {P : Params} {f : List Byte} (hv : validate P f = true) :
    userDataBytes f = (f.drop 7).take (f.length - 9) := by
  obtain ⟨-, -, -, -, -, -, -, hlen⟩ := (validate_iff P f).mp hv
  rw [userDataBytes, bytesFrom, hlen, Nat.add_sub_add_right (byteAt f 1).toNat 6 3]

/-- Revision 1 alone has no trailer of its own (R305). -/
theorem frameTrailer_eq (rev : Revision) (f : List Byte) :
    frameTrailer rev f = if rev = .v11 then none else udfTrailer (userDataBytes f) := by
  cases rev <;> rfl

/-- Settles O59: the record's fields are bytes of the frame or functions of them; the trailer's UserData is found from
the frame's length, which validation ties to `L`. -/
theorem decodeGivesRecord : Obligations.DecodeGivesRecord := by
  unfold Obligations.DecodeGivesRecord
  intro f s
  rw [exec_decode]
  refine ⟨fun hnone => by rw [decodeFrame_of_unknown hnone], fun rev hrev => ?_⟩
  have hudf : frameTrailer rev f = if rev = .v11 then none else udfTrailer ((f.drop 7).take (f.length - 9)) := by
    rw [frameTrailer_eq, userDataBytes_of_valid (detect_valid hrev)]
  exact ⟨_, by rw [decodeFrame_of_detected hrev], rfl, rfl, decide_eq_true_iff, rfl, rfl, rfl, rfl, rfl, rfl, rfl,
    lowNibble_toNat _, rfl, hudf, rfl, rfl⟩

end Sys2Proof
end

section
/-! PROOF. The operation encoding (spec/30_encoding.md R120 to R124, R130): what the operand bytes of each format are,
that the decoder reads exactly them, which opcode bytes name an operation, and the obligations assembled from them. -/

namespace Sys2Proof

open Sys2Proof.Machine

/-- The bytes `ops` are the operand bytes with which a format makes the operation `i` (R120, R121): what
`readOperands` reads (`readOperands_eq_op_iff`) and what `encode` writes after the opcode byte (`encode_eq_cons`). -/
inductive OperandBytes : Shape → Instr → List Byte → Prop
  | f0 (i : Instr) : OperandBytes (.f0 i) i []
  | f1 (k : Byte → Instr) (x : Byte) : OperandBytes (.f1 k) (k x) [x]
  | f3 (k : Byte → Byte → Byte → Instr) (r s v : Byte) : revisionFits r → OperandBytes (.f3 k) (k r s v) [r, s, v]
  | f4 (k : Byte → Byte → Byte → Byte → Instr) (b0 b1 b2 b3 : Byte) :
      OperandBytes (.f4 k) (k b0 b1 b2 b3) [b0, b1, b2, b3]
  | fs (k : Byte → Byte → List Byte → Instr) (a c : Byte) (d : List Byte) : payloadFits d →
      OperandBytes (.fs k) (k a c d) (a :: c :: payloadCount d :: d)
  | fb (k : Byte → List Byte → Instr) (c : Byte) (d : List Byte) : payloadFits d →
      OperandBytes (.fb k) (k c d) (c :: payloadCount d :: d)
  | fn (k : List Byte → Instr) (s : List Byte) : sequenceFits s → OperandBytes (.fn k) (k s) (sequenceBytes s)

/-- The operand bytes of an operation are read back, whatever bytes follow (R120). -/
theorem readOperands_append {sh : Shape} {i : Instr} {ops : List Byte} (h : OperandBytes sh i ops) (rest : List Byte) :
    readOperands sh (ops ++ rest) = .op i rest := by
  cases h with
  | f0 => rfl
  | f1 => rfl
  | f3 _ _ _ _ hr => exact if_pos hr
  | f4 => rfl
  | fs k a c d hd => simp only [List.cons_append, readOperands, Laws.payloadCount_toNat d hd, takeSequence_append]
  | fb k c d hd => simp only [List.cons_append, readOperands, Laws.payloadCount_toNat d hd, takeSequence_append]
  | fn k s hs => exact readOperands_fn_sequenceBytes k s rest hs

/-- A sequence operand that is read is the first `n` bytes, and the string has them. -/
theorem takeSequence_eq_op {n : Nat} {k : List Byte → Instr} {bs rest : List Byte} {i : Instr}
    (h : takeSequence n k bs = .op i rest) : ∃ d, d.length = n ∧ i = k d ∧ bs = d ++ rest := by
  unfold takeSequence at h
  split_ifs at h with hn
  cases h
  exact ⟨bs.take n, List.length_take_of_le hn, rfl, (List.take_append_drop n bs).symm⟩

/-- A one-byte count is the count of a payload of that length (R120). -/
theorem payloadCount_of_length {n : Byte} {d : List Byte} (h : d.length = n.toNat) :
    payloadFits d ∧ n = payloadCount d :=
  ⟨h.trans_le (Nat.le_of_lt_succ n.isLt), by rw [payloadCount, h, BitVec.ofNat_toNat, BitVec.setWidth_eq]⟩

/-- Two count bytes are the count of a sequence of that length (R120). -/
theorem sequenceBytes_of_length {nlo nhi : Byte} {s : List Byte} (h : s.length = countOf nlo nhi) :
    sequenceFits s ∧ nlo :: nhi :: s = sequenceBytes s := by
  have hlo := nlo.isLt
  have hhi := nhi.isLt
  rw [countOf] at h
  refine ⟨by show s.length ≤ 65535; omega, ?_⟩
  rw [sequenceBytes, show s.length % 256 = nlo.toNat by omega, show s.length / 256 = nhi.toNat by omega,
    BitVec.ofNat_toNat, BitVec.ofNat_toNat, BitVec.setWidth_eq, BitVec.setWidth_eq]

/-- Operand bytes that are read are those of the operation they give (R120, R122). -/
theorem operandBytes_of_readOperands {sh : Shape} {i : Instr} {bs rest : List Byte}
    (h : readOperands sh bs = .op i rest) : ∃ ops, OperandBytes sh i ops ∧ bs = ops ++ rest := by
  unfold readOperands at h
  split at h
  case h_1 => cases h; exact ⟨_, .f0 _, rfl⟩
  case h_2 => cases h; exact ⟨_, .f1 _ _, rfl⟩
  case h_3 =>
    unfold takeRevision at h
    split_ifs at h with hr
    cases h
    exact ⟨_, .f3 _ _ _ _ hr, rfl⟩
  case h_4 => cases h; exact ⟨_, .f4 _ _ _ _ _, rfl⟩
  case h_5 =>
    obtain ⟨d, hd, rfl, rfl⟩ := takeSequence_eq_op h
    obtain ⟨hfits, rfl⟩ := payloadCount_of_length hd
    exact ⟨_, .fs _ _ _ d hfits, rfl⟩
  case h_6 =>
    obtain ⟨d, hd, rfl, rfl⟩ := takeSequence_eq_op h
    obtain ⟨hfits, rfl⟩ := payloadCount_of_length hd
    exact ⟨_, .fb _ _ d hfits, rfl⟩
  case h_7 =>
    obtain ⟨s, hs, rfl, rfl⟩ := takeSequence_eq_op h
    obtain ⟨hfits, heq⟩ := sequenceBytes_of_length hs
    exact ⟨_, .fn _ s hfits, by rw [← heq]; rfl⟩
  case h_8 => cases h

/-- The string of a well-formed operation is its opcode byte and its operand bytes (R120, R123). -/
theorem encode_eq_cons {i : Instr} (h : i.wellFormed = true) :
    ∃ op sh ops, encode i = op :: ops ∧ opcodeShape op.toNat = some sh ∧ OperandBytes sh i ops := by
  cases i with
  | init => exact ⟨_, _, _, rfl, rfl, .f0 _⟩
  | setrcb => exact ⟨_, _, _, rfl, rfl, .f1 _ _⟩
  | setecb => exact ⟨_, _, _, rfl, rfl, .f1 _ _⟩
  | send => exact ⟨_, _, _, rfl, rfl, .fs _ _ _ _ (of_decide_eq_true h)⟩
  | task => exact ⟨_, _, _, rfl, rfl, .f0 _⟩
  | getstate => exact ⟨_, _, _, rfl, rfl, .f0 _⟩
  | geterr => exact ⟨_, _, _, rfl, rfl, .f0 _⟩
  | reset => exact ⟨_, _, _, rfl, rfl, .f0 _⟩
  | rxpush => exact ⟨_, _, _, rfl, rfl, .f1 _ _⟩
  | tick => exact ⟨_, _, _, rfl, rfl, .f0 _⟩
  | build => exact ⟨_, _, _, rfl, rfl, .fb _ _ _ (of_decide_eq_true h)⟩
  | xor8 => exact ⟨_, _, _, rfl, rfl, .fn _ _ (of_decide_eq_true h)⟩
  | asmbyte => exact ⟨_, _, _, rfl, rfl, .f1 _ _⟩
  | validate => exact ⟨_, _, _, rfl, rfl, .fn _ _ (of_decide_eq_true h)⟩
  | cksum => exact ⟨_, _, _, rfl, rfl, .fn _ _ (of_decide_eq_true h)⟩
  | detect => exact ⟨_, _, _, rfl, rfl, .fn _ _ (of_decide_eq_true h)⟩
  | bcd4 => exact ⟨_, _, _, rfl, rfl, .f4 _ _ _ _ _⟩
  | diam => exact ⟨_, _, _, rfl, rfl, .f1 _ _⟩
  | batt => exact ⟨_, _, _, rfl, rfl, .f1 _ _⟩
  | status => exact ⟨_, _, _, rfl, rfl, .f3 _ _ _ _ (of_decide_eq_true h)⟩
  | udf => exact ⟨_, _, _, rfl, rfl, .fn _ _ (of_decide_eq_true h)⟩
  | decode => exact ⟨_, _, _, rfl, rfl, .fn _ _ (of_decide_eq_true h)⟩
  | sum8 => exact ⟨_, _, _, rfl, rfl, .fn _ _ (of_decide_eq_true h)⟩

/-- The opcode byte of a format and operand bytes of it are the string of the operation they make, which is well
formed (R120, R123): one case per row of the opcode map. -/
theorem encode_of_operandBytes {op : Byte} {sh : Shape} {i : Instr} {ops : List Byte}
    (hop : opcodeShape op.toNat = some sh) (h : OperandBytes sh i ops) :
    i.wellFormed = true ∧ encode i = op :: ops := by
  rw [← BitVec.setWidth_eq op, ← BitVec.ofNat_toNat]
  generalize op.toNat = n at hop ⊢
  unfold opcodeShape at hop
  split at hop <;> cases hop <;> cases h <;>
    exact ⟨by simp [Instr.wellFormed, *], rfl⟩

/-- The decoder reads the operand bytes of the format that the opcode byte names (R123). -/
theorem decode_cons {op : Byte} {sh : Shape} (h : opcodeShape op.toNat = some sh) (bs : List Byte) :
    decode (op :: bs) = readOperands sh bs := by
  rw [decode, h]

/-- An opcode byte that the map does not list is refused (R124). -/
theorem decode_cons_of_none {op : Byte} (h : opcodeShape op.toNat = none) (bs : List Byte) :
    decode (op :: bs) = .bad .unknownOp := by
  rw [decode, h]

/-- Decoding reads back what encoding wrote, whatever bytes follow (R120, R123). -/
theorem decode_encode {i : Instr} (h : i.wellFormed = true) (rest : List Byte) :
    decode (encode i ++ rest) = .op i rest := by
  obtain ⟨op, sh, ops, henc, hop, hops⟩ := encode_eq_cons h
  rw [henc, List.cons_append, decode_cons hop, readOperands_append hops]

/-- Settles O2: the operand bytes that the encoder writes are those that the decoder reads, format by format. -/
theorem decodeReadsEncode : Obligations.DecodeReadsEncode := by
  unfold Obligations.DecodeReadsEncode
  exact fun _ rest h => decode_encode h rest

/-- Settles O3: what the decoder reads are an opcode byte and operand bytes of its format, and these are the encoding
of the operation they make. -/
theorem encodeInvertsDecode : Obligations.EncodeInvertsDecode := by
  unfold Obligations.EncodeInvertsDecode
  intro bs rest i h
  cases bs with
  | nil => cases h
  | cons op bs =>
    cases hop : opcodeShape op.toNat with
    | none => rw [decode_cons_of_none hop] at h; cases h
    | some sh =>
      rw [decode_cons hop] at h
      obtain ⟨ops, hops, rfl⟩ := operandBytes_of_readOperands h
      obtain ⟨hwf, henc⟩ := encode_of_operandBytes hop hops
      exact ⟨hwf, by rw [henc, List.cons_append]⟩

/-- A sequence operand whose string ends before its count is truncated (R122). -/
theorem takeSequence_truncated {n : Nat} (k : List Byte → Instr) {bs : List Byte} (h : bs.length < n) :
    takeSequence n k bs = .bad .truncated :=
  if_neg (Nat.not_le.mpr h)

/-- A payload cut short is shorter than its count (R120). -/
theorem take_length_lt_payloadCount {d : List Byte} {k : Nat} (hd : payloadFits d) (hk : k < d.length) :
    (d.take k).length < (payloadCount d).toNat := by
  rw [Laws.payloadCount_toNat d hd, List.length_take_of_le (Nat.le_of_lt hk)]
  exact hk

/-- A sequence cut short is shorter than its count (R120). -/
theorem take_length_lt_countOf {s : List Byte} {k : Nat} (hs : sequenceFits s) (hk : k < s.length) :
    (s.take k).length < countOf (BitVec.ofNat 8 (s.length % 256)) (BitVec.ofNat 8 (s.length / 256)) := by
  rw [Laws.countOf_sequence s hs, List.length_take_of_le (Nat.le_of_lt hk)]
  exact hk

/-- Operand bytes that end early are truncated: before the count field, or before the count's end (R122). -/
theorem readOperands_take {sh : Shape} {i : Instr} {ops : List Byte} (h : OperandBytes sh i ops) {k : Nat}
    (hk : k < ops.length) : readOperands sh (ops.take k) = .bad .truncated := by
  cases h with
  | f0 => cases hk
  | f1 => match k, hk with | 0, _ => rfl
  | f3 => match k, hk with | 0, _ => rfl | 1, _ => rfl | 2, _ => rfl
  | f4 => match k, hk with | 0, _ => rfl | 1, _ => rfl | 2, _ => rfl | 3, _ => rfl
  | fs c a b d hd =>
    match k, hk with
    | 0, _ => rfl
    | 1, _ => rfl
    | 2, _ => rfl
    | k + 3, hk =>
      exact takeSequence_truncated _ (take_length_lt_payloadCount hd (Nat.add_lt_add_iff_right.mp hk))
  | fb c a d hd =>
    match k, hk with
    | 0, _ => rfl
    | 1, _ => rfl
    | k + 2, hk =>
      exact takeSequence_truncated _ (take_length_lt_payloadCount hd (Nat.add_lt_add_iff_right.mp hk))
  | fn c s hs =>
    match k, hk with
    | 0, _ => rfl
    | 1, _ => rfl
    | k + 2, hk => exact takeSequence_truncated _ (take_length_lt_countOf hs (Nat.add_lt_add_iff_right.mp hk))

/-- A step on a string that ends early is a fault (R122). -/
theorem step_of_truncated {s : State} {bytes : List Byte} (hs : s.stream[s.pc]? = some bytes)
    (hd : decode bytes = .bad .truncated) : step s = .fault .truncated := by
  simp only [step, fetch, hs, hd, andThen]

/-- A step on a string whose opcode byte names no operation is a fault (R124). -/
theorem step_of_unknownOp {s : State} {bytes : List Byte} (hs : s.stream[s.pc]? = some bytes)
    (hd : decode bytes = .bad .unknownOp) : step s = .fault .unknownOp := by
  simp only [step, fetch, hs, hd, andThen]

/-- A step on the string of one operation is the operation's meaning (spec/10_state.md R39). -/
theorem step_of_decode {s : State} {bytes : List Byte} {i : Instr} (hs : s.stream[s.pc]? = some bytes)
    (hd : decode bytes = .op i []) : step s = exec i s := by
  simp only [step, fetch, hs, hd, andThen]

/-- Settles O4: a string cut short is empty, or an opcode byte before operand bytes that end early. -/
theorem properPrefixTruncated : Obligations.ProperPrefixTruncated := by
  unfold Obligations.ProperPrefixTruncated
  intro i k hwf hk
  obtain ⟨op, sh, ops, henc, hop, hops⟩ := encode_eq_cons hwf
  have hdecode : decode ((encode i).take k) = .bad .truncated := by
    rw [henc] at hk ⊢
    match k, hk with
    | 0, _ => rfl
    | k + 1, hk =>
      rw [List.take_succ_cons, decode_cons hop]
      exact readOperands_take hops (Nat.lt_of_succ_lt_succ hk)
  exact ⟨hdecode, fun s hs => step_of_truncated hs hdecode⟩

/-- The opcode bytes that name no operation (R124). -/
theorem opcodeShape_eq_none_iff {n : Nat} (h : n < 256) :
    opcodeShape n = none ↔ n = 0 ∨ (0x09 ≤ n ∧ n ≤ 0x0F) ∨ (0x12 ≤ n ∧ n ≤ 0x1F) ∨ 0x2D ≤ n := by
  unfold opcodeShape
  split
  case h_24 => simp only [imp_false, true_iff] at *; omega
  all_goals simp

/-- Reading operand bytes never refuses the opcode byte (R122, R124). -/
theorem readOperands_ne_unknownOp (sh : Shape) (bs : List Byte) : readOperands sh bs ≠ .bad .unknownOp := by
  have hsequence (n : Nat) (k : List Byte → Instr) (bs : List Byte) : takeSequence n k bs ≠ .bad .unknownOp := by
    unfold takeSequence
    split_ifs <;> simp
  have hrevision (k : Byte → Byte → Byte → Instr) (r s v : Byte) (bs : List Byte) :
      takeRevision k r s v bs ≠ .bad .unknownOp := by
    unfold takeRevision
    split_ifs <;> simp
  unfold readOperands
  split
  case h_3 => exact hrevision _ _ _ _ _
  case h_5 => exact hsequence _ _ _
  case h_6 => exact hsequence _ _ _
  case h_7 => exact hsequence _ _ _
  all_goals simp

/-- Settles O5: the map lists every opcode byte but these, and no other refusal is `UnknownOp`. -/
theorem unknownOpcodesRefused : Obligations.UnknownOpcodesRefused := by
  unfold Obligations.UnknownOpcodesRefused
  intro op bs
  simp only [← opcodeShape_eq_none_iff op.isLt]
  split_ifs with hop
  · have hdecode := decode_cons_of_none hop bs
    exact ⟨hdecode, fun s hs => step_of_unknownOp hs hdecode⟩
  · obtain ⟨sh, hsh⟩ := Option.ne_none_iff_exists'.mp hop
    rw [decode_cons hsh]
    exact readOperands_ne_unknownOp sh bs

/-- Settles O1: each worked encoding is the string of its operation. -/
theorem specWordsDecode : Obligations.SpecWordsDecode := by
  unfold Obligations.SpecWordsDecode
  exact ⟨decode_encode (i := .send 0x01 0x5B [0x5C]) rfl [], decode_encode (i := .task) rfl [],
    decode_encode (i := .rxpush 0x68) rfl [], decode_bcd4 0x78 0x56 0x34 0x12 []⟩

/-- Settles O6: fetching gives the decoded operation, and the step runs it. -/
theorem stepRunsDecodedOperation : Obligations.StepRunsDecodedOperation := by
  unfold Obligations.StepRunsDecodedOperation
  exact fun _ _ _ => step_of_decode

/-- Settles O7: both are refusals of the fetch, so no operation runs. -/
theorem runEndsAtStreamEnd : Obligations.RunEndsAtStreamEnd := by
  unfold Obligations.RunEndsAtStreamEnd
  refine ⟨fun s hend => ?_, fun s bytes rest i b hs hd => ?_⟩
  · simp only [step, fetch, List.getElem?_eq_none hend, andThen]
  · simp only [step, fetch, hs, hd, andThen]

/-- A table word that decodes is the string of one operation, with no byte after it. -/
theorem decode_tableString {nbits w : Nat} {i : Instr} (h : decodeTableWord nbits w = some i) :
    decode (tableString nbits w) = .op i [] := by
  unfold decodeTableWord at h
  split at h
  · rename_i j hj
    cases h
    exact hj
  · cases h

/-- Settles O8: the placed string is the entry that the step fetches. -/
theorem tableWordRunsNext : Obligations.TableWordRunsNext := by
  unfold Obligations.TableWordRunsNext
  exact fun s nbits w i h => step_of_decode (placeAt_get s.stream s.pc _) (decode_tableString h)

end Sys2Proof
end

section
/-! PROOF. What each operation does where it completes, and where a host operation is refused: one equation per
sub-block function (spec/40, 43, 44), the checks on a host operation (spec/60_exceptions.md R334, R336), INIT, RESET,
the registrations, the reads and a rejected SEND (spec/42_protocol_engine.md), the two environment events, and the
obligations assembled from them. -/

namespace Sys2Proof

open Sys2Proof.Machine

/-! ## The sub-block functions -/

/-- BUILD completes in every state, and its result is the frame of its operands, if they have one (R142). -/
theorem exec_build (c : Byte) (d : List Byte) (s : State) :
    exec (.build c d) s = .next (s.returned (.built (buildFrame Config.params c d))) :=
  answerWith_eq _ s

/-- VALIDATE completes in every state, and its result is that of the structural checks (R252). -/
theorem exec_validate (f : List Byte) (s : State) :
    exec (.validate f) s = .next (s.returned (.valid (validate Config.params f))) :=
  answerWith_eq _ s

/-- CKSUM completes in every state, and its result is the frame's `checksum_valid` (R254). -/
theorem exec_cksum (f : List Byte) (s : State) :
    exec (.cksum f) s = .next (s.returned (.checksumValid (checksumValid f))) :=
  answerWith_eq _ s

/-- BATT completes in every state, and its result is the voltage of its operand (R294). -/
theorem exec_batt (c : Byte) (s : State) : exec (.batt c) s = .next (s.returned (.decivolts (batt c))) :=
  answerWith_eq _ s

/-- SUM8 completes in every state, and its result is the sum of its operand (R253). -/
theorem exec_sum8 (bs : List Byte) (s : State) : exec (.sum8 bs) s = .next (s.returned (.checksum (sum8 bs))) :=
  answerWith_eq _ s

/-- Settles O17: each function has its equation, whose result does not name the state. -/
theorem functionsWriteOnlyResultPort : Obligations.FunctionsWriteOnlyResultPort := by
  unfold Obligations.FunctionsWriteOnlyResultPort
  intro i hhost htick hrxpush hasmbyte hstatus
  cases i with
  | init => cases hhost
  | setrcb h => cases hhost
  | setecb h => cases hhost
  | send a c d => cases hhost
  | task => cases hhost
  | getstate => cases hhost
  | geterr => cases hhost
  | reset => cases hhost
  | rxpush b => exact absurd rfl (hrxpush b)
  | tick => exact absurd rfl htick
  | build c d => exact ⟨_, exec_build c d⟩
  | xor8 bs => exact ⟨_, exec_xor8 bs⟩
  | asmbyte b => exact absurd rfl (hasmbyte b)
  | validate f => exact ⟨_, exec_validate f⟩
  | cksum f => exact ⟨_, exec_cksum f⟩
  | detect f => exact ⟨_, exec_detect f⟩
  | bcd4 b0 b1 b2 b3 => exact ⟨_, exec_bcd4 b0 b1 b2 b3⟩
  | diam b => exact ⟨_, exec_diam b⟩
  | batt c => exact ⟨_, exec_batt c⟩
  | status r sb v =>
    obtain ⟨rev, hrev, -⟩ := revisionOf_of_fits (hstatus r sb v rfl)
    exact ⟨_, fun s => exec_status sb v s hrev⟩
  | udf u => exact ⟨_, exec_udf u⟩
  | decode f => exact ⟨_, exec_decode f⟩
  | sum8 bs => exact ⟨_, exec_sum8 bs⟩

/-- An operation that is no host operation is an event, ASMBYTE, a STATUS of no revision, or a function whose result
depends on its operands alone. -/
theorem nonHost_cases {i : Instr} (h : isHostOp i = false) :
    i = .tick ∨ (∃ b, i = .rxpush b) ∨ (∃ b, i = .asmbyte b) ∨
      (∃ r sb v, i = .status r sb v ∧ revisionOf r = none) ∨
      (∀ b, i ≠ .asmbyte b) ∧ ∃ res, ∀ s, exec i s = .next (s.returned res) := by
  by_cases htick : i = .tick
  · exact .inl htick
  by_cases hrxpush : ∃ b, i = .rxpush b
  · exact .inr (.inl hrxpush)
  by_cases hasmbyte : ∃ b, i = .asmbyte b
  · exact .inr (.inr (.inl hasmbyte))
  by_cases hstatus : ∀ r sb v, i = .status r sb v → revisionFits r
  · exact .inr (.inr (.inr (.inr ⟨not_exists.mp hasmbyte,
      functionsWriteOnlyResultPort i h htick (not_exists.mp hrxpush) (not_exists.mp hasmbyte) hstatus⟩)))
  · simp only [not_forall] at hstatus
    obtain ⟨r, sb, v, heq, hr⟩ := hstatus
    exact .inr (.inr (.inr (.inl ⟨r, sb, v, heq, revisionOf_of_not_fits hr⟩)))

/-- Settles O55: the subtraction does not wrap, since five bits are at most 31. -/
theorem battSubtractsCode : Obligations.BattSubtractsCode := by
  unfold Obligations.BattSubtractsCode
  intro c s
  have hvalue := batt_toNat c
  exact ⟨batt c, exec_batt c s, hvalue, by omega, by omega⟩

/-! ## Where a host operation is refused -/

/-- A host operation is refused during another (R336). -/
theorem hostOpAlways_reentrant {s : State} (effect : State → Answer) (ha : s.opActive = true) :
    hostOpAlways s effect = .fault .reentrant :=
  if_pos ha

/-- A host operation other than INIT is refused before INIT (R334). -/
theorem hostOp_notInitialised {s : State} (effect : State → Answer) (ha : s.opActive = false)
    (hi : s.initialised = false) : hostOp s effect = .fault .notInitialised := by
  rw [hostOp, hostOpAlways_ready s _ ha]
  simp only [hi, Bool.false_eq_true, if_false, andThen_fault]

/-- The effect of a host operation (spec/42_protocol_engine.md): what runs once the checks of R334 and R336 are passed
(`exec_eq_hostOp`, `exec_init_eq_hostOpAlways`). -/
def hostEffect : Instr → State → Answer
  | .init, s => .next (initEngine Config.params s)
  | .setrcb h, s => .next { s with respCb := handleOf h }
  | .setecb h, s => .next { s with errCb := handleOf h }
  | .send _ c d, s => sendCommand Config.params c d s
  | .task, s => runTask Config.params s
  | .getstate, s => .next (putResult (.code (engStateCode s.engState)) s)
  | .geterr, s => .next (putResult (.code (errorCodeValue s.lastError)) s)
  | .reset, s => .next (toInitialValues Config.params s)
  | _, s => .next s

/-- Every host operation but INIT passes both checks before its effect runs (R334, R336). -/
theorem exec_eq_hostOp {i : Instr} (h : isHostOp i = true) (hne : i ≠ .init) (s : State) :
    exec i s = hostOp s (hostEffect i) := by
  cases i with
  | init => exact absurd rfl hne
  | setrcb h => rfl
  | setecb h => rfl
  | send a c d => rfl
  | task => rfl
  | getstate => rfl
  | geterr => rfl
  | reset => rfl
  | _ => cases h

/-- INIT passes the check of R336 alone. -/
theorem exec_init_eq_hostOpAlways (s : State) : exec .init s = hostOpAlways s (hostEffect .init) := rfl

/-- Settles O20: every host operation but INIT makes the check of R334. -/
theorem hostOperationsNeedInit : Obligations.HostOperationsNeedInit := by
  unfold Obligations.HostOperationsNeedInit
  intro i s hhost hne ha hi
  rw [exec_eq_hostOp hhost hne, hostOp_notInitialised _ ha hi]

/-- Settles O21: every host operation, INIT too, makes the check of R336 first. -/
theorem hostOperationsDoNotNest : Obligations.HostOperationsDoNotNest := by
  unfold Obligations.HostOperationsDoNotNest
  intro i s hhost ha
  by_cases hne : i = .init
  · rw [hne, exec_init_eq_hostOpAlways, hostOpAlways_reentrant _ ha]
  · rw [exec_eq_hostOp hhost hne, hostOp, hostOpAlways_reentrant _ ha]

/-! ## INIT, RESET, the registrations and the reads -/

/-- INIT completes where no host operation is in progress, with the initial values (R201). -/
theorem exec_init {s : State} (ha : s.opActive = false) :
    exec .init s = .next
      { initEngine Config.params { s with opActive := true } with opActive := false, pc := s.pc + 1 } := by
  rw [exec_init_eq_hostOpAlways, hostOpAlways_ready s _ ha]
  rfl

/-- Another host operation completes, where it may run and its effect completes, with what the effect leaves. -/
theorem exec_hostOp_completes (i : Instr) {s t : State} (h : isHostOp i = true) (hne : i ≠ .init) (hr : s.Ready)
    (he : hostEffect i { s with opActive := true } = .next t) :
    exec i s = .next { t with opActive := s.opActive, pc := t.pc + 1 } := by
  rw [exec_eq_hostOp h hne, hostOp_completes hr he]

/-- Settles O22: each element of R60's table is a field of the state the operation completes with. -/
theorem initAndResetGiveInitialValues : Obligations.InitAndResetGiveInitialValues := by
  unfold Obligations.InitAndResetGiveInitialValues
  rintro i s (⟨rfl, ha⟩ | ⟨rfl, hr⟩)
  · exact ⟨_, exec_init ha, by simp⟩
  · exact ⟨_, exec_hostOp_completes .reset rfl nofun hr rfl, by simpa using hr⟩

/-- Settles O23: the effect of a registration writes one slot. -/
theorem registrationReplacesSlot : Obligations.RegistrationReplacesSlot := by
  unfold Obligations.RegistrationReplacesSlot
  exact fun h s hr =>
    ⟨exec_hostOp_completes (.setrcb h) rfl nofun hr rfl, exec_hostOp_completes (.setecb h) rfl nofun hr rfl⟩

/-- No two engine states have one code (spec/10_state.md R32). -/
theorem engStateCode_inj {g g' : EngState} : engStateCode g = engStateCode g' ↔ g = g' := by
  cases g <;> cases g' <;> decide

/-- No two error kinds have one code (spec/60_exceptions.md R320). -/
theorem errorCodeValue_inj {e e' : ErrorCode} : errorCodeValue e = errorCodeValue e' ↔ e = e' := by
  cases e <;> cases e' <;> decide

/-- Between operations the engine is idle or waits (spec/10_state.md R61). -/
theorem engState_of_inv {s : State} (hs : s.Inv) (hi : s.initialised = true) :
    s.engState = .idle ∨ s.engState = .waitingForResponse := by
  obtain ⟨-, -, -, hinit⟩ := hs
  obtain ⟨⟨heng, -⟩, -⟩ := hinit hi
  exact heng

/-- Settles O24: a code read back is one state or one error kind, and the invariant leaves two states. -/
theorem readsReturnCodes : Obligations.ReadsReturnCodes := by
  unfold Obligations.ReadsReturnCodes
  intro s hr
  refine ⟨⟨engStateCode s.engState, exec_hostOp_completes .getstate rfl nofun hr rfl,
      engStateCode_inj (g' := .idle), engStateCode_inj (g' := .preamble), engStateCode_inj (g' := .transmitting),
      engStateCode_inj (g' := .waitingForResponse), engStateCode_inj (g' := .complete), engStateCode_inj (g' := .error),
      fun hinv => ?_⟩,
    errorCodeValue s.lastError, exec_hostOp_completes .geterr rfl nofun hr rfl,
    errorCodeValue_inj (e' := .ok), errorCodeValue_inj (e' := .timeout), errorCodeValue_inj (e' := .checksumMismatch),
    errorCodeValue_inj (e' := .invalidFrame), errorCodeValue_inj (e' := .nakReceived),
    errorCodeValue_inj (e' := .bufferOverflow), errorCodeValue_inj (e' := .invalidParam)⟩
  exact (engState_of_inv hinv hr.1).imp (congrArg engStateCode) (congrArg engStateCode)

/-! ## A rejected SEND -/

/-- What a rejected SEND writes: the last error, the trace and the result port (R202). -/
theorem rejectSend_eq (s : State) : rejectSend s =
    { s with
      lastError := .invalidParam
      trace := s.trace ++ errEvents s.errCb .invalidParam
      results := s.results ++ [.code 6] } := by
  rw [rejectSend, raiseError_eq]
  rfl

/-- A SEND is rejected while the engine is not idle, and where its payload is over the bound (R202). -/
theorem sendCommand_rejected {P : Params} {c : Byte} {d : List Byte} {s : State}
    (h : s.engState ≠ .idle ∨ P.maxFrame - 4 < d.length) : sendCommand P c d s = .next (rejectSend s) := by
  unfold sendCommand
  split_ifs with hidle
  · rfl
  · rw [buildFrame_none P c d (h.resolve_left hidle)]

/-- Settles O26: the rejection is all that the SEND does. -/
theorem rejectedSendChangesNothing : Obligations.RejectedSendChangesNothing := by
  unfold Obligations.RejectedSendChangesNothing
  intro a c d s hr h
  have heffect : hostEffect (.send a c d) { s with opActive := true } =
      .next (rejectSend { s with opActive := true }) := sendCommand_rejected h
  rw [rejectSend_eq] at heffect
  exact exec_hostOp_completes (.send a c d) rfl nofun hr heffect

/-! ## The environment events -/

/-- RXPUSH completes in every state, with what receiving the byte leaves (R210). -/
theorem exec_rxpush (b : Byte) (s : State) :
    exec (.rxpush b) s = .next (advance (receiveByte Config.params b s)) := rfl

/-- A byte received after INIT is appended where the receive interrupt is on and the FIFO has room, else lost
(R210). -/
theorem receiveByte_initialised {P : Params} (b : Byte) {s : State} (hi : s.initialised = true) :
    receiveByte P b s =
      if s.rxIntEn = true ∧ s.rxFifo.length < P.ringSize - 1 then { s with rxFifo := s.rxFifo ++ [b] } else s :=
  if_pos hi

/-- A byte received before INIT leaves a free FIFO (R210). -/
theorem receiveByte_uninitialised {P : Params} (b : Byte) {s : State} (hi : s.initialised = false) :
    receiveByte P b s = { s with rxFifo := freeFifo P s.draws, draws := s.draws + 1 } :=
  if_neg (by simp [hi])

/-- The free contents of the FIFO are inside its bound (spec/10_state.md R48). -/
theorem freeFifo_length_le (P : Params) (n : Nat) : (freeFifo P n).length ≤ P.ringSize - 1 :=
  List.length_take_le _ _

/-- Settles O36: the three cases of a received byte. -/
theorem rxpushAppendsOrLoses : Obligations.RxpushAppendsOrLoses := by
  unfold Obligations.RxpushAppendsOrLoses
  intro b s
  rw [exec_rxpush]
  refine ⟨fun hi hon hroom => ?_, fun hi hlost => ?_, fun hi => ⟨_, freeFifo_length_le _ s.draws, ?_⟩⟩
  · rw [receiveByte_initialised b hi, if_pos ⟨hon, hroom⟩]
    rfl
  · have hnot : ¬ (s.rxIntEn = true ∧ s.rxFifo.length < Config.params.ringSize - 1) := by
      rintro ⟨hon, hroom⟩
      rcases hlost with hoff | hfull
      · simp [hoff] at hon
      · omega
    rw [receiveByte_initialised b hi, if_neg hnot]
    rfl
  · rw [receiveByte_uninitialised b hi]
    rfl

/-- Settles O37: the tick is a 32-bit word, so its sum wraps. -/
theorem tickCounts : Obligations.TickCounts := by
  unfold Obligations.TickCounts
  exact fun s => ⟨s.tick + 1, BitVec.toNat_add s.tick 1, rfl⟩

/-! ## ASMBYTE at a full buffer -/

/-- A collecting assembler whose buffer is full loses the byte and waits for a start again (R163). -/
theorem asmStep_full {P : Params} {b : Byte} {s : State} (ha : s.asmState = .collecting) (hl : s.rxCount = P.maxFrame) :
    asmStep P b s = .next (.overflow, setAssembler .waitingForStart 0 s) := by
  simp [asmStep, ha, hl]

/-- Settles O40: the full buffer is seen before the byte is. -/
theorem fullBufferOverflows : Obligations.FullBufferOverflows := by
  unfold Obligations.FullBufferOverflows
  exact fun b s ha hl => exec_asmbyte (asmStep_full ha hl)

/-! ## Power-on -/

/-- Settles O10: both values are fields of the power-on state. -/
theorem powerOnState : Obligations.PowerOnState := by
  unfold Obligations.PowerOnState
  exact ⟨rfl, rfl⟩

/-- Settles O11: the stores are empty, the counts are 0, and INIT has not run. -/
theorem powerOnMeetsInvariant : Obligations.PowerOnMeetsInvariant := by
  unfold Obligations.PowerOnMeetsInvariant
  have hstable : State.reset.AssemblerStable Config.params := ⟨by decide, fun _ => rfl, fun h => by cases h⟩
  exact ⟨⟨⟨rfl, rfl, by simp [State.reset], by simp [State.reset]⟩, by simp [State.reset], rfl, fun h => by cases h⟩,
    hstable⟩

end Sys2Proof
end

section
/-! PROOF. Everything an operation that completes can do, said once (`exec_cases`), what a TASK leaves as it was
(`runTask_keeps`), and the rules of the whole machine assembled from them (spec/10_state.md R39, R44, R45, R49,
spec/42_protocol_engine.md R240). -/

namespace Sys2Proof

open Sys2Proof.Machine

/-! ## Transmission, timeout and SEND -/

/-- The state after a transmission of the stored frame (R220 to R223). -/
def transmitted (P : Params) (s : State) : State := arm P (transmit P (s.txBuf.readBytes s.txLen) (bufferReset s))

/-- A transmission completes where the stored frame lies in the buffer. -/
theorem startTransmission_transmitted {P : Params} {s : State} (h : s.txLen ≤ P.maxFrame) :
    startTransmission P s = .next (transmitted P s) := by
  simp only [startTransmission, bufferRead, bufferReset_txLen, bufferReset_txBuf, h, if_true, andThen_next, transmitted]

/-- A transmission that completes had its stored frame in the buffer. -/
theorem startTransmission_cases {P : Params} {s t : State} (h : startTransmission P s = .next t) :
    s.txLen ≤ P.maxFrame ∧ t = transmitted P s := by
  by_cases hl : s.txLen ≤ P.maxFrame
  · rw [startTransmission_transmitted hl] at h
    cases h
    exact ⟨hl, rfl⟩
  · rw [startTransmission_fault P s hl] at h
    cases h

/-- Everything the deadline test after a drain can do (R231 to R235). -/
inductive DeadlineCase (P : Params) (s : State) : State → Prop
  /-- No timeout. -/
  | quiet : DeadlineCase P s s
  /-- The timeout is reported and the stored frame sent again (R234). -/
  | retransmit : s.engState = .waitingForResponse → s.retryCount.toNat < 3 → s.txLen ≤ P.maxFrame →
      DeadlineCase P s (transmitted P
        { s with
          lastError := .timeout
          trace := s.trace ++ errEvents s.errCb .timeout
          retryCount := s.retryCount + 1 })
  /-- The timeout is reported and the exchange abandoned (R235). -/
  | abandon : DeadlineCase P s
      { s with
        lastError := .timeout
        trace := s.trace ++ errEvents s.errCb .timeout
        engState := .idle
        retryCount := 0 }

/-- A deadline test that completes is one of the three cases. -/
theorem checkDeadline_cases {P : Params} {s t : State} (h : checkDeadline P s = .next t) : DeadlineCase P s t := by
  unfold checkDeadline at h
  split_ifs at h with hd
  · by_cases hretry : s.retryCount.toNat < maxRetry
    · simp only [onTimeout, raiseError_eq, hretry, if_true] at h
      obtain ⟨hl, rfl⟩ := startTransmission_cases h
      exact .retransmit hd.1 hretry hl
    · rw [onTimeout_abandon P s hretry] at h
      cases h
      exact .abandon
  · cases h
    exact .quiet

/-- A TASK that completes drained the FIFO and then made the deadline test (R200). -/
theorem runTask_cases {P : Params} {s t : State} (h : runTask P s = .next t) :
    ∃ u, drain P s.rxFifo s = .next u ∧ DeadlineCase P u t := by
  obtain ⟨u, hdrain, hdeadline⟩ := (andThen_eq_next _ _ _).mp h
  exact ⟨u, hdrain, checkDeadline_cases hdeadline⟩

/-- A TASK that completes was ready, and its effect completed. -/
theorem exec_task_cases {s t : State} (h : exec .task s = .next t) :
    s.initialised = true ∧ s.opActive = false ∧ ∃ u, runTask Config.params { s with opActive := true } = .next u ∧
      t = { u with opActive := false, pc := u.pc + 1 } :=
  (hostOp_next s t _).mp h

/-- The state with a command frame stored, no retry made yet (R203). -/
def loadFrame (f : List Byte) (s : State) : State :=
  { s with txBuf := s.txBuf.writeBytes 0 f, txLen := f.length, retryCount := 0 }

/-- A SEND that completes was rejected, or sent the frame that BUILD makes (R202, R203). -/
theorem sendCommand_cases {P : Params} {c : Byte} {d : List Byte} {s t : State} (h : sendCommand P c d s = .next t) :
    t = rejectSend s ∨ s.engState = .idle ∧ ∃ f, buildFrame P c d = some f ∧ f.length ≤ P.maxFrame ∧
      t = putResult (.code 0) (transmitted P (loadFrame f s)) := by
  unfold sendCommand at h
  split_ifs at h with he
  · cases h
    exact .inl rfl
  · cases hf : buildFrame P c d with
    | none =>
      rw [hf] at h
      cases h
      exact .inl rfl
    | some f =>
      simp only [hf, bufferWrite, Nat.zero_add] at h
      split_ifs at h with hl
      · rw [andThen_next] at h
        obtain ⟨u, hu, hnext⟩ := (andThen_eq_next _ _ _).mp h
        obtain ⟨-, rfl⟩ := startTransmission_cases hu
        cases hnext
        exact .inr ⟨not_not.mp he, f, rfl, hl, rfl⟩
      · cases h

/-! ## Everything an operation can do -/

/-- Everything the effect of a host operation that completes can do (spec/42_protocol_engine.md R200 to R208). -/
inductive HostCase (s : State) : Instr → State → Prop
  | init : HostCase s .init (initEngine Config.params s)
  | reset : HostCase s .reset (toInitialValues Config.params s)
  | setrcb (h : Byte) : HostCase s (.setrcb h) { s with respCb := handleOf h }
  | setecb (h : Byte) : HostCase s (.setecb h) { s with errCb := handleOf h }
  | getstate : HostCase s .getstate (putResult (.code (engStateCode s.engState)) s)
  | geterr : HostCase s .geterr (putResult (.code (errorCodeValue s.lastError)) s)
  | reject (a c : Byte) (d : List Byte) : HostCase s (.send a c d) (rejectSend s)
  | accept (a c : Byte) (d f : List Byte) : s.engState = .idle → buildFrame Config.params c d = some f →
      f.length ≤ Config.params.maxFrame →
      HostCase s (.send a c d) (putResult (.code 0) (transmitted Config.params (loadFrame f s)))
  | task {t : State} : runTask Config.params s = .next t → HostCase s .task t

/-- The effect of a host operation that completes is one of these cases. -/
theorem hostEffect_cases {i : Instr} {s t : State} (hi : isHostOp i = true) (h : hostEffect i s = .next t) :
    HostCase s i t := by
  cases i with
  | init => cases h; exact .init
  | setrcb k => cases h; exact .setrcb k
  | setecb k => cases h; exact .setecb k
  | send a c d =>
    obtain rfl | ⟨he, f, hf, hl, rfl⟩ := sendCommand_cases h
    · exact .reject a c d
    · exact .accept a c d f he hf hl
  | task => exact .task h
  | getstate => cases h; exact .getstate
  | geterr => cases h; exact .geterr
  | reset => cases h; exact .reset
  | _ => cases hi

/-- Everything an operation that completes can do. -/
inductive ExecCase (s : State) : Instr → State → Prop
  /-- A sub-block function: one result, no more. -/
  | function (i : Instr) (r : Result) : isHostOp i = false → (∀ b, i ≠ .asmbyte b) → ExecCase s i (s.returned r)
  /-- ASMBYTE: an assembler step and its outcome (spec/41_receive_assembler.md R168). -/
  | assembled {b : Byte} {o : AsmOutcome} {u : State} : asmStep Config.params b s = .next (o, u) →
      ExecCase s (.asmbyte b) (u.returned (.assembled o))
  /-- RXPUSH (R210). -/
  | received (b : Byte) : ExecCase s (.rxpush b) (advance (receiveByte Config.params b s))
  /-- TICK (R209). -/
  | ticked : ExecCase s .tick (advance { s with tick := s.tick + 1 })
  /-- A host operation: its effect, while it is in progress. -/
  | host {i : Instr} {u : State} : s.opActive = false → (i = .init ∨ s.initialised = true) →
      HostCase { s with opActive := true } i u → ExecCase s i { u with opActive := false, pc := u.pc + 1 }

/-- A host operation that completes was not inside another, came after INIT or is INIT, and its effect completed. -/
theorem exec_host_cases {i : Instr} {s t : State} (hi : isHostOp i = true) (h : exec i s = .next t) :
    ExecCase s i t := by
  by_cases hne : i = .init
  · subst hne
    cases ha : s.opActive with
    | true =>
      rw [exec_init_eq_hostOpAlways, hostOpAlways_reentrant _ ha] at h
      cases h
    | false =>
      rw [exec_init ha] at h
      cases h
      exact .host ha (.inl rfl) .init
  · rw [exec_eq_hostOp hi hne] at h
    obtain ⟨hinit, ha, u, hu, rfl⟩ := (hostOp_next _ _ _).mp h
    exact .host ha (.inr hinit) (hostEffect_cases hi hu)

/-- An operation that completes is one of these cases. -/
theorem exec_cases {i : Instr} {s t : State} (h : exec i s = .next t) : ExecCase s i t := by
  cases hhost : isHostOp i with
  | true => exact exec_host_cases hhost h
  | false =>
    obtain rfl | ⟨b, rfl⟩ | ⟨b, rfl⟩ | ⟨r, sb, v, rfl, hr⟩ | ⟨hasmbyte, res, hres⟩ := nonHost_cases hhost
    · cases h
      exact .ticked
    · cases h
      exact .received b
    · obtain ⟨⟨o, u⟩, hstep, hu⟩ := (andThen_eq_next _ _ _).mp h
      cases hu
      exact .assembled hstep
    · rw [exec_status_refused sb v s hr] at h
      cases h
    · rw [hres] at h
      cases h
      exact .function i res hhost hasmbyte

/-! ## Events -/

/-- From `s` to `t` the trace grew, by events that all have the property `p`. -/
abbrev Emits (p : Event → Prop) (s t : State) : Prop := ∃ es, t.trace = s.trace ++ es ∧ ∀ e ∈ es, p e

theorem Emits.of_trace_eq {p : Event → Prop} {s t : State} (h : t.trace = s.trace) : Emits p s t :=
  ⟨[], by rw [h, List.append_nil], by simp⟩

theorem Emits.trans {p : Event → Prop} {s t u : State} (h : Emits p s t) (k : Emits p t u) : Emits p s u := by
  obtain ⟨es, hes, hall⟩ := h
  obtain ⟨es', hes', hall'⟩ := k
  exact ⟨es ++ es', by rw [hes', hes, List.append_assoc], List.forall_mem_append.mpr ⟨hall, hall'⟩⟩

/-! ## What a TASK leaves as it was -/

/-- The event reports no error, or one that a rule raises (spec/30_encoding.md R125, spec/60_exceptions.md R320). -/
def reportsReal : Event → Prop
  | .err _ c => c ≠ .nakReceived ∧ c ≠ .ok
  | _ => True

theorem reportsReal_errEvents {slot : Option Byte} {c : ErrorCode} (h : c ≠ .nakReceived ∧ c ≠ .ok) :
    ∀ e ∈ errEvents slot c, reportsReal e := by
  cases slot <;> simp [reportsReal, h]

theorem reportsReal_respEvents {slot : Option Byte} {r : Record} : ∀ e ∈ respEvents slot r, reportsReal e := by
  cases slot <;> simp [reportsReal]

/-- What holds between the state a TASK starts in and every state it goes through: the fields that R200 does not list
as written keep their values, the trace grows by events that report real errors only, and so does the last error
change. -/
structure TaskKeeps (s t : State) : Prop where
  txBuf : t.txBuf = s.txBuf
  txLen : t.txLen = s.txLen
  respCb : t.respCb = s.respCb
  errCb : t.errCb = s.errCb
  initialised : t.initialised = s.initialised
  results : t.results = s.results
  stream : t.stream = s.stream
  pc : t.pc = s.pc
  opActive : t.opActive = s.opActive
  events : Emits reportsReal s t
  lastError : t.lastError = s.lastError ∨ t.lastError ≠ .nakReceived

theorem TaskKeeps.refl (s : State) : TaskKeeps s s :=
  ⟨rfl, rfl, rfl, rfl, rfl, rfl, rfl, rfl, rfl, .of_trace_eq rfl, .inl rfl⟩

theorem TaskKeeps.trans {s t u : State} (h : TaskKeeps s t) (k : TaskKeeps t u) : TaskKeeps s u where
  txBuf := k.txBuf.trans h.txBuf
  txLen := k.txLen.trans h.txLen
  respCb := k.respCb.trans h.respCb
  errCb := k.errCb.trans h.errCb
  initialised := k.initialised.trans h.initialised
  results := k.results.trans h.results
  stream := k.stream.trans h.stream
  pc := k.pc.trans h.pc
  opActive := k.opActive.trans h.opActive
  events := h.events.trans k.events
  lastError := by
    rcases k.lastError with hk | hk
    · rw [hk]
      exact h.lastError
    · exact .inr hk

theorem TaskKeeps.setFifo (s : State) (q : List Byte) : TaskKeeps s { s with rxFifo := q } :=
  ⟨rfl, rfl, rfl, rfl, rfl, rfl, rfl, rfl, rfl, .of_trace_eq rfl, .inl rfl⟩

/-- Reporting a real error writes the last error and the trace. -/
theorem TaskKeeps.raise (s : State) {c : ErrorCode} (h : c ≠ .nakReceived ∧ c ≠ .ok) (g : EngState) (n : Byte) :
    TaskKeeps s
      { s with lastError := c, trace := s.trace ++ errEvents s.errCb c, engState := g, retryCount := n } :=
  ⟨rfl, rfl, rfl, rfl, rfl, rfl, rfl, rfl, rfl, ⟨_, rfl, reportsReal_errEvents h⟩, .inr h.1⟩

/-- An assembler step writes the assembler's fields alone. -/
theorem asmStep_keeps {P : Params} {b : Byte} {s t : State} {o : AsmOutcome} (h : asmStep P b s = .next (o, t)) :
    TaskKeeps s t := by
  obtain ⟨buf, a, n, rfl⟩ := asmStep_frame h
  exact ⟨rfl, rfl, rfl, rfl, rfl, rfl, rfl, rfl, rfl, .of_trace_eq rfl, .inl rfl⟩

/-- Processing a frame reports `InvalidFrame` or `ChecksumMismatch` at most (R237). -/
theorem processFrame_keeps (P : Params) (f : List Byte) (s : State) : TaskKeeps s (processFrame P f s) := by
  obtain ⟨c, es, heq, hcase⟩ := processFrame_eq P f s
  rw [heq]
  cases hd : detect P f with
  | none =>
    rw [hd] at hcase
    obtain ⟨rfl, rfl⟩ := hcase
    exact .raise s (by decide) _ _
  | some rev =>
    simp only [hd] at hcase
    split_ifs at hcase
    · obtain ⟨rfl, rfl⟩ := hcase
      exact ⟨rfl, rfl, rfl, rfl, rfl, rfl, rfl, rfl, rfl, ⟨_, rfl, reportsReal_respEvents⟩, .inl rfl⟩
    · obtain ⟨rfl, rfl⟩ := hcase
      exact ⟨rfl, rfl, rfl, rfl, rfl, rfl, rfl, rfl, rfl,
        ⟨_, rfl, List.forall_mem_append.mpr ⟨reportsReal_errEvents (by decide), reportsReal_respEvents⟩⟩,
        .inr ErrorCode.noConfusion⟩

theorem onOutcome_keeps (P : Params) (o : AsmOutcome) (s : State) : TaskKeeps s (onOutcome P o s) := by
  cases o with
  | none => exact .refl s
  | overflow =>
    rw [onOutcome, onOverflow_eq]
    exact .raise s (by decide) _ _
  | completed f => exact processFrame_keeps P f s

theorem takeByte_keeps {P : Params} {b : Byte} {s t : State} (h : takeByte P b s = .next t) : TaskKeeps s t := by
  obtain ⟨⟨o, u⟩, hstep, hu⟩ := (andThen_eq_next _ _ _).mp h
  cases hu
  exact (asmStep_keeps hstep).trans (onOutcome_keeps P o u)

/-- What every byte of a drain keeps, the drain keeps (R230). -/
theorem drain_induction {P : Params} {Q : State → Prop}
    (hbyte : ∀ b rest s t, Q s → takeByte P b { s with rxFifo := rest } = .next t → Q t) {bs : List Byte} {s t : State}
    (h : drain P bs s = .next t) (hs : Q s) : Q t := by
  induction bs generalizing s with
  | nil =>
    cases h
    exact hs
  | cons b rest ih =>
    obtain ⟨u, hu, hrest⟩ := (andThen_eq_next _ _ _).mp h
    exact ih hrest (hbyte b rest s u hs hu)

theorem drain_keeps {P : Params} {bs : List Byte} {s t : State} (h : drain P bs s = .next t) : TaskKeeps s t :=
  drain_induction (Q := TaskKeeps s)
    (fun _ rest u _ hu hv => (hu.trans (.setFifo u rest)).trans (takeByte_keeps hv)) h (.refl s)

/-- A transmission emits PREAMBLE and TX (R222). -/
theorem transmitted_keeps (P : Params) (s : State) : TaskKeeps s (transmitted P s) :=
  ⟨rfl, rfl, rfl, rfl, rfl, rfl, rfl, rfl, rfl,
    ⟨_, List.append_assoc _ _ _, by simp [reportsReal]⟩, .inl rfl⟩

theorem deadline_keeps {P : Params} {s t : State} (h : DeadlineCase P s t) : TaskKeeps s t := by
  cases h with
  | quiet => exact .refl s
  | retransmit hw hr hl =>
    exact (TaskKeeps.raise s (by decide) s.engState (s.retryCount + 1)).trans (transmitted_keeps P _)
  | abandon => exact .raise s (by decide) _ _

/-- A TASK keeps what R200 does not list as written. -/
theorem runTask_keeps {P : Params} {s t : State} (h : runTask P s = .next t) : TaskKeeps s t := by
  obtain ⟨u, hdrain, hdeadline⟩ := runTask_cases h
  exact (drain_keeps hdrain).trans (deadline_keeps hdeadline)

/-! ## Rules of the whole machine -/

/-- The effect of a host operation keeps the stream and the operation's place in it. -/
theorem HostCase.stream_pc {i : Instr} {s t : State} (h : HostCase s i t) : t.stream = s.stream ∧ t.pc = s.pc := by
  cases h with
  | reject => rw [rejectSend_eq]; exact ⟨rfl, rfl⟩
  | task h => exact ⟨(runTask_keeps h).stream, (runTask_keeps h).pc⟩
  | _ => exact ⟨rfl, rfl⟩

/-- Settles O9: every effect keeps `pc`, and every operation ends by advancing it. -/
theorem operationsAdvanceStream : Obligations.OperationsAdvanceStream := by
  unfold Obligations.OperationsAdvanceStream
  intro i s t h
  cases exec_cases h with
  | function => exact ⟨rfl, rfl⟩
  | assembled hstep => exact ⟨congrArg (· + 1) (asmStep_keeps hstep).pc, (asmStep_keeps hstep).stream⟩
  | received b => rw [receiveByte]; split_ifs <;> exact ⟨rfl, rfl⟩
  | ticked => exact ⟨rfl, rfl⟩
  | host ha hi hc => exact ⟨congrArg (· + 1) hc.stream_pc.2, hc.stream_pc.1⟩

/-- The effect of a host operation adds events that report real errors only. -/
theorem HostCase.events {i : Instr} {s t : State} (h : HostCase s i t) : Emits reportsReal s t := by
  cases h with
  | reject => rw [rejectSend_eq]; exact ⟨_, rfl, reportsReal_errEvents (by decide)⟩
  | accept _ _ _ f => exact (transmitted_keeps Config.params (loadFrame f s)).events
  | task h => exact (runTask_keeps h).events
  | _ => exact Emits.of_trace_eq rfl

/-- The effect of a host operation returns at most one result. -/
theorem HostCase.results {i : Instr} {s t : State} (h : HostCase s i t) :
    ∃ rs : List Result, rs.length ≤ 1 ∧ t.results = s.results ++ rs := by
  cases h with
  | getstate => exact ⟨[_], by simp, rfl⟩
  | geterr => exact ⟨[_], by simp, rfl⟩
  | reject => rw [rejectSend_eq]; exact ⟨[_], by simp, rfl⟩
  | accept => exact ⟨[_], by simp, rfl⟩
  | task h => exact ⟨[], by simp, by rw [List.append_nil, (runTask_keeps h).results]⟩
  | _ => exact ⟨[], by simp, (List.append_nil _).symm⟩

/-- A received byte changes the FIFO alone, and the draws. -/
theorem receiveByte_frame (P : Params) (b : Byte) (s : State) :
    ∃ (q : List Byte) (n : Nat), receiveByte P b s = { s with rxFifo := q, draws := n } := by
  unfold receiveByte
  split_ifs
  · exact ⟨s.rxFifo ++ [b], s.draws, rfl⟩
  · exact ⟨s.rxFifo, s.draws, rfl⟩
  · exact ⟨_, _, rfl⟩

/-- Every operation adds to the trace, and only events that report real errors. -/
theorem exec_events {i : Instr} {s t : State} (h : exec i s = .next t) : Emits reportsReal s t := by
  cases exec_cases h with
  | function => exact Emits.of_trace_eq rfl
  | assembled hstep => exact (asmStep_keeps hstep).events
  | received b =>
    obtain ⟨q, n, heq⟩ := receiveByte_frame Config.params b s
    rw [heq]
    exact Emits.of_trace_eq rfl
  | ticked => exact Emits.of_trace_eq rfl
  | host ha hi hc => exact hc.events

/-- Settles O14: every effect appends to the trace, and to the results at most once. -/
theorem outputsOnlyGrow : Obligations.OutputsOnlyGrow := by
  unfold Obligations.OutputsOnlyGrow
  intro i s t h
  obtain ⟨es, hes, -⟩ := exec_events h
  refine ⟨⟨es, hes⟩, ?_⟩
  cases exec_cases h with
  | function => exact ⟨[_], by simp, rfl⟩
  | assembled hstep => exact ⟨[_], by simp, by rw [← (asmStep_keeps hstep).results]; rfl⟩
  | received b =>
    obtain ⟨q, n, heq⟩ := receiveByte_frame Config.params b s
    rw [heq]
    exact ⟨[], by simp, (List.append_nil _).symm⟩
  | ticked => exact ⟨[], by simp, (List.append_nil _).symm⟩
  | host ha hi hc => exact hc.results

/-- Settles O15: of the host operations INIT clears both slots, a registration writes its own, and no other effect
writes either. -/
theorem callbacksChangeOnlyByRegistration : Obligations.CallbacksChangeOnlyByRegistration := by
  unfold Obligations.CallbacksChangeOnlyByRegistration
  intro i s t h hne
  cases exec_cases h with
  | function => exact ⟨fun _ => rfl, fun _ => rfl⟩
  | assembled hstep => exact ⟨fun _ => (asmStep_keeps hstep).respCb, fun _ => (asmStep_keeps hstep).errCb⟩
  | received b =>
    obtain ⟨q, n, heq⟩ := receiveByte_frame Config.params b s
    rw [heq]
    exact ⟨fun _ => rfl, fun _ => rfl⟩
  | ticked => exact ⟨fun _ => rfl, fun _ => rfl⟩
  | host ha hi hc =>
    cases hc with
    | init => exact absurd rfl hne
    | setrcb k => exact ⟨fun hnot => absurd rfl (hnot k), fun _ => rfl⟩
    | setecb k => exact ⟨fun _ => rfl, fun hnot => absurd rfl (hnot k)⟩
    | reject => rw [rejectSend_eq]; exact ⟨fun _ => rfl, fun _ => rfl⟩
    | task htask => exact ⟨fun _ => (runTask_keeps htask).respCb, fun _ => (runTask_keeps htask).errCb⟩
    | _ => exact ⟨fun _ => rfl, fun _ => rfl⟩

/-- An operation that changes the last error is one of four, and the new value is none that no rule raises
(R125, spec/10_state.md R45). -/
theorem exec_lastError {i : Instr} {s t : State} (h : exec i s = .next t) :
    t.lastError = s.lastError ∨
      t.lastError ≠ .nakReceived ∧ (i = .task ∨ i = .init ∨ i = .reset ∨ ∃ a c d, i = .send a c d) := by
  cases exec_cases h with
  | function => exact .inl rfl
  | assembled hstep =>
    obtain ⟨buf, a, n, rfl⟩ := asmStep_frame hstep
    exact .inl rfl
  | received b =>
    obtain ⟨q, n, heq⟩ := receiveByte_frame Config.params b s
    rw [heq]
    exact .inl rfl
  | ticked => exact .inl rfl
  | host ha hi hc =>
    cases hc with
    | init => exact .inr ⟨by simp, .inr (.inl rfl)⟩
    | reset => exact .inr ⟨by simp, .inr (.inr (.inl rfl))⟩
    | reject a c d => rw [rejectSend_eq]; exact .inr ⟨by simp, .inr (.inr (.inr ⟨a, c, d, rfl⟩))⟩
    | task htask => exact (runTask_keeps htask).lastError.imp_right fun hreal => ⟨hreal, .inl rfl⟩
    | _ => exact .inl rfl

/-- Settles O16: the errors that TASK and SEND report are `Timeout`, `ChecksumMismatch`, `InvalidFrame`,
`BufferOverflow` and `InvalidParam`; INIT and RESET clear the last error and report nothing. -/
theorem errorsReportedAreReal : Obligations.ErrorsReportedAreReal := by
  unfold Obligations.ErrorsReportedAreReal
  intro i s t h
  obtain ⟨es, hes, hreal⟩ := exec_events h
  refine ⟨fun hne => ?_, fun hs => ?_, es, hes, fun k => ⟨fun hmem => ?_, fun hmem => ?_⟩⟩
  · exact ((exec_lastError h).resolve_left hne).2
  · rcases exec_lastError h with heq | ⟨hreal, -⟩
    · rwa [heq]
    · exact hreal
  · exact (hreal _ hmem).1 rfl
  · exact (hreal _ hmem).2 rfl

/-- A waiting engine rejects a SEND, and no other operation but TASK, INIT and RESET touches the exchange (R240). -/
theorem HostCase.waiting {i : Instr} {s t : State} (h : HostCase s i t) (hw : s.engState = .waitingForResponse)
    (htask : i ≠ .task) (hinit : i ≠ .init) (hreset : i ≠ .reset) :
    t.engState = s.engState ∧ t.deadline = s.deadline ∧ t.retryCount = s.retryCount ∧ t.rxFifo = s.rxFifo ∧
      Emits (fun e => ∃ k, e = .err k .invalidParam) s t := by
  cases h with
  | init => exact absurd rfl hinit
  | reset => exact absurd rfl hreset
  | task => exact absurd rfl htask
  | accept _ _ _ _ hidle => rw [hw] at hidle; cases hidle
  | reject =>
    rw [rejectSend_eq]
    refine ⟨rfl, rfl, rfl, rfl, _, rfl, fun e he => ?_⟩
    cases hcb : s.errCb with
    | none => simp [hcb] at he
    | some k => exact ⟨k, by simpa [hcb] using he⟩
  | _ => exact ⟨rfl, rfl, rfl, rfl, Emits.of_trace_eq rfl⟩

/-- Settles O18: outside TASK, INIT and RESET, only RXPUSH writes the FIFO and only a rejected SEND reports. -/
theorem waitingLastsUntilTask : Obligations.WaitingLastsUntilTask := by
  unfold Obligations.WaitingLastsUntilTask
  intro i s t hi hw h htask hinit hreset
  have hquiet : Emits (fun e => ∃ k, e = .err k .invalidParam) s s := .of_trace_eq rfl
  cases exec_cases h with
  | function => exact ⟨hw, rfl, rfl, ⟨[], (List.append_nil _).symm⟩, hquiet⟩
  | assembled hstep =>
    obtain ⟨buf, a, n, rfl⟩ := asmStep_frame hstep
    exact ⟨hw, rfl, rfl, ⟨[], (List.append_nil _).symm⟩, hquiet⟩
  | received b =>
    rw [receiveByte_initialised b hi]
    split_ifs
    · exact ⟨hw, rfl, rfl, ⟨[b], rfl⟩, hquiet⟩
    · exact ⟨hw, rfl, rfl, ⟨[], (List.append_nil _).symm⟩, hquiet⟩
  | ticked => exact ⟨hw, rfl, rfl, ⟨[], (List.append_nil _).symm⟩, hquiet⟩
  | host ha hinit' hc =>
    obtain ⟨heng, hdeadline, hretry, hfifo, hevents⟩ := hc.waiting hw htask hinit hreset
    exact ⟨heng.trans hw, hdeadline, hretry, ⟨[], hfifo.trans (List.append_nil _).symm⟩, hevents⟩

end Sys2Proof
end

section
/-! PROOF. The invariant between operations (spec/10_state.md R61): that each effect keeps it, which faults it rules out
(spec/60_exceptions.md R332), and what TASK does in the states that meet it (spec/42_protocol_engine.md R200, R230). -/

namespace Sys2Proof

open Sys2Proof.Machine

/-- What the invariant asks of a state after INIT, whether an operation is in progress or not
(`Settled.of_inv`, `Settled.inv`): what each step of an effect keeps. -/
structure Settled (s : State) : Prop where
  stores : s.StoresCanonical Config.params
  range : s.InRange Config.params
  between : s.BetweenOperations Config.params
  slots : s.SlotsStable

theorem Settled.of_inv {s : State} (h : s.Inv) (hi : s.initialised = true) : Settled s := by
  obtain ⟨hstores, hrange, -, hinit⟩ := h
  obtain ⟨hbetween, hslots⟩ := hinit hi
  exact ⟨hstores, hrange, hbetween, hslots⟩

theorem Settled.inv {s : State} (h : Settled s) (ha : s.opActive = false) : s.Inv :=
  ⟨h.stores, h.range, ha, fun _ => ⟨h.between, h.slots⟩⟩

theorem Settled.stable {s : State} (h : Settled s) : s.AssemblerStable Config.params := by
  obtain ⟨-, -, -, hasm, -⟩ := h.between
  exact hasm

theorem Settled.rxBuf_wf {s : State} (h : Settled s) : s.rxBuf.wf = true := by
  obtain ⟨-, hwf, -⟩ := h.stores
  exact hwf

/-- The invariant asks nothing of the flag of an operation in progress. -/
theorem Settled.setOpActive {s : State} (h : Settled s) (a : Bool) : Settled { s with opActive := a } :=
  ⟨h.stores, h.range, h.between, h.slots⟩

/-- The invariant asks nothing of the result port. -/
theorem Settled.putResult {s : State} (h : Settled s) (r : Result) : Settled (putResult r s) :=
  ⟨h.stores, h.range, h.between, h.slots⟩

theorem maxFrame_pos : 1 ≤ Config.params.maxFrame := le_trans (by decide) maxFrame_ge

/-! ## The assembler -/

/-- An assembler step keeps the stores and the ranges, in any state (R70, R71, R36). -/
theorem asmStep_keeps_stores {b : Byte} {s t : State} {o : AsmOutcome} (h : asmStep Config.params b s = .next (o, t))
    (hstores : s.StoresCanonical Config.params) (hrange : s.InRange Config.params) :
    t.StoresCanonical Config.params ∧ t.InRange Config.params := by
  obtain ⟨htxwf, hrxwf, htxbound, hrxbound⟩ := hstores
  obtain ⟨htxLen, htxCursor, hcount, -, hfifo⟩ := hrange
  cases asmStep_cases h with
  | skip ha hb => exact ⟨⟨htxwf, hrxwf, htxbound, hrxbound⟩, htxLen, htxCursor, hcount, hcount, hfifo⟩
  | start ha hb hm =>
    exact ⟨⟨htxwf, Memory.write_wf _ _ _ hrxwf, htxbound, Memory.write_bound _ _ _ _ hrxbound hm⟩,
      htxLen, htxCursor, hm, hm, hfifo⟩
  | overflow ha hc =>
    exact ⟨⟨htxwf, hrxwf, htxbound, hrxbound⟩, htxLen, htxCursor, Nat.zero_le _, Nat.zero_le _, hfifo⟩
  | append ha hc he =>
    exact ⟨⟨htxwf, Memory.write_wf _ _ _ hrxwf, htxbound, Memory.write_bound _ _ _ _ hrxbound hc⟩,
      htxLen, htxCursor, hc, hc, hfifo⟩
  | complete ha hc he =>
    exact ⟨⟨htxwf, Memory.write_wf _ _ _ hrxwf, htxbound, Memory.write_bound _ _ _ _ hrxbound hc⟩,
      htxLen, htxCursor, Nat.zero_le _, Nat.zero_le _, hfifo⟩

/-- An assembler step keeps all that the invariant asks. -/
theorem asmStep_settled {b : Byte} {s t : State} {o : AsmOutcome} (h : asmStep Config.params b s = .next (o, t))
    (hs : Settled s) : Settled t := by
  obtain ⟨hstores, hrange⟩ := asmStep_keeps_stores h hs.stores hs.range
  obtain ⟨hstable, -⟩ := asmStep_stable h hs.stable hs.rxBuf_wf
  obtain ⟨heng, hidle, hwaiting, -, hint, hfifo⟩ := hs.between
  obtain ⟨htx, -, hresp, herr⟩ := hs.slots
  obtain ⟨buf, a, n, rfl⟩ := asmStep_frame h
  exact ⟨hstores, hrange, ⟨heng, hidle, hwaiting, hstable, hint, hfifo⟩, htx, rfl, hresp, herr⟩

/-! ## TASK -/

/-- An error, events and the end of the exchange leave all that the invariant asks. -/
theorem Settled.ended {s : State} (h : Settled s) (c : ErrorCode) (tr : List Event) :
    Settled { s with lastError := c, trace := tr, engState := .idle, retryCount := 0 } := by
  obtain ⟨-, -, -, hasm, hint, hfifo⟩ := h.between
  exact ⟨h.stores, h.range, ⟨.inl rfl, fun _ => rfl, EngState.noConfusion, hasm, hint, hfifo⟩, h.slots⟩

/-- What TASK does on an assembler outcome keeps all that the invariant asks. -/
theorem onOutcome_settled (o : AsmOutcome) {s : State} (h : Settled s) : Settled (onOutcome Config.params o s) := by
  obtain ⟨c, es, heq⟩ := onOutcome_frame Config.params o s
  rw [heq]
  by_cases hend : s.engState = .waitingForResponse ∧ o ≠ .none
  · simp only [if_pos hend]
    exact h.ended c _
  · simp only [if_neg hend]
    exact ⟨h.stores, h.range, h.between, h.slots⟩

/-- A shorter FIFO keeps all that the invariant asks. -/
theorem Settled.setFifo {s : State} (h : Settled s) {q : List Byte} (hq : q.length ≤ Config.params.ringSize - 1) :
    Settled { s with rxFifo := q } := by
  obtain ⟨htxLen, htxCursor, hcount, hcursor, -⟩ := h.range
  obtain ⟨heng, hidle, hwaiting, hasm, hint, -⟩ := h.between
  exact ⟨h.stores, ⟨htxLen, htxCursor, hcount, hcursor, hq⟩, ⟨heng, hidle, hwaiting, hasm, hint, hq⟩, h.slots⟩

/-- A drain keeps all that the invariant asks: each byte leaves a shorter FIFO (R230). -/
theorem drain_settled {bs : List Byte} {s t : State} (h : drain Config.params bs s = .next t) (hs : Settled s)
    (hbs : bs.length ≤ Config.params.ringSize - 1) : Settled t := by
  induction bs generalizing s with
  | nil =>
    cases h
    exact hs
  | cons b rest ih =>
    obtain ⟨u, hbyte, hrest⟩ := (andThen_eq_next _ _ _).mp h
    obtain ⟨⟨o, v⟩, hstep, hv⟩ := (andThen_eq_next _ _ _).mp hbyte
    cases hv
    have hfits : rest.length ≤ Config.params.ringSize - 1 := le_trans (Nat.le_succ _) hbs
    exact ih hrest (onOutcome_settled o (asmStep_settled hstep (hs.setFifo hfits))) hfits

/-- A transmission emits PREAMBLE and TX of the stored frame (R222). -/
theorem transmitted_trace (P : Params) (s : State) :
    (transmitted P s).trace = s.trace ++ [.preamble P.preambleMs, .tx (s.txBuf.readBytes s.txLen)] :=
  List.append_assoc _ _ _

/-- A transmission leaves all that the invariant asks, where the stored frame is a whole command frame in the buffer
and at most three retries were made (R220 to R223). -/
theorem transmitted_settled {s : State} (hstores : s.StoresCanonical Config.params) (h4 : 4 ≤ s.txLen)
    (hl : s.txLen ≤ Config.params.maxFrame) (hr : s.retryCount.toNat ≤ maxRetry)
    (hcb : s.respCb ≠ some 0 ∧ s.errCb ≠ some 0) : Settled (transmitted Config.params s) where
  stores := hstores
  range := ⟨hl, hl, Nat.zero_le _, Nat.zero_le _, Nat.zero_le _⟩
  between := ⟨.inr rfl, EngState.noConfusion, fun _ => ⟨h4, hl, hr⟩,
    ⟨AsmState.noConfusion, fun _ => rfl, AsmState.noConfusion⟩, rfl, Nat.zero_le _⟩
  slots := ⟨rfl, rfl, hcb⟩

/-- One retry more is at most three, where fewer than three were made (R38). -/
theorem retryCount_succ_le {n : Byte} (h : n.toNat < 3) : (n + 1).toNat ≤ maxRetry := by
  rw [maxRetry]
  bv_omega

/-- The deadline test keeps all that the invariant asks (R231 to R236). -/
theorem deadline_settled {s t : State} (h : DeadlineCase Config.params s t) (hs : Settled s) : Settled t := by
  cases h with
  | quiet => exact hs
  | retransmit hw hretry hl =>
    obtain ⟨-, -, hwaiting, -⟩ := hs.between
    obtain ⟨-, -, hcb⟩ := hs.slots
    obtain ⟨h4, -⟩ := hwaiting hw
    exact transmitted_settled hs.stores h4 hl (retryCount_succ_le hretry) hcb
  | abandon => exact hs.ended _ _

/-- TASK keeps all that the invariant asks (R200). -/
theorem runTask_settled {s t : State} (h : runTask Config.params s = .next t) (hs : Settled s) : Settled t := by
  obtain ⟨u, hdrain, hdeadline⟩ := runTask_cases h
  obtain ⟨-, -, -, -, hfifo⟩ := hs.range
  exact deadline_settled hdeadline (drain_settled hdrain hs hfifo)

/-! ## The other host operations -/

/-- The initial values meet the invariant, with nonzero handles (spec/10_state.md R60). -/
theorem toInitialValues_settled (s : State) (hcb : s.respCb ≠ some 0 ∧ s.errCb ≠ some 0) :
    Settled (toInitialValues Config.params s) := by
  obtain ⟨hwf, hbound⟩ := freeBuffer_spec Config.params s.draws
  exact ⟨⟨rfl, hwf, by simp, hbound⟩,
    ⟨Nat.zero_le _, Nat.zero_le _, Nat.zero_le _, Nat.zero_le _, Nat.zero_le _⟩,
    ⟨.inl rfl, fun _ => rfl, EngState.noConfusion,
      ⟨AsmState.noConfusion, fun _ => rfl, AsmState.noConfusion⟩, rfl, Nat.zero_le _⟩,
    rfl, rfl, hcb⟩

/-- INIT's values meet the invariant (R201). -/
theorem initEngine_settled (s : State) : Settled (initEngine Config.params s) :=
  toInitialValues_settled { s with respCb := none, errCb := none, initialised := true } ⟨nofun, nofun⟩

/-- A handle operand of 0 is no handle (spec/30_encoding.md R121). -/
theorem handleOf_ne_zero (h : Byte) : handleOf h ≠ some 0 := by
  unfold handleOf
  split_ifs with hz
  · simp
  · simpa using hz

/-- Every frame that BUILD makes has four bytes and its payload. -/
theorem buildFrame_length {P : Params} {c : Byte} {d f : List Byte} (h : buildFrame P c d = some f) :
    f.length = 4 + d.length := by
  unfold buildFrame at h
  split_ifs at h
  cases h
  exact commandFrame_length c d

/-- A SEND that is accepted leaves all that the invariant asks (R203). -/
theorem accepted_settled {s : State} {c : Byte} {d f : List Byte} (hs : Settled s)
    (hf : buildFrame Config.params c d = some f) (hl : f.length ≤ Config.params.maxFrame) :
    Settled (transmitted Config.params (loadFrame f s)) := by
  obtain ⟨htxwf, hrxwf, htxbound, hrxbound⟩ := hs.stores
  obtain ⟨-, -, hcb⟩ := hs.slots
  have hwf := Memory.writeBytes_wf s.txBuf 0 f htxwf
  have hbound := Memory.writeBytes_bound s.txBuf _ 0 f htxbound ((Nat.zero_add _).trans_le hl)
  have hlen : 4 ≤ f.length := (buildFrame_length hf).symm ▸ Nat.le_add_right 4 _
  exact transmitted_settled (s := loadFrame f s) ⟨hwf, hrxwf, hbound, hrxbound⟩ hlen hl (Nat.zero_le _) hcb

/-- The effect of every host operation leaves all that the invariant asks; INIT's from any state. -/
theorem HostCase.settled {i : Instr} {s t : State} (h : HostCase s i t) (hs : i = .init ∨ Settled s) : Settled t := by
  cases h with
  | init => exact initEngine_settled s
  | reset =>
    obtain ⟨-, -, hcb⟩ := (hs.resolve_left nofun).slots
    exact toInitialValues_settled s hcb
  | setrcb k =>
    obtain ⟨hstores, hrange, hbetween, htx, hrx, -, herr⟩ := hs.resolve_left nofun
    exact ⟨hstores, hrange, hbetween, htx, hrx, handleOf_ne_zero k, herr⟩
  | setecb k =>
    obtain ⟨hstores, hrange, hbetween, htx, hrx, hresp, -⟩ := hs.resolve_left nofun
    exact ⟨hstores, hrange, hbetween, htx, hrx, hresp, handleOf_ne_zero k⟩
  | getstate => exact (hs.resolve_left nofun).putResult _
  | geterr => exact (hs.resolve_left nofun).putResult _
  | reject =>
    obtain ⟨hstores, hrange, hbetween, hslots⟩ := hs.resolve_left nofun
    rw [rejectSend_eq]
    exact ⟨hstores, hrange, hbetween, hslots⟩
  | accept a c d f hidle hf hl => exact (accepted_settled (hs.resolve_left nofun) hf hl).putResult _
  | task htask => exact runTask_settled htask (hs.resolve_left nofun)

/-! ## Every operation keeps the invariant -/

/-- A received byte keeps the FIFO inside its bound (spec/10_state.md R48). -/
theorem receiveByte_inv (b : Byte) {s : State} (h : s.Inv) : (receiveByte Config.params b s).Inv := by
  obtain ⟨hstores, ⟨htxLen, htxCursor, hcount, hcursor, hfifo⟩, ha, hinit⟩ := h
  cases hi : s.initialised with
  | false =>
    rw [receiveByte_uninitialised b hi]
    exact ⟨hstores, ⟨htxLen, htxCursor, hcount, hcursor, freeFifo_length_le _ _⟩, ha, by simp [hi]⟩
  | true =>
    have hs : Settled s := .of_inv ⟨hstores, ⟨htxLen, htxCursor, hcount, hcursor, hfifo⟩, ha, hinit⟩ hi
    rw [receiveByte_initialised b hi]
    split_ifs with hroom
    · exact (hs.setFifo (by rw [List.length_append]; exact hroom.2)).inv ha
    · exact hs.inv ha

/-- ASMBYTE keeps the invariant, before INIT too. -/
theorem asmStep_inv {b : Byte} {s t : State} {o : AsmOutcome} (h : asmStep Config.params b s = .next (o, t))
    (hs : s.Inv) : t.Inv := by
  have hkeeps := asmStep_keeps h
  obtain ⟨hstores, hrange, ha, -⟩ := id hs
  have ha' : t.opActive = false := hkeeps.opActive.trans ha
  cases hi : s.initialised with
  | true => exact (asmStep_settled h (.of_inv hs hi)).inv ha'
  | false =>
    obtain ⟨hstores', hrange'⟩ := asmStep_keeps_stores h hstores hrange
    exact ⟨hstores', hrange', ha', by simp [hkeeps.initialised, hi]⟩

/-- Every operation keeps the invariant. -/
theorem exec_inv {i : Instr} {s t : State} (h : exec i s = .next t) (hs : s.Inv) : t.Inv := by
  cases exec_cases h with
  | function => exact hs
  | assembled hstep =>
    have hinv := asmStep_inv hstep hs
    exact hinv
  | received b => exact receiveByte_inv b hs
  | ticked => exact hs
  | host ha hi hc =>
    have hsettled := hc.settled (hi.imp_right fun hi => (Settled.of_inv hs hi).setOpActive true)
    obtain ⟨hstores, hrange, hbetween, hslots⟩ := hsettled
    exact ⟨hstores, hrange, rfl, fun _ => ⟨hbetween, hslots⟩⟩

/-- A step that completes ran an operation. -/
theorem step_eq_next {s t : State} (h : step s = .next t) : ∃ i, exec i s = .next t := by
  obtain ⟨i, -, hi⟩ := (andThen_eq_next _ _ _).mp h
  exact ⟨i, hi⟩

/-- Settles O12: every operation keeps the invariant: a host operation from what it asks after INIT, the others by the
fields they write. -/
theorem stepKeepsInvariant : Obligations.StepKeepsInvariant := by
  unfold Obligations.StepKeepsInvariant
  intro s t hs h
  obtain ⟨i, hi⟩ := step_eq_next h
  exact exec_inv hi hs

/-! ## The faults that the invariant rules out -/

/-- The deadline test completes where the stored frame lies in the buffer. -/
theorem checkDeadline_total {P : Params} {s : State} (hl : s.txLen ≤ P.maxFrame) :
    ∃ t, checkDeadline P s = .next t := by
  unfold checkDeadline
  split_ifs
  · by_cases hretry : s.retryCount.toNat < 3
    · exact ⟨_, onTimeout_retransmit hretry hl⟩
    · exact ⟨_, onTimeout_abandon P s hretry⟩
  · exact ⟨s, rfl⟩

/-- TASK's effect completes where the assembler is stable and the stored frame lies in the buffer. -/
theorem runTask_total {s : State} (hs : Settled s) : ∃ t, runTask Config.params s = .next t := by
  obtain ⟨u, hdrain, -⟩ := drain_total (bs := s.rxFifo) maxFrame_pos hs.stable hs.rxBuf_wf
  obtain ⟨htxLen, -⟩ := hs.range
  obtain ⟨t, ht⟩ := checkDeadline_total (P := Config.params) (s := u) ((drain_keeps hdrain).txLen.trans_le htxLen)
  exact ⟨t, by rw [runTask, hdrain, andThen_next, ht]⟩

/-- SEND's effect completes: a frame inside the payload bound lies in the buffer. -/
theorem sendCommand_total (c : Byte) (d : List Byte) (s : State) : ∃ t, sendCommand Config.params c d s = .next t := by
  by_cases hreject : s.engState ≠ .idle ∨ Config.params.maxFrame - 4 < d.length
  · exact ⟨_, sendCommand_rejected hreject⟩
  · obtain ⟨hidle, hbound⟩ := not_or.mp hreject
    have hd : d.length ≤ Config.params.maxFrame - 4 := Nat.not_lt.mp hbound
    have hl : (commandFrame c d).length ≤ Config.params.maxFrame := by
      have := maxFrame_ge
      rw [commandFrame_length]
      omega
    simp only [sendCommand, if_neg hidle, buildFrame_commandFrame hd, bufferWrite, Nat.zero_add, if_pos hl,
      andThen_next]
    rw [startTransmission_transmitted hl, andThen_next]
    exact ⟨_, rfl⟩

/-- The effect of every host operation completes in a state that meets what the invariant asks. -/
theorem hostEffect_total (i : Instr) {s : State} (hs : Settled s) : ∃ t, hostEffect i s = .next t := by
  cases i with
  | send a c d => exact sendCommand_total c d s
  | task => exact runTask_total hs
  | _ => exact ⟨_, rfl⟩

/-- A host operation completes, or is refused before INIT. -/
theorem exec_host_total {i : Instr} {s : State} (hhost : isHostOp i = true) (hs : s.Inv) :
    (∃ t, exec i s = .next t) ∨ exec i s = .fault .notInitialised := by
  obtain ⟨-, -, ha, -⟩ := id hs
  by_cases hne : i = .init
  · subst hne
    exact .inl ⟨_, exec_init ha⟩
  · cases hi : s.initialised with
    | false => exact .inr (hostOperationsNeedInit i s hhost hne ha hi)
    | true =>
      obtain ⟨t, ht⟩ := hostEffect_total i ((Settled.of_inv hs hi).setOpActive true)
      exact .inl ⟨_, exec_hostOp_completes i hhost hne ⟨hi, ha⟩ ht⟩

/-- Every operation completes in a state that meets the invariant and whose assembler is stable, but for a host
operation before INIT and a STATUS of no revision. -/
theorem exec_total (i : Instr) {s : State} (hs : s.Inv) (hstable : s.AssemblerStable Config.params) :
    (∃ t, exec i s = .next t) ∨ exec i s = .fault .notInitialised ∨ exec i s = .fault .badOperand := by
  cases hhost : isHostOp i with
  | true => exact (exec_host_total hhost hs).imp_right .inl
  | false =>
    obtain rfl | ⟨b, rfl⟩ | ⟨b, rfl⟩ | ⟨r, sb, v, rfl, hr⟩ | ⟨-, res, hres⟩ := nonHost_cases hhost
    · exact .inl ⟨_, rfl⟩
    · exact .inl ⟨_, exec_rxpush b s⟩
    · obtain ⟨hne, -, hcollecting⟩ := hstable
      obtain ⟨o, u, hstep⟩ := asmStep_total (b := b) maxFrame_pos hne fun ha => (hcollecting ha).2.1
      exact .inl ⟨_, exec_asmbyte hstep⟩
    · exact .inr (.inr (exec_status_refused sb v s hr))
    · exact .inl ⟨_, hres s⟩

/-- Fetching faults only for what the decoder refuses (R122, R333). -/
theorem fetch_fault {s : State} {f : Fault} (h : fetch s = .fault f) :
    f = .truncated ∨ f = .unknownOp ∨ f = .badOperand := by
  unfold fetch at h
  split at h
  · cases h
  · split at h <;> cases h <;> simp

/-- A step faults in fetching or in the operation it fetched. -/
theorem step_fault {s : State} {f : Fault} (h : step s = .fault f) :
    fetch s = .fault f ∨ ∃ i, exec i s = .fault f := by
  rw [step] at h
  cases hf : fetch s with
  | next i =>
    rw [hf] at h
    exact .inr ⟨i, h⟩
  | fault g =>
    rw [hf] at h
    cases h
    exact .inl rfl
  | refused r =>
    rw [hf] at h
    cases h

/-- In a state that meets the invariant, its assembler stable, a step faults for its string or for INIT alone. -/
theorem step_fault_of_inv {s : State} {f : Fault} (hs : s.Inv) (hstable : s.AssemblerStable Config.params)
    (h : step s = .fault f) : f = .truncated ∨ f = .unknownOp ∨ f = .badOperand ∨ f = .notInitialised := by
  rcases step_fault h with hfetch | ⟨i, hi⟩
  · rcases fetch_fault hfetch with rfl | rfl | rfl <;> simp
  · rcases exec_total i hs hstable with ⟨t, ht⟩ | hnot | hbad
    · rw [ht] at hi
      cases hi
    · rw [hnot] at hi
      cases hi
      simp
    · rw [hbad] at hi
      cases hi
      simp

/-- Every operation leaves the assembler stable, before INIT too. -/
theorem exec_stable {i : Instr} {s t : State} (h : exec i s = .next t) (hs : s.Inv)
    (hstable : s.AssemblerStable Config.params) : t.AssemblerStable Config.params := by
  have ht := exec_inv h hs
  cases exec_cases h with
  | function => exact hstable
  | assembled hstep =>
    obtain ⟨⟨-, hrxwf, -⟩, -⟩ := hs
    exact (asmStep_stable hstep hstable hrxwf).1
  | received b =>
    obtain ⟨q, n, heq⟩ := receiveByte_frame Config.params b s
    rw [heq]
    exact hstable
  | ticked => exact hstable
  | host ha hi hc =>
    have hsettled := hc.settled (hi.imp_right fun hi => (Settled.of_inv hs hi).setOpActive true)
    exact hsettled.stable

/-- Settles O13: a step faults for its string or before INIT only; an effect leaves the assembler waiting, or as a chain
of assembler steps leaves it. -/
theorem invariantRulesOutFaults : Obligations.InvariantRulesOutFaults := by
  unfold Obligations.InvariantRulesOutFaults
  intro s hs hstable
  have hfault (f : Fault) (h : step s = .fault f) := step_fault_of_inv hs hstable h
  refine ⟨⟨fun h => ?_, fun h => ?_, fun h => ?_⟩, fun t h => ?_⟩
  · simpa using hfault _ h
  · simpa using hfault _ h
  · simpa using hfault _ h
  · obtain ⟨i, hi⟩ := step_eq_next h
    exact exec_stable hi hs hstable

/-! ## TASK in a state of the invariant -/

/-- TASK leaves the FIFO empty, whatever the deadline test does (R200). -/
theorem runTask_rxFifo {P : Params} {s t : State} (h : runTask P s = .next t) : t.rxFifo = [] := by
  obtain ⟨u, hdrain, hdeadline⟩ := runTask_cases h
  obtain ⟨buf, a, n, m, e, es, g, c, rfl, -⟩ := drain_frame hdrain id
  cases hdeadline <;> rfl

/-- Settles O31: a drain of a stable assembler and a deadline test with the frame in the buffer complete. -/
theorem taskCompletesAndDrains : Obligations.TaskCompletesAndDrains := by
  unfold Obligations.TaskCompletesAndDrains
  intro s hs hi
  obtain ⟨-, -, ha, -⟩ := id hs
  obtain ⟨u, hu⟩ := runTask_total ((Settled.of_inv hs hi).setOpActive true)
  have hkeeps := runTask_keeps hu
  have hempty := runTask_rxFifo hu
  exact ⟨_, exec_task ⟨hi, ha⟩ hu, hempty, fun k => congrArg (Memory.read · k) hkeeps.txBuf, hkeeps.txLen,
    hkeeps.respCb, hkeeps.errCb, hkeeps.initialised.trans hi, hkeeps.results, hkeeps.stream,
    congrArg (· + 1) hkeeps.pc, ha⟩

/-! ## The shape of a completed frame -/

/-- The frame has the length and the two sentinels of R172. -/
def frameShape (f : List Byte) : Prop :=
  7 ≤ f.length ∧ f.length ≤ Config.params.maxFrame ∧ f.getD 0 0 = 0x68 ∧ f.getD (f.length - 1) 0 = 0x16

/-- A frame that an assembler step completes has this shape: its first byte is the stored start sentinel, its last the
end sentinel just stored (R164 to R167, R172). -/
theorem asmStep_completed_shape {b : Byte} {s t : State} {f : List Byte}
    (h : asmStep Config.params b s = .next (.completed f, t)) (hs : s.AssemblerStable Config.params)
    (hw : s.rxBuf.wf = true) : frameShape f := by
  cases asmStep_cases h with
  | complete ha hc he =>
    obtain ⟨hb, hcount⟩ := he
    obtain ⟨-, -, hcollecting⟩ := hs
    obtain ⟨hone, -, hstart⟩ := hcollecting ha
    simp only [minEndCount] at hcount
    refine ⟨?_, ?_, ?_, ?_⟩
    · rw [Memory.readBytes_length]
      omega
    · rw [Memory.readBytes_length]
      exact hc
    · rw [Memory.readBytes_getD _ _ _ (by omega), Memory.read_write_other _ _ _ _ hw (by omega), hstart]
      rfl
    · rw [Memory.readBytes_length, Nat.add_sub_cancel, Memory.readBytes_getD _ _ _ (by omega),
        Memory.read_write_same _ _ _ hw, hb]
      rfl

/-- The event is a record of a frame of that shape, or no record. -/
def deliversShape : Event → Prop
  | .resp _ r => frameShape r.frame ∧ r.frameLen = r.frame.length
  | _ => True

theorem deliversShape_errEvents (slot : Option Byte) (c : ErrorCode) : ∀ e ∈ errEvents slot c, deliversShape e := by
  cases slot <;> simp [deliversShape]

theorem deliversShape_respEvents (slot : Option Byte) {f : List Byte} (rev : Revision) (ok : Bool)
    (hf : frameShape f) : ∀ e ∈ respEvents slot (decodeRecord Config.params f rev ok), deliversShape e := by
  cases slot with
  | none => simp
  | some h => simpa [deliversShape] using ⟨hf, rfl⟩

/-- The events of a processed frame deliver no other frame (R237). -/
theorem processFrame_delivers {f : List Byte} (hf : frameShape f) (s : State) :
    Emits deliversShape s (processFrame Config.params f s) := by
  obtain ⟨c, es, heq, hcase⟩ := processFrame_eq Config.params f s
  rw [heq]
  refine ⟨es, rfl, ?_⟩
  cases hd : detect Config.params f with
  | none =>
    rw [hd] at hcase
    rw [hcase.2]
    exact deliversShape_errEvents _ _
  | some rev =>
    simp only [hd] at hcase
    split_ifs at hcase
    · rw [hcase.2]
      exact deliversShape_respEvents _ _ _ hf
    · rw [hcase.2]
      exact List.forall_mem_append.mpr ⟨deliversShape_errEvents _ _, deliversShape_respEvents _ _ _ hf⟩

/-- What holds along a drain that began in `s`: the assembler is stable, and what was delivered has the shape. -/
def deliversFrom (s t : State) : Prop :=
  t.AssemblerStable Config.params ∧ t.rxBuf.wf = true ∧ Emits deliversShape s t

/-- What TASK does on an outcome delivers no other frame than a completed one. -/
theorem onOutcome_delivers (s : State) : ∀ {o : AsmOutcome}, (∀ f, o = .completed f → frameShape f) →
    Emits deliversShape s (onOutcome Config.params o s)
  | .none, _ => .of_trace_eq rfl
  | .overflow, _ => by
    rw [onOutcome, onOverflow_eq]
    exact ⟨_, rfl, deliversShape_errEvents _ _⟩
  | .completed f, hf => processFrame_delivers (hf f rfl) s

theorem takeByte_delivers {s t u : State} {b : Byte} (ht : deliversFrom s t)
    (h : takeByte Config.params b t = .next u) : deliversFrom s u := by
  obtain ⟨⟨o, v⟩, hstep, hu⟩ := (andThen_eq_next _ _ _).mp h
  cases hu
  obtain ⟨hstable, hwf, hemits⟩ := ht
  obtain ⟨hstable', hwf'⟩ := asmStep_stable hstep hstable hwf
  have hstepped : Emits deliversShape t v := by
    obtain ⟨buf, a, n, rfl⟩ := asmStep_frame hstep
    exact .of_trace_eq rfl
  have hshape : ∀ f, o = .completed f → frameShape f := by
    rintro f rfl
    exact asmStep_completed_shape hstep hstable hwf
  obtain ⟨c, es, hframe⟩ := onOutcome_frame Config.params o v
  refine ⟨?_, ?_, (hemits.trans hstepped).trans (onOutcome_delivers v hshape)⟩
  · rw [hframe]
    exact hstable'
  · rw [hframe]
    exact hwf'

/-- The records that a TASK delivers from a stable assembler have the shape: a timeout delivers none. -/
theorem runTask_delivers {s t : State} (h : runTask Config.params s = .next t)
    (hs : s.AssemblerStable Config.params) (hw : s.rxBuf.wf = true) : Emits deliversShape s t := by
  obtain ⟨u, hdrain, hdeadline⟩ := runTask_cases h
  have hbefore : deliversFrom s s := ⟨hs, hw, .of_trace_eq rfl⟩
  obtain ⟨-, -, hemits⟩ := drain_induction (Q := deliversFrom s)
    (fun _ rest v _ hv hbyte => takeByte_delivers (t := { v with rxFifo := rest }) hv hbyte) hdrain hbefore
  refine hemits.trans ?_
  cases hdeadline with
  | quiet => exact .of_trace_eq rfl
  | retransmit =>
    refine ⟨_, (transmitted_trace _ _).trans (List.append_assoc _ _ _), ?_⟩
    exact List.forall_mem_append.mpr ⟨deliversShape_errEvents _ _, by simp [deliversShape]⟩
  | abandon => exact ⟨_, rfl, deliversShape_errEvents _ _⟩

/-- Settles O41: ASMBYTE returns the outcome of one assembler step, and a drain processes the frames that its assembler
steps complete. -/
theorem completedFrameShape : Obligations.CompletedFrameShape := by
  unfold Obligations.CompletedFrameShape
  refine ⟨fun b s t f hs hw h => ?_, fun s t es k r hs h htrace hmem => ?_⟩
  · rcases h with hstep | ⟨hexec, hresults⟩
    · exact asmStep_completed_shape hstep hs hw
    · cases exec_cases hexec with
      | function _ _ _ hnot => exact absurd rfl (hnot b)
      | assembled hstep =>
        rw [State.returned, (asmStep_keeps hstep).results] at hresults
        obtain rfl : _ = AsmOutcome.completed f := by simpa using hresults
        exact asmStep_completed_shape hstep hs hw
      | host _ _ hc => cases hc
  · obtain ⟨hi, ha, u, hu, rfl⟩ := exec_task_cases h
    have hsettled := (Settled.of_inv hs hi).setOpActive true
    obtain ⟨es', heq, hall⟩ := runTask_delivers hu hsettled.stable hsettled.rxBuf_wf
    obtain rfl : es' = es := List.append_cancel_left (heq.symm.trans htrace)
    obtain ⟨⟨h7, hmax, hfirst, hlast⟩, hlen⟩ := hall _ hmem
    exact ⟨h7, hmax, hlen, hfirst, hlast⟩

end Sys2Proof
end

section
/-! PROOF. The two cursors (spec/10_state.md R35, R37): one byte of a drain commutes with a change of the fields it
neither reads nor writes, two states that differ in the cursors alone are carried by every operation into two such
states, and the obligation is assembled from that. -/

namespace Sys2Proof

open Sys2Proof.Machine

/-! ## Fields that a drain neither reads nor writes -/

/-- Another transmit cursor, FIFO and `pc`: fields that one byte of a drain neither reads nor writes
(`takeByte_carry`). -/
def carry (m : Nat → Nat) (q : List Byte → List Byte) (p : Nat → Nat) (s : State) : State :=
  { s with txCursor := m s.txCursor, rxFifo := q s.rxFifo, pc := p s.pc }

/-- A collecting assembler whose count lies outside the buffer has no byte of it to store at (R71). -/
theorem asmStep_outside {P : Params} {b : Byte} {s : State} (ha : s.asmState = .collecting)
    (hl : P.maxFrame < s.rxCount) : asmStep P b s = .fault .bufferIndex := by
  have hfits : ¬ s.rxCount + 1 ≤ P.maxFrame := by omega
  simp [asmStep, ha, Nat.ne_of_gt hl, appendByte, bufferWrite, hfits]

section
variable (P : Params) (m : Nat → Nat) (q : List Byte → List Byte) (p : Nat → Nat)

/-- An assembler step neither reads nor writes the carried fields; the receive cursor it writes without reading it. -/
theorem asmStep_carry (n : Nat) (b : Byte) (s : State) :
    asmStep P b (carry m q p { s with rxCursor := n }) =
      andThen (asmStep P b s) fun r => .next (r.1, carry m q p r.2) := by
  have hstates : s.asmState = .waitingForStart ∨ s.asmState = .collecting ∨ s.asmState = .complete := by
    cases s.asmState <;> simp
  rcases hstates with ha | ha | ha
  · simp only [asmStep, carry, ha, bufferWrite]
    split_ifs <;> rfl
  · have ha' : (carry m q p { s with rxCursor := n }).asmState = .collecting := ha
    rcases Nat.lt_trichotomy s.rxCount P.maxFrame with hl | hl | hl
    · rw [asmStep_collecting ha hl, asmStep_collecting ha' hl]
      change (if endsFrame b (s.rxCount + 1) then _ else _) = _
      split_ifs <;> rfl
    · rw [asmStep_full ha hl, asmStep_full ha' hl]
      rfl
    · rw [asmStep_outside ha hl, asmStep_outside ha' hl]
      rfl
  · simp only [asmStep, carry, ha, andThen_fault]

/-- Nor does what TASK does on an outcome. -/
theorem onOutcome_carry (o : AsmOutcome) (s : State) :
    onOutcome P o (carry m q p s) = carry m q p (onOutcome P o s) := by
  cases o with
  | none => rfl
  | overflow => simp only [onOutcome, onOverflow_eq]; rfl
  | completed f =>
    simp only [onOutcome, processFrame]
    cases detect P f with
    | none => simp only [raiseError_eq, endExchange_eq]; rfl
    | some rev =>
      simp only [deliverRecord, raiseError_eq, fireResponse_eq, endExchange_eq]
      cases checksumValid f <;> rfl

/-- Nor does one byte of a drain (R230). -/
theorem takeByte_carry (n : Nat) (b : Byte) (s : State) :
    takeByte P b (carry m q p { s with rxCursor := n }) =
      andThen (takeByte P b s) fun t => .next (carry m q p t) := by
  rw [takeByte, asmStep_carry, takeByte, andThen_assoc, andThen_assoc]
  simp only [andThen_next, onOutcome_carry]

end

/-! ## Outcomes that agree -/

/-- The two outcomes agree: next states that `R` relates, the same fault, or a refusal of both. -/
inductive Agrees {σ : Type} (R : σ → σ → Prop) :
    Host.Outcome σ Fault Refusal → Host.Outcome σ Fault Refusal → Prop
  | next {s u : σ} : R s u → Agrees R (.next s) (.next u)
  | fault (f : Fault) : Agrees R (.fault f) (.fault f)
  | refused (r r' : Refusal) : Agrees R (.refused r) (.refused r')

/-- Outcomes that agree, each followed by what takes related states to outcomes that agree, agree. -/
theorem Agrees.andThen {σ τ : Type} {R : σ → σ → Prop} {R' : τ → τ → Prop} {o o' : Host.Outcome σ Fault Refusal}
    {k k' : σ → Host.Outcome τ Fault Refusal} (h : Agrees R o o') (hk : ∀ s u, R s u → Agrees R' (k s) (k' u)) :
    Agrees R' (andThen o k) (andThen o' k') := by
  cases h with
  | next hR => exact hk _ _ hR
  | fault f => exact .fault f
  | refused r r' => exact .refused r r'

/-- One outcome, followed by two things that agree on it. -/
theorem Agrees.andThen_same {σ τ : Type} {R : τ → τ → Prop} (o : Host.Outcome σ Fault Refusal)
    {k k' : σ → Host.Outcome τ Fault Refusal} (hk : ∀ s, Agrees R (k s) (k' s)) :
    Agrees R (Machine.andThen o k) (Machine.andThen o k') := by
  cases o with
  | next s => exact hk s
  | fault f => exact .fault f
  | refused r => exact .refused r r

/-- The second state is the first with other cursors. -/
def sameButCursors (s u : State) : Prop := ∃ m n : Nat, u = { s with txCursor := m, rxCursor := n }

theorem sameButCursors.refl (s : State) : sameButCursors s s := ⟨s.txCursor, s.rxCursor, rfl⟩

/-! ## Each effect on two states that differ in the cursors alone -/

theorem takeByte_agrees {P : Params} {b : Byte} {s u : State} (h : sameButCursors s u) :
    Agrees sameButCursors (takeByte P b s) (takeByte P b u) := by
  obtain ⟨m, n, rfl⟩ := h
  have hcarry := takeByte_carry P (fun _ => m) id id n b s
  simp only [carry, id] at hcarry
  rw [hcarry]
  cases takeByte P b s with
  | next t => exact .next ⟨m, t.rxCursor, rfl⟩
  | fault f => exact .fault f
  | refused r => exact .refused r r

theorem drain_agrees {P : Params} {bs : List Byte} {s u : State} (h : sameButCursors s u) :
    Agrees sameButCursors (drain P bs s) (drain P bs u) := by
  induction bs generalizing s u with
  | nil => exact .next h
  | cons b rest ih =>
    have hbefore : sameButCursors { s with rxFifo := rest } { u with rxFifo := rest } := by
      obtain ⟨m, n, rfl⟩ := h
      exact ⟨m, n, rfl⟩
    exact (takeByte_agrees hbefore).andThen fun _ _ => ih

/-- A transmission sets both cursors (R220, R222). -/
theorem startTransmission_agrees {P : Params} {s u : State} (h : sameButCursors s u) :
    Agrees sameButCursors (startTransmission P s) (startTransmission P u) := by
  obtain ⟨m, n, rfl⟩ := h
  by_cases hl : s.txLen ≤ P.maxFrame
  · rw [startTransmission_transmitted hl,
      startTransmission_transmitted (s := { s with txCursor := m, rxCursor := n }) hl]
    exact .next (.refl _)
  · rw [startTransmission_fault P s hl, startTransmission_fault P { s with txCursor := m, rxCursor := n } hl]
    exact .fault _

theorem checkDeadline_agrees {P : Params} {s u : State} (h : sameButCursors s u) :
    Agrees sameButCursors (checkDeadline P s) (checkDeadline P u) := by
  obtain ⟨m, n, rfl⟩ := h
  simp only [checkDeadline, onTimeout, raiseError_eq]
  split_ifs
  · exact startTransmission_agrees ⟨m, n, rfl⟩
  · exact .next ⟨m, n, rfl⟩
  · exact .next ⟨m, n, rfl⟩

theorem runTask_agrees {P : Params} {s u : State} (h : sameButCursors s u) :
    Agrees sameButCursors (runTask P s) (runTask P u) := by
  have hfifo : u.rxFifo = s.rxFifo := by
    obtain ⟨m, n, rfl⟩ := h
    rfl
  rw [runTask, runTask, hfifo]
  exact (drain_agrees h).andThen fun _ _ => checkDeadline_agrees

theorem sendCommand_agrees {P : Params} {c : Byte} {d : List Byte} {s u : State} (h : sameButCursors s u) :
    Agrees sameButCursors (sendCommand P c d s) (sendCommand P c d u) := by
  obtain ⟨m, n, rfl⟩ := h
  simp only [sendCommand, rejectSend_eq]
  split_ifs
  · exact .next ⟨m, n, rfl⟩
  · cases buildFrame P c d with
    | none => exact .next ⟨m, n, rfl⟩
    | some f =>
      refine .andThen_same _ fun buf => (startTransmission_agrees ⟨m, n, rfl⟩).andThen ?_
      rintro v _ ⟨m', n', rfl⟩
      exact .next ⟨m', n', rfl⟩

/-- The effect of every host operation: those that do not transmit keep the cursors or set them. -/
theorem hostEffect_agrees (i : Instr) {s u : State} (h : sameButCursors s u) :
    Agrees sameButCursors (hostEffect i s) (hostEffect i u) := by
  cases i with
  | send a c d => exact sendCommand_agrees h
  | task => exact runTask_agrees h
  | init => obtain ⟨m, n, rfl⟩ := h; exact .next (.refl _)
  | reset => obtain ⟨m, n, rfl⟩ := h; exact .next (.refl _)
  | _ => obtain ⟨m, n, rfl⟩ := h; exact .next ⟨m, n, rfl⟩

/-! ## Every operation -/

/-- A host operation whose effect agrees on such states agrees on them: no check reads a cursor. -/
theorem hostOpAlways_agrees {effect : State → Answer} {s u : State} (h : sameButCursors s u)
    (he : ∀ t v, sameButCursors t v → Agrees sameButCursors (effect t) (effect v)) :
    Agrees sameButCursors (hostOpAlways s effect) (hostOpAlways u effect) := by
  obtain ⟨m, n, rfl⟩ := h
  simp only [hostOpAlways]
  split_ifs
  · exact .fault _
  · refine (he _ _ ⟨m, n, rfl⟩).andThen ?_
    rintro t _ ⟨m', n', rfl⟩
    exact .next ⟨m', n', rfl⟩

theorem exec_host_agrees {i : Instr} (hi : isHostOp i = true) {s u : State} (h : sameButCursors s u) :
    Agrees sameButCursors (exec i s) (exec i u) := by
  by_cases hne : i = .init
  · rw [hne, exec_init_eq_hostOpAlways, exec_init_eq_hostOpAlways]
    exact hostOpAlways_agrees h fun _ _ => hostEffect_agrees .init
  · rw [exec_eq_hostOp hi hne, exec_eq_hostOp hi hne, hostOp, hostOp]
    refine hostOpAlways_agrees h fun t v htv => ?_
    have hinit : v.initialised = t.initialised := by
      obtain ⟨m, n, rfl⟩ := htv
      rfl
    rw [hinit]
    split_ifs
    · exact hostEffect_agrees i htv
    · exact .fault _

theorem exec_asmbyte_agrees (b : Byte) {s u : State} (h : sameButCursors s u) :
    Agrees sameButCursors (exec (.asmbyte b) s) (exec (.asmbyte b) u) := by
  obtain ⟨m, n, rfl⟩ := h
  have hcarry := asmStep_carry Config.params (fun _ => m) id id n b s
  simp only [carry, id] at hcarry
  simp only [exec, execAsmbyte, hcarry, andThen_assoc, andThen_next]
  exact .andThen_same _ fun r => .next ⟨m, r.2.rxCursor, rfl⟩

/-- Every operation takes two states that differ in the cursors alone to such states, or stops on both alike. -/
theorem exec_agrees (i : Instr) {s u : State} (h : sameButCursors s u) :
    Agrees sameButCursors (exec i s) (exec i u) := by
  cases hhost : isHostOp i with
  | true => exact exec_host_agrees hhost h
  | false =>
    obtain rfl | ⟨b, rfl⟩ | ⟨b, rfl⟩ | ⟨r, sb, v, rfl, hr⟩ | ⟨-, res, hres⟩ := nonHost_cases hhost
    · obtain ⟨m, n, rfl⟩ := h
      exact .next ⟨m, n, rfl⟩
    · obtain ⟨m, n, rfl⟩ := h
      simp only [exec_rxpush, receiveByte]
      split_ifs <;> exact .next ⟨m, n, rfl⟩
    · exact exec_asmbyte_agrees b h
    · rw [exec_status_refused sb v s hr, exec_status_refused sb v u hr]
      exact .fault _
    · obtain ⟨m, n, rfl⟩ := h
      rw [hres, hres]
      exact .next ⟨m, n, rfl⟩

/-- Settles O19: the second state starts as the first with other cursors, and no operation undoes that. -/
theorem cursorsAffectNoOutput : Obligations.CursorsAffectNoOutput := by
  unfold Obligations.CursorsAffectNoOutput
  intro i s m n
  have hagrees : Agrees sameButCursors (exec i s) (exec i { s with txCursor := m, rxCursor := n }) :=
    exec_agrees i ⟨m, n, rfl⟩
  revert hagrees
  generalize exec i s = o
  generalize exec i { s with txCursor := m, rxCursor := n } = o'
  intro hagrees
  cases hagrees with
  | next h =>
    obtain ⟨m', n', rfl⟩ := h
    rfl
  | fault f => rfl
  | refused r r' => trivial

end Sys2Proof
end

section
/-! PROOF. The tick comparison and TASK over whole frames, over parts of the received bytes and over four timeouts
(spec/10_state.md R43, spec/42_protocol_engine.md R200, R230 to R239, spec/41_receive_assembler.md R170). -/

namespace Sys2Proof

open Sys2Proof.Machine

/-! ## The tick comparison -/

/-- A deadline is elapsed in the half of the circle from it on (R43). -/
theorem elapsed_iff (now dl : Word32) : elapsed now dl = true ↔ (now - dl).toNat < 2 ^ 31 :=
  decide_eq_true_iff

/-- A timeout is less than half of the circle (spec/00_scope.md R11). -/
theorem timeoutMs_lt : Config.params.timeoutMs < 2 ^ 31 := params_legal.2.2.1.2

/-- Settles O27: the difference of two ticks is taken mod 2^32, and a timeout is less than half of that. -/
theorem elapsedIsWrapAware : Obligations.ElapsedIsWrapAware := by
  unfold Obligations.ElapsedIsWrapAware
  constructor
  · intro now dl
    have hdl := dl.isLt
    rw [elapsed_iff, BitVec.toNat_sub, show 2 ^ 32 - dl.toNat + now.toNat = now.toNat + 2 ^ 32 - dl.toNat by omega]
  · intro t k hk
    have hhalf := timeoutMs_lt
    have hT : Config.params.timeoutMs < 2 ^ 32 := by omega
    have hcancel : t + BitVec.ofNat 32 k - (t + BitVec.ofNat 32 Config.params.timeoutMs) =
        BitVec.ofNat 32 k - BitVec.ofNat 32 Config.params.timeoutMs := add_sub_add_left_eq_sub _ _ t
    rw [elapsed_iff, hcancel, BitVec.toNat_sub, BitVec.toNat_ofNat, BitVec.toNat_ofNat, Nat.mod_eq_of_lt hk,
      Nat.mod_eq_of_lt hT]
    omega

/-! ## TASK with no timeout -/

/-- No timeout where no exchange is outstanding or its deadline is not elapsed (R231). -/
theorem checkDeadline_quiet {P : Params} {s : State}
    (h : ¬ (s.engState = .waitingForResponse ∧ (s.tick - s.deadline).toNat < 2 ^ 31)) : checkDeadline P s = .next s :=
  if_neg (by rwa [elapsed_iff])

/-- A TASK whose drain finishes nothing, and which then finds no elapsed deadline, leaves what the drain left. -/
theorem exec_task_quiet {s : State} {n : Nat} {noise rest : List Byte} (hr : s.Ready) (hf : s.rxFifo = noise ++ rest)
    (hu : s.rxFifo = [] ∨ s.Unfinished Config.params n noise rest)
    (h : ¬ (s.engState = .waitingForResponse ∧ (s.tick - s.deadline).toNat < 2 ^ 31)) :
    exec .task s = .next { drained s n rest with pc := s.pc + 1 } := by
  have hrun : runTask Config.params { s with opActive := true } =
      .next (drained { s with opActive := true } n rest) := by
    rw [runTask, drain_fifo_unfinished (s := { s with opActive := true }) hf hu, andThen_next]
    exact checkDeadline_quiet h
  have htask := exec_task hr hrun
  exact htask

/-- Settles O28: an empty FIFO drains to the same state. -/
theorem quietTaskChangesNothing : Obligations.QuietTaskChangesNothing := by
  unfold Obligations.QuietTaskChangesNothing
  intro s hr he h
  have htask := exec_task_quiet (n := 0) (noise := []) (rest := []) hr he (.inl he) h
  rwa [drained_nil 0 he] at htask

/-- Settles O60: the state the drain leaves is the one named, its FIFO not having been empty. -/
theorem unfinishedBytesAreStored : Obligations.UnfinishedBytesAreStored := by
  unfold Obligations.UnfinishedBytesAreStored
  intro s n noise rest hr hf hne hu hwf h
  have htask := exec_task_quiet hr hf (.inr hu) h
  simp only [drained, if_neg hne] at htask
  exact ⟨s.rxBuf.writeBytes n rest, storedFrom_writeBytes _ _ _ hwf, htask⟩

/-! ## A whole frame -/

/-- Reading back a sequence stored after the first `n` bytes. -/
theorem readBytes_writeBytes_append (m : Memory) (n : Nat) (bs : List Byte) (h : m.wf = true) :
    (m.writeBytes n bs).readBytes (n + bs.length) = m.readBytes n ++ bs := by
  induction bs generalizing m n with
  | nil => exact (List.append_nil _).symm
  | cons b bs ih =>
    rw [Memory.writeBytes, List.length_cons, Nat.add_comm bs.length 1, ← Nat.add_assoc,
      ih _ _ (Memory.write_wf m n b h), readBytes_succ_write m n b h, List.append_assoc]
    rfl

/-- The buffer after the bytes `rest` and an end sentinel were stored from index `n` on. -/
def framedBuffer (m : Memory) (n : Nat) (rest : List Byte) : Memory :=
  (m.writeBytes n rest).write (n + rest.length) rspEnd

/-- Up to the end sentinel it holds the frame. -/
theorem framedBuffer_readBytes {m : Memory} (n : Nat) (rest : List Byte) (h : m.wf = true) :
    (framedBuffer m n rest).readBytes (n + rest.length + 1) = m.readBytes n ++ rest ++ [rspEnd] := by
  rw [framedBuffer, readBytes_succ_write _ _ _ (Memory.writeBytes_wf m n rest h),
    readBytes_writeBytes_append m n rest h]

/-- Index by index: the frame, then what the buffer held. -/
theorem framedBuffer_read {m : Memory} {n : Nat} {rest f : List Byte} (h : m.wf = true)
    (hf : f = m.readBytes n ++ rest ++ [rspEnd]) (k : Nat) :
    (framedBuffer m n rest).read k = if k < f.length then f.getD k 0 else m.read k := by
  have hlen : f.length = n + rest.length + 1 := by
    rw [hf, List.length_append, List.length_append, Memory.readBytes_length, List.length_singleton]
  rw [hlen]
  split_ifs with hk
  · rw [hf, ← framedBuffer_readBytes n rest h, Memory.readBytes_getD _ _ _ hk]
  · rw [framedBuffer, Memory.read_write_other _ _ _ _ (Memory.writeBytes_wf m n rest h) (by omega),
      Memory.read_writeBytes m n k rest h, if_neg (by omega)]

/-- The drain of the last bytes of a frame, or of all of it: the frame is processed from a waiting assembler (R165,
R167, R230). -/
theorem drain_frame_end {P : Params} {s : State} {n : Nat} {noise rest f : List Byte} (hw : s.rxBuf.wf = true)
    (hu : s.Unfinished P n noise rest) (hf : f = s.rxBuf.readBytes n ++ rest ++ [rspEnd]) (h7 : 7 ≤ f.length)
    (hmax : f.length ≤ P.maxFrame) :
    drain P (noise ++ rest ++ [rspEnd]) s = .next (processFrame P f
      { s with
        rxFifo := []
        rxBuf := framedBuffer s.rxBuf n rest
        asmState := .waitingForStart
        rxCount := 0
        rxCursor := 0 }) := by
  have hlen : f.length = n + rest.length + 1 := by
    rw [hf, List.length_append, List.length_append, Memory.readBytes_length, List.length_singleton]
  have hroom : n + rest.length < P.maxFrame := by omega
  have hend : minEndCount < n + rest.length + 1 := by
    rw [minEndCount]
    omega
  rw [hf, ← framedBuffer_readBytes n rest hw]
  by_cases hrest : rest = []
  · subst hrest
    obtain ⟨-, -, ⟨ha, rfl, rfl⟩ | ⟨-, -, rfl, -⟩⟩ := hu
    · exact congrArg (andThen · (drain P [])) (takeByte_complete (s := { s with rxFifo := [] }) ha hroom hend)
    · simp [minEndCount] at hend
  · have htake := takeByte_complete (P := P)
      (s := { s with
        rxFifo := []
        rxBuf := s.rxBuf.writeBytes n rest
        asmState := .collecting
        rxCount := n + rest.length
        rxCursor := n + rest.length }) rfl hroom hend
    rw [drain_unfinished hu (by simp [hrest]), drain_cons]
    simp only [if_neg hrest]
    rw [htake]
    rfl

/-- Settles O32: the processed frame ends an outstanding exchange, so the deadline is not looked at. -/
theorem wholeFrameIsHandled : Obligations.WholeFrameIsHandled := by
  unfold Obligations.WholeFrameIsHandled
  intro s n noise rest f hr he hw hfifo hu hf h7 hmax
  have hidle : (if s.engState = .waitingForResponse then .idle else s.engState) = EngState.idle := by
    rcases he with he | he <;> simp [he]
  obtain ⟨e, es, hprocess, hcase⟩ := processFrame_eq Config.params f
    { s with
      opActive := true
      rxFifo := []
      rxBuf := framedBuffer s.rxBuf n rest
      asmState := .waitingForStart
      rxCount := 0
      rxCursor := 0 }
  simp only [hidle] at hprocess
  have hdrain := drain_frame_end (s := { s with opActive := true }) hw hu hf h7 hmax
  rw [hprocess] at hdrain
  have hrun : runTask Config.params { s with opActive := true } = _ :=
    congrArg (andThen · (checkDeadline Config.params)) ((congrArg (drain _ · _) hfifo).trans hdrain)
  have htask := exec_task hr (hrun.trans (checkDeadline_idle rfl))
  exact ⟨framedBuffer s.rxBuf n rest, e, es, framedBuffer_read hw hf, hcase, htask⟩

/-! ## The received bytes in parts -/

/-- One byte of a drain does not depend on the FIFO it leaves behind (R230). -/
theorem takeByte_setFifo (P : Params) (b : Byte) (q : List Byte) (s : State) :
    takeByte P b { s with rxFifo := q } = andThen (takeByte P b s) fun t => .next { t with rxFifo := q } :=
  takeByte_carry P id (fun _ => q) id s.rxCursor b s

/-- Draining a string is draining a first part and then the rest (R170). -/
theorem drain_append (P : Params) (xs ys : List Byte) (s : State) :
    drain P (xs ++ ys) { s with rxFifo := xs ++ ys } =
      andThen (drain P xs { s with rxFifo := xs }) fun t => drain P ys { t with rxFifo := ys } := by
  induction xs generalizing s with
  | nil => rfl
  | cons b xs ih =>
    simp only [List.cons_append, drain_cons, takeByte_setFifo P b (xs ++ ys) s, takeByte_setFifo P b xs s,
      andThen_assoc, andThen_next, ih]

/-- A drain neither reads nor writes `pc`. -/
theorem drain_setPc (P : Params) (bs : List Byte) (p : Nat) (s : State) :
    drain P bs { s with pc := p } = andThen (drain P bs s) fun t => .next { t with pc := p } := by
  induction bs generalizing s with
  | nil => rfl
  | cons b bs ih =>
    have hbyte := takeByte_carry P id id (fun _ => p) s.rxCursor b { s with rxFifo := bs }
    simp only [carry, id] at hbyte
    simp only [drain_cons, hbyte, andThen_assoc, andThen_next, ih]

/-- Nor does the deadline test. -/
theorem checkDeadline_setPc (P : Params) (p : Nat) (s : State) :
    checkDeadline P { s with pc := p } = andThen (checkDeadline P s) fun t => .next { t with pc := p } := by
  simp only [checkDeadline, onTimeout, raiseError_eq, startTransmission, bufferRead, bufferReset_txLen]
  split_ifs <;> rfl

/-- Nor does TASK. -/
theorem runTask_setPc (P : Params) (p : Nat) (s : State) :
    runTask P { s with pc := p } = andThen (runTask P s) fun t => .next { t with pc := p } := by
  simp only [runTask, drain_setPc, andThen_assoc, andThen_next, checkDeadline_setPc]

/-- A drain that starts with no exchange outstanding ends with none. -/
theorem drain_idle {P : Params} {bs : List Byte} {s t : State} (h : drain P bs s = .next t) (hi : s.engState = .idle) :
    t.engState = .idle := by
  refine drain_induction (Q := fun u => u.engState = .idle) (fun b rest u v hu hv => ?_) h hi
  obtain ⟨buf, a, n, e, es, g, c, rfl, ⟨rfl, -⟩ | ⟨-, rfl, -⟩⟩ := takeByte_frame hv
  · exact hu
  · rfl

/-- A byte after which a waiting engine still waits finished nothing. -/
theorem takeByte_still_waiting {P : Params} {b : Byte} {s t : State} (h : takeByte P b s = .next t)
    (ht : t.engState = .waitingForResponse) : AsmCase P b s .none t := by
  obtain ⟨⟨o, u⟩, hstep, hu⟩ := (andThen_eq_next _ _ _).mp h
  cases hu
  obtain ⟨e, es, hframe⟩ := onOutcome_frame P o u
  simp only [hframe] at ht
  split_ifs at ht with hend
  obtain rfl : o = .none := not_not.mp fun hne => hend ⟨ht, hne⟩
  exact asmStep_cases hstep

/-- The first byte of a drain after which a waiting engine still waits finished nothing, and the engine waited on. -/
theorem drain_still_waiting {P : Params} {b : Byte} {bs : List Byte} {s t : State} (h : drain P (b :: bs) s = .next t)
    (hs : s.engState = .waitingForResponse) (ht : t.engState = .waitingForResponse) :
    ∃ u, AsmCase P b { s with rxFifo := bs } .none u ∧ u.engState = .waitingForResponse ∧
      drain P bs u = .next t := by
  obtain ⟨u, hbyte, hrest⟩ := (andThen_eq_next _ _ _).mp h
  have hu : u.engState = .waitingForResponse := by
    obtain ⟨buf, a, n, e, es, g, c, rfl, ⟨rfl, -⟩ | ⟨-, rfl, -⟩⟩ := takeByte_frame hbyte
    · exact hs
    · rw [drain_idle hrest rfl] at ht
      cases ht
  exact ⟨u, takeByte_still_waiting hbyte hu, hu, hrest⟩

/-- What a collecting assembler took without finishing the frame fits and does not end it (R163 to R166). -/
theorem collecting_of_still_waiting {P : Params} {bs : List Byte} {s t : State} (h : drain P bs s = .next t)
    (hs : s.engState = .waitingForResponse) (ht : t.engState = .waitingForResponse) (ha : s.asmState = .collecting)
    (hl : s.rxCount ≤ P.maxFrame) :
    s.rxCount + bs.length ≤ P.maxFrame ∧ ∀ k, bs.getD k 0 = rspEnd → s.rxCount + k < minEndCount := by
  induction bs generalizing s with
  | nil => exact ⟨hl, fun k hk => by simp [rspEnd] at hk⟩
  | cons b bs ih =>
    obtain ⟨u, hcase, hu, hrest⟩ := drain_still_waiting h hs ht
    cases hcase with
    | skip hw => exact AsmState.noConfusion (ha.symm.trans hw)
    | start hw => exact AsmState.noConfusion (ha.symm.trans hw)
    | append _ hroom hnot =>
      obtain ⟨hfits, hends⟩ := ih hrest hu rfl hroom
      refine ⟨?_, fun k hk => ?_⟩
      · rw [List.length_cons]
        exact (Nat.add_right_comm s.rxCount _ 1).trans_le hfits
      · cases k with
        | zero =>
          by_contra hcount
          exact hnot ⟨hk, Nat.lt_succ_of_le (Nat.not_lt.mp hcount)⟩
        | succ k => exact (Nat.add_right_comm s.rxCount k 1).trans_lt (hends k hk)

/-- What a waiting assembler took without finishing a frame is noise, then the bytes of a frame (R160, R161). -/
theorem waiting_of_still_waiting {P : Params} {bs : List Byte} {s t : State} (h : drain P bs s = .next t)
    (hs : s.engState = .waitingForResponse) (ht : t.engState = .waitingForResponse)
    (ha : s.asmState = .waitingForStart) :
    ∃ noise rest, bs = noise ++ rest ∧ s.Unfinished P 0 noise rest := by
  induction bs generalizing s with
  | nil =>
    exact ⟨[], [], rfl, Nat.zero_le _, fun k hk => by simp [rspEnd] at hk, .inr ⟨ha, by simp, rfl, .inl rfl⟩⟩
  | cons b bs ih =>
    obtain ⟨u, hcase, hu, hrest⟩ := drain_still_waiting h hs ht
    cases hcase with
    | skip _ hb =>
      obtain ⟨noise, rest, rfl, hfits, hends, hwhere⟩ := ih hrest hu ha
      obtain ⟨hc, -⟩ | ⟨-, hnoise, -, hbegins⟩ := hwhere
      · exact AsmState.noConfusion (ha.symm.trans hc)
      · exact ⟨b :: noise, rest, rfl, hfits, hends,
          .inr ⟨ha, List.not_mem_cons_of_ne_of_not_mem (Ne.symm hb) hnoise, rfl, hbegins⟩⟩
    | start _ hb hm =>
      obtain ⟨hfits, hends⟩ := collecting_of_still_waiting hrest hu ht rfl hm
      refine ⟨[], b :: bs, rfl, ?_, fun k hk => ?_, .inr ⟨ha, by simp, rfl, .inr hb⟩⟩
      · rw [List.length_cons, Nat.zero_add, Nat.add_comm]
        exact hfits
      · cases k with
        | zero => decide
        | succ k =>
          rw [Nat.zero_add, Nat.add_comm]
          exact hends k hk
    | append hc => exact AsmState.noConfusion (ha.symm.trans hc)

/-- What a drain took without ending an outstanding exchange finishes no frame and overflows nothing. -/
theorem unfinished_of_still_waiting {P : Params} {bs : List Byte} {s t : State} (h : drain P bs s = .next t)
    (hs : s.engState = .waitingForResponse) (ht : t.engState = .waitingForResponse) (hne : bs ≠ []) :
    ∃ n noise rest, bs = noise ++ rest ∧ s.Unfinished P n noise rest := by
  obtain ⟨b, bs, rfl⟩ := List.exists_cons_of_ne_nil hne
  obtain ⟨u, hcase, hu, hrest⟩ := drain_still_waiting h hs ht
  by_cases ha : s.asmState = .collecting
  · cases hcase with
    | skip hw => exact AsmState.noConfusion (ha.symm.trans hw)
    | start hw => exact AsmState.noConfusion (ha.symm.trans hw)
    | append _ hroom =>
      obtain ⟨hfits, hends⟩ := collecting_of_still_waiting h hs ht ha (Nat.le_of_lt hroom)
      exact ⟨s.rxCount, [], b :: bs, rfl, hfits, hends, .inl ⟨ha, rfl, rfl⟩⟩
  · have hw : s.asmState = .waitingForStart := by
      cases hcase with
      | skip hw => exact hw
      | start hw => exact hw
      | append hc => exact absurd hc ha
    obtain ⟨noise, rest, heq, hunf⟩ := waiting_of_still_waiting h hs ht hw
    exact ⟨0, noise, rest, heq, hunf⟩

/-- A TASK's drain leaves no elapsed deadline of an outstanding exchange, where there was none or the drained bytes end
the exchange (R231, R237, R238). -/
theorem no_timeout_after_drain {P : Params} {xs : List Byte} {s t : State} (h : drain P xs s = .next t)
    (hfifo : s.rxFifo = xs)
    (hno : ¬ (s.engState = .waitingForResponse ∧ (s.tick - s.deadline).toNat < 2 ^ 31 ∧
      (xs = [] ∨ ∃ n noise rest, xs = noise ++ rest ∧ s.Unfinished P n noise rest))) :
    ¬ (t.engState = .waitingForResponse ∧ (t.tick - t.deadline).toNat < 2 ^ 31) := by
  rintro ⟨ht, helapsed⟩
  have hs : s.engState = .waitingForResponse := by
    obtain ⟨_, _, _, _, _, _, g, _, rfl, ⟨rfl, -⟩ | ⟨hw, -, -⟩⟩ := drain_frame h fun he => hfifo.trans he
    · exact ht
    · exact hw
  have hticks : t.tick = s.tick ∧ t.deadline = s.deadline := by
    obtain ⟨_, _, _, _, _, _, _, _, rfl, -⟩ := drain_frame h fun he => hfifo.trans he
    exact ⟨rfl, rfl⟩
  rw [hticks.1, hticks.2] at helapsed
  by_cases hne : xs = []
  · exact hno ⟨hs, helapsed, .inl hne⟩
  · exact hno ⟨hs, helapsed, .inr (unfinished_of_still_waiting h hs ht hne)⟩

/-- Setting the flag of an operation in progress to the value it has changes nothing. -/
theorem setOpActive_eq_self {s : State} {a : Bool} (h : s.opActive = a) : { s with opActive := a } = s := by
  subst h
  rfl

/-- Settles O34: the first TASK takes no timeout, so the second starts where the drain of the first part ended, and
the two drains are one. -/
theorem fragmentationMakesNoDifference : Obligations.FragmentationMakesNoDifference := by
  unfold Obligations.FragmentationMakesNoDifference
  intro s t u xs ys hr hno h1 h2
  obtain ⟨-, -, v, hv, ht⟩ := exec_task_cases h1
  obtain ⟨-, -, x, hx, hu⟩ := exec_task_cases h2
  obtain ⟨w, hdrain, hdeadline⟩ := (andThen_eq_next _ _ _).mp hv
  obtain rfl : w = v := by
    rw [checkDeadline_quiet (no_timeout_after_drain hdrain rfl hno)] at hdeadline
    cases hdeadline
    rfl
  have hkeeps := drain_keeps hdrain
  rw [ht] at hx
  have hsecond := (congrArg (runTask Config.params)
    (setOpActive_eq_self (s := { w with rxFifo := ys, pc := w.pc + 1 }) hkeeps.opActive)).symm.trans hx
  rw [runTask_setPc Config.params (w.pc + 1) { w with rxFifo := ys }] at hsecond
  obtain ⟨y, hy, hxy⟩ := (andThen_eq_next _ _ _).mp hsecond
  cases hxy
  have hwhole : runTask Config.params { s with rxFifo := xs ++ ys, opActive := true } = .next y := by
    rw [runTask, drain_append Config.params xs ys { s with opActive := true }, hdrain, andThen_next]
    exact hy
  have htask := exec_task (s := { s with rxFifo := xs ++ ys }) hr hwhole
  have hpc : y.pc = s.pc := (runTask_keeps hy).pc.trans hkeeps.pc
  rw [htask, hu, hpc, hr.2]

end Sys2Proof
end

section
/-! PROOF. An exchange that is never answered (spec/42_protocol_engine.md R233): what each of its operations leaves for
the next one, and the obligation assembled from that. -/

namespace Sys2Proof

open Sys2Proof.Machine

/-- An exchange is outstanding whose stored frame is `frame`, after `n` retries, nothing having been received; errors
are reported to `slot`. -/
structure Outstanding (s : State) (frame : List Byte) (slot : Option Byte) (n : Nat) : Prop where
  ready : s.Ready
  waiting : s.engState = .waitingForResponse
  fifo : s.rxFifo = []
  stored : s.txBuf.readBytes s.txLen = frame
  fits : s.txLen ≤ Config.params.maxFrame
  slot : s.errCb = slot
  retries : s.retryCount.toNat = n

/-- The events of a transmission of a frame (R222). -/
def sendEvents (frame : List Byte) : List Event := [.preamble Config.params.preambleMs, .tx frame]

/-- An accepted SEND leaves an exchange outstanding, no retry made yet (R203). -/
theorem send_outstanding {a c : Byte} {d : List Byte} {s t : State} (hr : s.Ready) (hi : s.engState = .idle)
    (hw : s.txBuf.wf = true) (hd : d.length ≤ Config.params.maxFrame - 4) (h : exec (.send a c d) s = .next t) :
    Outstanding t (commandFrame c d) s.errCb 0 ∧ t.trace = s.trace ++ sendEvents (commandFrame c d) := by
  have hm : 4 ≤ Config.params.maxFrame := le_trans (by decide) maxFrame_ge
  have hread : (s.txBuf.writeBytes 0 (commandFrame c d)).readBytes (4 + d.length) = commandFrame c d := by
    simpa using Memory.readBytes_writeBytes s.txBuf (commandFrame c d) hw
  have hsend := exec_hostOp_completes (.send a c d) rfl nofun hr (sendCommand_accepted hi hw hd hm)
  rw [hsend] at h
  cases h
  exact ⟨⟨hr, rfl, rfl, hread, by show 4 + d.length ≤ _; omega, rfl, rfl⟩, rfl⟩

/-- A TASK that finds the deadline of an exchange with retries left elapsed sends the stored frame again (R234). -/
theorem timeout_outstanding {s t : State} {frame : List Byte} {slot : Option Byte} {n : Nat} {τ : Word32}
    (h : Outstanding s frame slot n) (hn : n < 3) (hτ : (τ - s.deadline).toNat < 2 ^ 31)
    (ht : exec .task { s with tick := τ } = .next t) :
    Outstanding t frame slot (n + 1) ∧ t.trace = s.trace ++ errEvents slot .timeout ++ sendEvents frame := by
  obtain ⟨hr, hw, hfifo, hstored, hfits, hslot, hretries⟩ := h
  obtain ⟨δ, buf, -, htask⟩ := timeoutRetransmits { s with tick := τ } 0 [] [] hr hw hfifo (.inl hfifo)
    (absurd rfl) hτ (hretries.trans_lt hn) hfits
  rw [htask] at ht
  cases ht
  have hretry : (s.retryCount + 1).toNat = n + 1 := by
    rw [← hretries]
    bv_omega
  exact ⟨⟨hr, hw, rfl, hstored, hfits, hslot, hretry⟩, by simp only [hstored, hslot, sendEvents]⟩

/-- A TASK that finds the deadline of an exchange with no retry left elapsed abandons it (R235). -/
theorem timeout_abandons {s t : State} {frame : List Byte} {slot : Option Byte} {τ : Word32}
    (h : Outstanding s frame slot 3) (hτ : (τ - s.deadline).toNat < 2 ^ 31)
    (ht : exec .task { s with tick := τ } = .next t) :
    t.trace = s.trace ++ errEvents slot .timeout ∧ t.engState = .idle ∧ t.retryCount = 0 ∧
      t.lastError = .timeout := by
  obtain ⟨hr, hw, hfifo, -, -, hslot, hretries⟩ := h
  obtain ⟨buf, -, htask⟩ := lastTimeoutAbandons { s with tick := τ } 0 [] [] hr hw hfifo (.inl hfifo) (absurd rfl) hτ
    hretries.ge
  rw [htask] at ht
  cases ht
  exact ⟨by simp only [hslot], rfl, rfl, rfl⟩

/-- Settles O35: the SEND leaves the exchange with no retry made, three timeouts each send the same frame once more, and
the fourth finds no retry left. -/
theorem unansweredExchangeSendsFourTimes : Obligations.UnansweredExchangeSendsFourTimes := by
  unfold Obligations.UnansweredExchangeSendsFourTimes
  intro a c d s0 s1 s2 s3 s4 s5 τ1 τ2 τ3 τ4 hr hi hw hd hsend hτ1 h1 hτ2 h2 hτ3 h3 hτ4 h4
  obtain ⟨out1, htrace1⟩ := send_outstanding hr hi hw hd hsend
  obtain ⟨out2, htrace2⟩ := timeout_outstanding out1 (by decide) hτ1 h1
  obtain ⟨out3, htrace3⟩ := timeout_outstanding out2 (by decide) hτ2 h2
  obtain ⟨out4, htrace4⟩ := timeout_outstanding out3 (by decide) hτ3 h3
  obtain ⟨htrace5, hidle, hretry, herror⟩ := timeout_abandons out4 hτ4 h4
  exact ⟨commandFrame c d, htrace1, htrace2, htrace3, htrace4, htrace5, hidle, hretry, herror⟩

end Sys2Proof
end

section
/-! PROOF. A frame without an end sentinel (spec/41_receive_assembler.md R171): ASMBYTE over bytes that fit and do not
end a frame, and the obligation assembled from it. -/

namespace Sys2Proof

open Sys2Proof.Machine

/-- Feeding a collecting assembler bytes that fit and do not end the frame counts them (R164, R166). -/
theorem feed_collecting {bs : List Byte} {s : State} (ha : s.asmState = .collecting)
    (hl : s.rxCount + bs.length ≤ Config.params.maxFrame) (hb : ∀ k, bs.getD k 0 = 0x16 → s.rxCount + k + 1 < 7) :
    ∃ u, feed bs s = .next u ∧ u.asmState = .collecting ∧ u.rxCount = s.rxCount + bs.length := by
  induction bs generalizing s with
  | nil => exact ⟨s, rfl, ha, rfl⟩
  | cons b bs ih =>
    rw [List.length_cons] at hl
    have hnot : ¬ endsFrame b (s.rxCount + 1) = true := fun he => by
      obtain ⟨hend, hcount⟩ := (endsFrame_iff _ _).mp he
      exact absurd (hb 0 hend) (Nat.not_lt.mpr hcount)
    have hstep := asmStep_collecting (b := b) ha (by omega : s.rxCount < Config.params.maxFrame)
    rw [if_neg hnot] at hstep
    obtain ⟨u, hfeed, hu, hcount⟩ := ih
      (s := (setAssembler .collecting (s.rxCount + 1) { s with rxBuf := s.rxBuf.write s.rxCount b }).returned
        (.assembled .none)) rfl
      (by show s.rxCount + 1 + bs.length ≤ _; omega)
      (fun k hk => by have := hb (k + 1) hk; show s.rxCount + 1 + k + 1 < 7; omega)
    refine ⟨u, ?_, hu, hcount.trans ?_⟩
    · rw [feed, exec_asmbyte hstep, andThen_next, hfeed]
    · show s.rxCount + 1 + bs.length = _
      rw [List.length_cons]
      omega

/-- Settles O42: the start sentinel counts as one byte, the rest fill the buffer, and a full buffer loses any byte. -/
theorem overlongFrameOverflows : Obligations.OverlongFrameOverflows := by
  unfold Obligations.OverlongFrameOverflows
  intro s bs ha _ hlen hb
  have hm := maxFrame_pos
  obtain ⟨u, hfeed, hu, hcount⟩ := feed_collecting (bs := bs)
    (s := (setAssembler .collecting 1 { s with rxBuf := s.rxBuf.write 0 rspStart }).returned (.assembled .none)) rfl
    (by show 1 + bs.length ≤ _; omega) (fun k hk => by have := hb k hk; show 1 + k + 1 < 7; omega)
  have hfull : u.rxCount = Config.params.maxFrame := hcount.trans (by show 1 + bs.length = _; omega)
  have hstart := exec_asmbyte (asmStep_start ha hm)
  refine ⟨u, ?_, hu, hfull, fun b => ⟨_, exec_asmbyte (asmStep_full hu hfull), rfl, rfl, rfl⟩⟩
  exact (congrArg (andThen · (feed bs)) hstart).trans hfeed

end Sys2Proof
end

section
/-! PROOF. BUILD and the command frame (spec/40_frame_builder.md R142, R143, R145, spec/30_encoding.md R101): when a
frame is built, that a string begins with at most one, and the obligations assembled from them. -/

namespace Sys2Proof

open Sys2Proof.Machine

/-- Settles O44: the built frame ends with the checksum of the bytes before it, which cancels it. -/
theorem buildMakesCommandFrame : Obligations.BuildMakesCommandFrame := by
  unfold Obligations.BuildMakesCommandFrame
  intro c d s
  refine ⟨fun hd => ⟨xor8 (frameBody c d), ?_, xor8_append_xor8 (frameBody c d)⟩, fun hd => ?_⟩
  · rw [exec_build, buildFrame_commandFrame hd]
    rfl
  · rw [exec_build, buildFrame_none _ c d hd]

/-- A built frame is the command frame, and its payload fits the one-byte count (R143). -/
theorem buildFrame_eq_some {c : Byte} {d f : List Byte} (h : buildFrame Config.params c d = some f) :
    f = commandFrame c d ∧ payloadFits d := by
  unfold buildFrame at h
  split_ifs at h with hd
  cases h
  have hbound : d.length ≤ Config.params.maxFrame - 4 := of_decide_eq_true hd
  have hmax := maxFrame_le
  exact ⟨rfl, by show d.length ≤ 255; omega⟩

/-- Settles O45: the command code and the count stand before the payload, so they agree first; the count fixes where
the payload ends. -/
theorem commandFramesAreUnambiguous : Obligations.CommandFramesAreUnambiguous := by
  unfold Obligations.CommandFramesAreUnambiguous
  intro c c' d d' f f' rest rest' hf hf' heq
  obtain ⟨rfl, hd⟩ := buildFrame_eq_some hf
  obtain ⟨rfl, hd'⟩ := buildFrame_eq_some hf'
  simp only [commandFrame, frameBody, List.cons_append, List.append_assoc, List.cons.injEq, true_and] at heq
  obtain ⟨hc, hcount, htail⟩ := heq
  have hlen : d.length = d'.length := by
    rw [← Laws.payloadCount_toNat d hd, ← Laws.payloadCount_toNat d' hd']
    exact congrArg BitVec.toNat hcount
  obtain ⟨hpayload, hlast⟩ := List.append_inj htail hlen
  exact ⟨hc, hpayload, List.tail_eq_of_cons_eq hlast⟩

end Sys2Proof
end

section
/-! PROOF. VALIDATE, SUM8 and CKSUM (spec/43_version_detector.md R252 to R254), the marker byte (R261) and the status
byte (spec/44_field_decoder.md R298): the layout that validation accepts, the sums as numbers, which bits the decoded
fields show, and the obligations assembled from them. -/

namespace Sys2Proof

open Sys2Proof.Machine

/-! ## The response layout -/

/-- The response layout of spec/30_encoding.md R110. -/
def responseFrame (l ck : Byte) (body : List Byte) : List Byte := [0x68, l, l, 0x68] ++ body ++ [ck, 0x16]

/-- The last byte of a sequence that ends with two given ones. -/
theorem byteAt_append_last (xs : List Byte) (ck last : Byte) :
    byteAt (xs ++ [ck, last]) ((xs ++ [ck, last]).length - 1) = last := by
  simp [byteAt, List.getD_eq_getElem?_getD]

/-- A sequence of the layout with `L` in range is valid (R252). -/
theorem validate_responseFrame {P : Params} {l ck : Byte} {body : List Byte} (hbody : body.length = l.toNat)
    (hmin : P.lMin ≤ l.toNat) (hmax : l.toNat ≤ P.lMax) (hP : 1 ≤ P.lMin) :
    validate P (responseFrame l ck body) = true := by
  have hlen : (responseFrame l ck body).length = l.toNat + 6 := by
    simp [responseFrame, hbody]
  exact (validate_iff P _).mpr ⟨by omega, rfl, rfl, byteAt_append_last _ ck 0x16, rfl, hmin, hmax, hlen⟩

/-- A valid sequence is of the layout: its header is the first four bytes, its last two follow the `L` bytes of the
body (R252). -/
theorem responseFrame_of_valid {P : Params} {f : List Byte} (h : validate P f = true) :
    ∃ l ck body, f = responseFrame l ck body ∧ body.length = l.toNat ∧ P.lMin ≤ l.toNat ∧
      l.toNat ≤ P.lMax := by
  obtain ⟨h7, hfirst, hsecond, hend, hcopy, hmin, hmax, hlen⟩ := (validate_iff P f).mp h
  match f, hlen with
  | b0 :: l :: l' :: b3 :: tail, hlen =>
    obtain rfl : b0 = 0x68 := hfirst
    obtain rfl : b3 = 0x68 := hsecond
    obtain rfl : l' = l := hcopy
    have htail : tail.length = l'.toNat + 2 := by
      simp only [List.length_cons] at hlen
      exact Nat.add_right_cancel (m := 4) hlen
    obtain ⟨ck, last, hdrop⟩ : ∃ ck last, tail.drop l'.toNat = [ck, last] :=
      List.length_eq_two.mp (by rw [List.length_drop, htail, Nat.add_sub_cancel_left])
    have hbody : (tail.take l'.toNat).length = l'.toNat := List.length_take_of_le (by omega)
    have hsplit : tail = tail.take l'.toNat ++ [ck, last] := by rw [← hdrop, List.take_append_drop]
    rw [hsplit] at hend ⊢
    obtain rfl : last = 0x16 :=
      (byteAt_append_last (0x68 :: l' :: l' :: 0x68 :: tail.take l'.toNat) ck last).symm.trans hend
    exact ⟨l', ck, tail.take l'.toNat, rfl, hbody, hmin, hmax⟩

/-- Settles O46: the layout is what the six checks say together. -/
theorem validateAcceptsResponseLayout : Obligations.ValidateAcceptsResponseLayout := by
  unfold Obligations.ValidateAcceptsResponseLayout
  intro f s
  refine ⟨validate Config.params f, exec_validate f s, responseFrame_of_valid, ?_⟩
  rintro ⟨l, ck, body, rfl, hbody, hmin, hmax⟩
  exact validate_responseFrame hbody hmin hmax (le_trans (by decide) lMin_ge)

/-! ## The sums -/

/-- The checksum as a number (R253). -/
theorem sum8_toNat (bs : List Byte) : (sum8 bs).toNat = (bs.map BitVec.toNat).sum % 256 := by
  rw [sum8_eq_sum]
  induction bs with
  | nil => rfl
  | cons b bs ih =>
    rw [List.sum_cons, BitVec.toNat_add, ih, List.map_cons, List.sum_cons]
    omega

/-- Settles O47: a sum in the ring of bytes has no order. -/
theorem sum8IsSumMod256 : Obligations.Sum8IsSumMod256 := by
  unfold Obligations.Sum8IsSumMod256
  intro bs s
  refine ⟨sum8 bs, exec_sum8 bs s, sum8_toNat bs, fun cs hperm => ?_⟩
  rw [exec_sum8, sum8_eq_sum, sum8_eq_sum, hperm.sum_eq]

/-- The byte before the last, and the bytes between the fourth and it. -/
theorem checksumValid_append {head body : List Byte} {ck last : Byte} (hhead : head.length = 4) :
    checksumValid (head ++ body ++ [ck, last]) = true ↔ ck = sum8 body := by
  have hlen : (head ++ body ++ [ck, last]).length = 4 + body.length + 2 := by
    rw [List.length_append, List.length_append, hhead]
    rfl
  have hck : byteAt (head ++ body ++ [ck, last]) (4 + body.length) = ck := by
    rw [byteAt, List.getD_append_right _ _ _ _ (by simp [hhead])]
    simp [hhead]
  have hbody : bytesFrom (head ++ body ++ [ck, last]) 4 body.length = body := by
    rw [bytesFrom, List.append_assoc, List.drop_left' hhead, List.take_left]
  rw [checksumValid_iff (by omega), hlen, Nat.add_sub_cancel, hck,
    show 4 + body.length + 2 - 6 = body.length by omega, hbody]

/-- Settles O48: a sequence of six bytes or more is four, the summed ones, the checksum and one more. -/
theorem cksumTestsSumFromIndexFour : Obligations.CksumTestsSumFromIndexFour := by
  unfold Obligations.CksumTestsSumFromIndexFour
  intro s
  refine ⟨fun f hshort => ?_, fun head body ck last hhead => ⟨_, exec_cksum _ s, ?_⟩⟩
  · rw [exec_cksum, checksumValid, if_pos hshort]
  · rw [checksumValid_append hhead, ← sum8_toNat, BitVec.toNat_inj]

/-- Settles O49: the byte is one of the summed ones, and not the checksum. -/
theorem oneByteChangeBreaksChecksum : Obligations.OneByteChangeBreaksChecksum := by
  unfold Obligations.OneByteChangeBreaksChecksum
  exact fun f k x hc h4 hk hx => checksumValid_set_eq_false hc h4 hk hx

/-! ## The marker byte -/

/-- No valid frame has fewer than 21 bytes (R111). -/
theorem validate_of_lt {f : List Byte} (h : f.length < 21) : validate Config.params f = false := by
  rw [← Bool.not_eq_true]
  intro hv
  exact absurd (detect_length (detect_of_valid hv)) (Nat.not_le.mpr h)

/-- Validation does not read the marker byte (R261). -/
theorem validate_set_marker (f : List Byte) (x : Byte) :
    validate Config.params (f.set 7 x) = validate Config.params f := by
  by_cases hshort : f.length < 21
  · rw [validate_of_lt hshort, validate_of_lt (by rwa [List.length_set])]
  · exact validate_set _ x (by decide) (by omega)

/-- Classification does not read the marker byte (R261). -/
theorem detect_set_marker (f : List Byte) (x : Byte) :
    detect Config.params (f.set 7 x) = detect Config.params f := by
  have hbyte (j : Nat) (hj : 7 ≠ j) : byteAt (f.set 7 x) j = byteAt f j := byteAt_set_other f j 7 x hj
  have htag : userData (f.set 7 x) 12 = userData f 12 := hbyte (7 + 12) (by decide)
  have htop : userData (f.set 7 x) 7 = userData f 7 := hbyte (7 + 7) (by decide)
  have hset := validate_set_marker f x
  cases hv : validate Config.params f with
  | false => rw [detect_of_invalid hv, detect_of_invalid (hset.trans hv)]
  | true => rw [detect_of_valid hv, detect_of_valid (hset.trans hv), hbyte 1 (by decide), htag, htop]

/-- Settles O52: the record's flag alone reads the marker byte, which a classified frame has. -/
theorem markerDoesNotClassify : Obligations.MarkerDoesNotClassify := by
  unfold Obligations.MarkerDoesNotClassify
  intro f x
  refine ⟨validate_set_marker f x, detect_set_marker f x, fun rev hrev => ?_⟩
  have hlen := detect_length hrev
  have hmarker : userData (f.set 7 x) 0 = x := by
    rw [userData, byteAt, List.getD_eq_getElem _ _ (by rw [List.length_set]; omega)]
    exact List.getElem_set_self _
  refine ⟨_, decodeFrame_of_detected ((detect_set_marker f x).trans hrev), ?_⟩
  rw [decodeRecord, markerValid, hmarker, decide_eq_true_iff]

/-! ## The status byte -/

/-- The bit positions of the status byte that revisions 3 and 4 decode. -/
def statusBits : List (Fin 8) :=
  [Config.params.bitFlow, Config.params.bitReverse, Config.params.bitLeak] ++ Config.params.voltBits.toList

/-- They are all eight (spec/00_scope.md R11). -/
theorem mem_statusBits (i : Fin 8) : i ∈ statusBits := by
  have hnodup : statusBits.Nodup := params_legal.2.2.2.2.1
  have hcard : statusBits.toFinset = Finset.univ := by
    rw [← Finset.card_eq_iff_eq_univ, List.toFinset_card_of_nodup hnodup]
    simp [statusBits]
  rw [← List.mem_toFinset, hcard]
  exact Finset.mem_univ i

/-- The number that five bits make, most significant first. -/
def bitsNumber (a : Fin 5 → Bool) : Nat :=
  (a 0).toNat * 16 + (a 1).toNat * 8 + (a 2).toNat * 4 + (a 3).toNat * 2 + (a 4).toNat

theorem bitsNumber_le (a : Fin 5 → Bool) : bitsNumber a ≤ 31 := by
  revert a
  decide

theorem bitsNumber_inj {a b : Fin 5 → Bool} (h : bitsNumber a = bitsNumber b) : a = b := by
  revert a b
  decide

/-- The voltage bits of a status byte, most significant first (R297). -/
def voltBit (sb : Byte) (i : Fin 5) : Bool := sb.getLsbD Config.params.voltBits[i].val

/-- The battery voltage of a status byte is 37 less the number of its voltage bits (R294, R297). -/
theorem batt_voltCode_bitsNumber (sb : Byte) :
    (batt (voltCode Config.params sb)).toNat = 37 - bitsNumber (voltBit sb) :=
  batt_voltCode_toNat Config.params sb

/-- Two status bytes of the same battery voltage have the same voltage bits: no number of five bits exceeds 37 (R294,
R298). -/
theorem voltBit_of_batt {a b : Byte} (h : batt (voltCode Config.params a) = batt (voltCode Config.params b)) :
    voltBit a = voltBit b := by
  have hnumber := congrArg BitVec.toNat h
  rw [batt_voltCode_bitsNumber, batt_voltCode_bitsNumber] at hnumber
  have ha := bitsNumber_le (voltBit a)
  have hb := bitsNumber_le (voltBit b)
  exact bitsNumber_inj (by omega)

/-- Settles O57: the three flags and the voltage show every bit of the status byte. -/
theorem statusByteIsFullyUsed : Obligations.StatusByteIsFullyUsed := by
  unfold Obligations.StatusByteIsFullyUsed
  intro rev a b v hrev h
  have hflow : a.getLsbD Config.params.bitFlow.val = b.getLsbD Config.params.bitFlow.val :=
    congrArg StatusFields.flowExceeded h
  have hreverse : a.getLsbD Config.params.bitReverse.val = b.getLsbD Config.params.bitReverse.val :=
    congrArg StatusFields.reverseFlow h
  have hleak : a.getLsbD Config.params.bitLeak.val = b.getLsbD Config.params.bitLeak.val :=
    congrArg StatusFields.indoorLeak h
  have hbatt : batt (voltCode Config.params a) = batt (voltCode Config.params b) := by
    rcases hrev with rfl | rfl <;> exact Option.some.inj (congrArg StatusFields.batteryDecivolts h)
  have hvolt := voltBit_of_batt hbatt
  have hbits : ∀ i ∈ statusBits, a.getLsbD i.val = b.getLsbD i.val := by
    simp only [statusBits, List.cons_append, List.nil_append, List.forall_mem_cons]
    refine ⟨hflow, hreverse, hleak, fun i hi => ?_⟩
    obtain ⟨j, hj, rfl⟩ := List.getElem_of_mem hi
    rw [Vector.length_toList] at hj
    rw [Vector.getElem_toList]
    exact congrFun hvolt ⟨j, hj⟩
  exact BitVec.eq_of_getLsbD_eq fun k hk => hbits ⟨k, hk⟩ (mem_statusBits ⟨k, hk⟩)

end Sys2Proof
end
